-- ==== Sys2Proof/Word.lean ====
section
/-! DEFINITION. The word types of the encoder block and the integer primitives of R11 (00_scope.md) that are
too plain for a test to find wrong. -/
namespace Sys2Proof

/-- One byte of `IN8`, of `OUT8` or of a command (R50, R87). -/
abbrev Byte := BitVec 8

/-- A 16-bit two's-complement PCM sample or predictor value (R9 `SAMPLE_BITS`, R21). -/
abbrev Sample := BitVec 16

/-- A 16-bit unsigned tile index (R9 `TILE_BITS`, R14). -/
abbrev Tile := BitVec 16

/-- A 16-bit word of `payload`, `blockData` or `OUT16` (R9 `WORD_BITS`, R50). -/
abbrev Word := BitVec 16

/-- A 4-bit ADPCM code (R9 `CODE_BITS`, R71). -/
abbrev Nybble := BitVec 4

end Sys2Proof
end

