-- ==== Sys2Proof/Config.lean ====
section
/-! DEFINITION. The parameters of the block: those the source fixes (R9) as constants, and those it leaves open
(R10) as the record `Params`, whose default value is the spec's, and one reading that two of its rules leave open. No value of the spec is a free value of this
model: every open point of 92_eei_decisions.md is a fixed choice of the spec or a field of `Params`. -/
namespace Sys2Proof.Config

/-- R9 `INDEX_MAX`. -/
def indexMax : Nat := 88
/-- R9 `IC_PREFIX_BYTES` is 200, that is 100 samples (R108). -/
def icPrefixSamples : Nat := 100
/-- R9 `SHORT_INPUT_BYTES`: an input of fewer bytes skips the optimisation (R112). -/
def shortInputBytes : Nat := 4
/-- R9 `BLOCK_W` and `BLOCK_H`. -/
def blockSide : Nat := 8
/-- R9 `DICT_MAX`. -/
def dictMax : Nat := 64
/-- R9 `VAR_CHUNK`, the chunk size of every variable-length field DUB emits. -/
def varChunk : Nat := 3
/-- R9 `WORD_BITS`. -/
def wordBits : Nat := 16
/-- R9 `INDEX8_LIMIT`. -/
def index8Limit : Nat := 256
/-- R9 `WORD_LIMIT`. -/
def wordLimit : Nat := 65536

/-- The three readings of the candidate-delta cast pattern (R102, decision D3, conflict C1). -/
inductive DeltaMode where
  | signedAsr
  | sextLsr
  | zextLsr
  deriving DecidableEq, Repr

/-- The parameters the source leaves open (R10). `Exhaust`, the sixth of R10, is the answer list
`Machine.State.exhaust`. -/
structure Params where
  /-- R102, decision D3. -/
  deltaMode : DeltaMode := .signedAsr
  /-- R108, decision D7. -/
  evalCountsPad : Bool := true
  /-- R158, decision D14. -/
  dubRunStartEmit : Bool := false
  /-- R130, decision D15: the capacity of the bit-buffer accumulator. -/
  accBits : Nat := 64
  /-- R180, decision D26: the width of `width`, `height` and `frames`. -/
  dimBits : Nat := 32
  /-- Whether the growth of an accumulator consults the oracle too, as R63 says and the list of R203 does not; no parameter
  of R10 but the model's own (log entry 28). -/
  exhaustAccumulators : Bool := false
  deriving DecidableEq, Repr

/-- The default column of R10. -/
def Params.default : Params := {}

end Sys2Proof.Config
end

