-- ==== Sys2Proof/Syntax.lean ====
section
/-! DEFINITION. The instructions: one constructor for each of the 61 rows of spec/opcode_table.json. The thirty
rows of format `command` are the operations of R86 with the scalar operands of R87; the other thirty-one rows are
the encoded objects of R70 (log entries 4 and 5). Also the transactions in which the host issues them. -/
namespace Sys2Proof

/-- The type of a DUB code (R150); `rept` is REPEAT. The operand values are 0, 1, 2, 3 in this order (R87). -/
inductive CodeType where
  | delta
  | ref
  | rept
  | invalid
  deriving DecidableEq, Repr

/-- An instruction. -/
inductive Instr where
  -- SYS (R245)
  | sysReset
  | sysStatus
  -- ADPCM (40_adpcm.md)
  | adpcmSetic (sample0 : Sample) (index0 : BitVec 8)
  | adpcmQuant (s : Sample)
  | adpcmStep (s : Sample)
  | adpcmPut (code : BitVec 8)
  | adpcmPair (s0 s1 : Sample)
  | adpcmBody (len : BitVec 32)
  | adpcmEval (sample0 : Sample) (index0 : BitVec 8) (len : BitVec 32)
  | adpcmScan (len : BitVec 32)
  | adpcmClimb (sample0 : Sample) (index0 : BitVec 8) (err : BitVec 64) (len : BitVec 32)
  | adpcmOptic (len : BitVec 32)
  | adpcmEncode (len : BitVec 32)
  | adpcmHeader
  -- BB (41_bitbuffer.md)
  | bbReset
  | bbAppend (value : BitVec 32) (n : BitVec 8)
  | bbAppendVar (value : BitVec 32) (chunk : BitVec 8)
  | bbFlush
  | bbFlushFinal
  | bbGetCount
  -- DUB, per block (42_dub_block.md)
  | dubPack (ty : CodeType) (value : BitVec 32)
  | dubCodeLen (ty : CodeType) (value : BitVec 32)
  | dubChoose (tile : Tile)
  | dubBlockBegin
  | dubTile (tile : Tile)
  | dubBlockEnd
  | dubBlock (tiles : List Tile)
  -- DUB, per asset (43_dub_asset.md)
  | dubDedup (payload : List Word)
  | dubIndexSel
  | dubEncode (width height frames : Nat)
  -- the sixteen ADPCM codes (R71, R73)
  | adpcmCode0
  | adpcmCode1
  | adpcmCode2
  | adpcmCode3
  | adpcmCode4
  | adpcmCode5
  | adpcmCode6
  | adpcmCode7
  | adpcmCode8
  | adpcmCode9
  | adpcmCode10
  | adpcmCode11
  | adpcmCode12
  | adpcmCode13
  | adpcmCode14
  | adpcmCode15
  -- the other ADPCM objects (R74, R75, R76)
  | codeTableWord (adj : BitVec 24) (mult : BitVec 8)
  | adpcmBodyByte (second first : Nybble)
  | adpcmHeaderBytes (sample0 : Sample) (index0 : BitVec 8)
  -- the DUB code forms by group count (R78 to R81); the magnitude is the concatenation of the 3-bit groups
  | dubDeltaG1 (neg : Bool) (mag : BitVec 3)
  | dubDeltaG2 (neg : Bool) (mag : BitVec 6)
  | dubDeltaG3 (neg : Bool) (mag : BitVec 9)
  | dubDeltaG4 (neg : Bool) (mag : BitVec 12)
  | dubDeltaG5 (neg : Bool) (mag : BitVec 15)
  | dubDeltaG6 (neg : Bool) (mag : BitVec 18)
  | dubRefG1 (value : BitVec 3)
  | dubRefG2 (value : BitVec 6)
  | dubRepeatG1 (value : BitVec 3)
  | dubRepeatG2 (value : BitVec 6)
  -- the index words (R85, R186)
  | dubIndex8 (high low : BitVec 8)
  | dubIndex16 (entry : BitVec 16)
  deriving DecidableEq, Repr

/-- What the host puts on the bus in one transaction: a command (R87), or one encoded object of R70 in the frame of
its table format. A dub code is a list of bits in stream order, oldest first (R82). Two formats have two frames each,
because the bits alone do not tell the rows apart: a REPEAT is not marked in the stream (R81), and the index width is
out-of-band (R85). Log entry 5. -/
inductive Packet where
  | command (bytes : List Byte)
  | adpcmNybble (code : Nybble)
  | codeTableWord (word : BitVec 32)
  | adpcmBodyByte (byte : Byte)
  | adpcmHeader (bytes : List Byte)
  | dubCode (bits : List Bool)
  | dubRepeat (bits : List Bool)
  | dubIndexWord8 (word : Word)
  | dubIndexWord16 (word : Word)
  deriving DecidableEq, Repr

/-- The formats a transaction can have; `dubRepeat`, `dubIndexWord8` and `dubIndexWord16` are the split of the table's
`dub_code` and `dub_index_word` that `Packet` explains. -/
inductive Format where
  | command
  | adpcmNybble
  | codeTableWord
  | adpcmBodyByte
  | adpcmHeader
  | dubCode
  | dubRepeat
  | dubIndexWord8
  | dubIndexWord16
  deriving DecidableEq, Repr

/-- The format of a transaction. -/
def Packet.format : Packet → Format
  | .command _ => .command
  | .adpcmNybble _ => .adpcmNybble
  | .codeTableWord _ => .codeTableWord
  | .adpcmBodyByte _ => .adpcmBodyByte
  | .adpcmHeader _ => .adpcmHeader
  | .dubCode _ => .dubCode
  | .dubRepeat _ => .dubRepeat
  | .dubIndexWord8 _ => .dubIndexWord8
  | .dubIndexWord16 _ => .dubIndexWord16

/-- The format of an instruction's row in spec/opcode_table.json. -/
def Instr.format : Instr → Format
  | .sysReset => .command
  | .sysStatus => .command
  | .adpcmSetic _ _ => .command
  | .adpcmQuant _ => .command
  | .adpcmStep _ => .command
  | .adpcmPut _ => .command
  | .adpcmPair _ _ => .command
  | .adpcmBody _ => .command
  | .adpcmEval _ _ _ => .command
  | .adpcmScan _ => .command
  | .adpcmClimb _ _ _ _ => .command
  | .adpcmOptic _ => .command
  | .adpcmEncode _ => .command
  | .adpcmHeader => .command
  | .bbReset => .command
  | .bbAppend _ _ => .command
  | .bbAppendVar _ _ => .command
  | .bbFlush => .command
  | .bbFlushFinal => .command
  | .bbGetCount => .command
  | .dubPack _ _ => .command
  | .dubCodeLen _ _ => .command
  | .dubChoose _ => .command
  | .dubBlockBegin => .command
  | .dubTile _ => .command
  | .dubBlockEnd => .command
  | .dubBlock _ => .command
  | .dubDedup _ => .command
  | .dubIndexSel => .command
  | .dubEncode _ _ _ => .command
  | .adpcmCode0 => .adpcmNybble
  | .adpcmCode1 => .adpcmNybble
  | .adpcmCode2 => .adpcmNybble
  | .adpcmCode3 => .adpcmNybble
  | .adpcmCode4 => .adpcmNybble
  | .adpcmCode5 => .adpcmNybble
  | .adpcmCode6 => .adpcmNybble
  | .adpcmCode7 => .adpcmNybble
  | .adpcmCode8 => .adpcmNybble
  | .adpcmCode9 => .adpcmNybble
  | .adpcmCode10 => .adpcmNybble
  | .adpcmCode11 => .adpcmNybble
  | .adpcmCode12 => .adpcmNybble
  | .adpcmCode13 => .adpcmNybble
  | .adpcmCode14 => .adpcmNybble
  | .adpcmCode15 => .adpcmNybble
  | .codeTableWord _ _ => .codeTableWord
  | .adpcmBodyByte _ _ => .adpcmBodyByte
  | .adpcmHeaderBytes _ _ => .adpcmHeader
  | .dubDeltaG1 _ _ => .dubCode
  | .dubDeltaG2 _ _ => .dubCode
  | .dubDeltaG3 _ _ => .dubCode
  | .dubDeltaG4 _ _ => .dubCode
  | .dubDeltaG5 _ _ => .dubCode
  | .dubDeltaG6 _ _ => .dubCode
  | .dubRefG1 _ => .dubCode
  | .dubRefG2 _ => .dubCode
  | .dubRepeatG1 _ => .dubRepeat
  | .dubRepeatG2 _ => .dubRepeat
  | .dubIndex8 _ _ => .dubIndexWord8
  | .dubIndex16 _ => .dubIndexWord16

end Sys2Proof
end

