-- ==== Sys2Proof/WellFormed.lean ====
section
/-! DEFINITION. Which instructions are well formed: operands in the domain the spec gives them (R87, R101, R132,
R133, R151, R161, R180; log entry 29) and objects the encoder can produce (R77, R83). -/
namespace Sys2Proof

/-- A value that needs exactly `groups` 3-bit groups (R78): the last group is not zero when there are several. -/
def minimalGroups (groups value : Nat) : Bool :=
  value < 8 ^ groups && (groups == 1 || 8 ^ (groups - 1) ≤ value)

/-- A DELTA form the encoder can produce (R79, R83): minimal, magnitude at most 65535, no minus zero. -/
def deltaFormOk (groups : Nat) (neg : Bool) (mag : Nat) : Bool :=
  minimalGroups groups mag && mag ≤ 65535 && !(neg && mag == 0)

/-- A REF or REPEAT form the encoder can produce (R80, R81, R83). -/
def countFormOk (groups value : Nat) : Bool :=
  minimalGroups groups value && value ≤ 62

/-- A code type `DUB.PACK` can pack (R151, R206), with a value that is not negative unless it is a DELTA (R133). -/
def codeOperandOk (ty : CodeType) (value : BitVec 32) : Bool :=
  match ty with
  | .delta => true
  | .ref => decide (0 ≤ value.toInt)
  | .rept => decide (0 ≤ value.toInt)
  | .invalid => false

/-- The well-formedness check. -/
def Instr.wf (cfg : Config.Params) : Instr → Bool
  | .sysReset => true
  | .sysStatus => true
  | .adpcmSetic _ index0 => index0.toNat ≤ 88
  | .adpcmQuant _ => true
  | .adpcmStep _ => true
  | .adpcmPut code => code.toNat ≤ 15
  | .adpcmPair _ _ => true
  | .adpcmBody _ => true
  | .adpcmEval _ index0 _ => index0.toNat ≤ 88
  | .adpcmScan len => 2 ≤ len.toNat
  | .adpcmClimb _ index0 _ _ => index0.toNat ≤ 88
  | .adpcmOptic len => 4 ≤ len.toNat
  | .adpcmEncode _ => true
  | .adpcmHeader => true
  | .bbReset => true
  | .bbAppend _ n => n.toNat ≤ 32
  | .bbAppendVar _ chunk => 1 ≤ chunk.toNat && chunk.toNat ≤ 32
  | .bbFlush => true
  | .bbFlushFinal => true
  | .bbGetCount => true
  | .dubPack ty value => codeOperandOk ty value
  | .dubCodeLen ty value => codeOperandOk ty value
  | .dubChoose _ => true
  | .dubBlockBegin => true
  | .dubTile _ => true
  | .dubBlockEnd => true
  | .dubBlock tiles => 1 ≤ tiles.length && tiles.length ≤ 64
  | .dubDedup payload => payload.length < 256
  | .dubIndexSel => true
  | .dubEncode width height frames =>
    width < 2 ^ cfg.dimBits && height < 2 ^ cfg.dimBits && frames < 2 ^ cfg.dimBits
  | .adpcmCode0 => true
  | .adpcmCode1 => true
  | .adpcmCode2 => true
  | .adpcmCode3 => true
  | .adpcmCode4 => true
  | .adpcmCode5 => true
  | .adpcmCode6 => true
  | .adpcmCode7 => true
  | .adpcmCode8 => true
  | .adpcmCode9 => true
  | .adpcmCode10 => true
  | .adpcmCode11 => true
  | .adpcmCode12 => true
  | .adpcmCode13 => true
  | .adpcmCode14 => true
  | .adpcmCode15 => true
  | .codeTableWord _ _ => true
  | .adpcmBodyByte _ _ => true
  | .adpcmHeaderBytes _ index0 => index0.toNat ≤ 88
  | .dubDeltaG1 neg mag => deltaFormOk 1 neg mag.toNat
  | .dubDeltaG2 neg mag => deltaFormOk 2 neg mag.toNat
  | .dubDeltaG3 neg mag => deltaFormOk 3 neg mag.toNat
  | .dubDeltaG4 neg mag => deltaFormOk 4 neg mag.toNat
  | .dubDeltaG5 neg mag => deltaFormOk 5 neg mag.toNat
  | .dubDeltaG6 neg mag => deltaFormOk 6 neg mag.toNat
  | .dubRefG1 value => countFormOk 1 value.toNat
  | .dubRefG2 value => countFormOk 2 value.toNat
  | .dubRepeatG1 value => countFormOk 1 value.toNat
  | .dubRepeatG2 value => countFormOk 2 value.toNat
  | .dubIndex8 _ _ => true
  | .dubIndex16 _ => true

end Sys2Proof
end

