-- ==== Sys2Proof/Decode.lean ====
section
/-! DEFINITION. From a transaction to an instruction, total and rejecting by name, and back; and the reading of the
words of spec/opcode_table.json. Encodings: R86 and R87 for commands, R71 to R81 and R85 for the encoded objects. -/
namespace Sys2Proof

/-- Why a transaction is no instruction. -/
inductive DecodeError where
  /-- A command with no byte at all. -/
  | noCommand
  /-- U1: a command number that R86 does not list. -/
  | undefinedCommand (number : Byte)
  /-- A command shorter than its operands (R87). -/
  | truncated
  /-- Bytes left over after a command's operands (log entry 21). -/
  | trailingBytes
  /-- A `type` byte above 3 (R87). -/
  | codeTypeUnassigned (type : Byte)
  /-- A dimension that does not fit `DIM_BITS` (R180). -/
  | dimensionTooWide
  /-- Bits that are none of the DUB code forms of the opcode table (R79 to R81). -/
  | noCodeForm
  /-- A header frame that is not three bytes (R75). -/
  | headerLength
  deriving DecidableEq, Repr

/-! ### Bytes and bits -/

/-- `n` bytes of `v`, least significant first (R12 `MemWrite`). -/
def leBytes : Nat → Nat → List Byte
  | 0, _ => []
  | n + 1, v => BitVec.ofNat 8 v :: leBytes n (v / 256)

/-- Reads `n` bytes as a little-endian number (R12 `MemRead`) and leaves the rest. -/
def takeLe : Nat → List Byte → Except DecodeError (Nat × List Byte)
  | 0, r => .ok (0, r)
  | _ + 1, [] => .error .truncated
  | n + 1, b :: r =>
    match takeLe n r with
    | .ok (v, r') => .ok (b.toNat + 256 * v, r')
    | .error e => .error e

/-- `n` 16-bit words, each little-endian (R87, tile lists and payloads). -/
def leWords : List Word → List Byte
  | [] => []
  | w :: ws => leBytes 2 w.toNat ++ leWords ws

/-- Reads `n` 16-bit words. -/
def takeWords : Nat → List Byte → Except DecodeError (List Word × List Byte)
  | 0, r => .ok ([], r)
  | n + 1, r =>
    match takeLe 2 r with
    | .error e => .error e
    | .ok (w, r') =>
      match takeWords n r' with
      | .error e => .error e
      | .ok (ws, r'') => .ok (BitVec.ofNat 16 w :: ws, r'')

/-- `ceil8` of R11. -/
def ceil8 (n : Nat) : Nat := (n + 7) / 8

/-- The bytes of one dimension operand: `DIM_BITS` bits in whole bytes (R87; log entry 20). -/
def dimBytes (cfg : Config.Params) : Nat := ceil8 cfg.dimBits

/-- Reads one dimension operand of `DUB.ENCODE`. -/
def takeDim (cfg : Config.Params) (r : List Byte) : Except DecodeError (Nat × List Byte) :=
  match takeLe (dimBytes cfg) r with
  | .error e => .error e
  | .ok (v, r') => if v < 2 ^ cfg.dimBits then .ok (v, r') else .error .dimensionTooWide

/-- The operand value of a code type (R87). -/
def codeTypeByte : CodeType → Byte
  | .delta => 0
  | .ref => 1
  | .rept => 2
  | .invalid => 3

/-- The code type a byte names (R87). -/
def codeTypeOf (b : Byte) : Except DecodeError CodeType :=
  match b.toNat with
  | 0 => .ok .delta
  | 1 => .ok .ref
  | 2 => .ok .rept
  | 3 => .ok .invalid
  | _ => .error (.codeTypeUnassigned b)

/-! ### Commands (R86, R87) -/

/-- Reads one operand of `n` bytes as `w` bits and hands it on. -/
def withNum (n w : Nat) (r : List Byte) (k : BitVec w → List Byte → Except DecodeError (Instr × List Byte)) :
    Except DecodeError (Instr × List Byte) :=
  match takeLe n r with
  | .error e => .error e
  | .ok (v, r') => k (BitVec.ofNat w v) r'

/-- Reads the `type` and `value` operands of a DUB code. -/
def withCode (r : List Byte) (k : CodeType → BitVec 32 → Instr) : Except DecodeError (Instr × List Byte) :=
  withNum 1 8 r fun t r => withNum 4 32 r fun v r =>
    match codeTypeOf t with
    | .error e => .error e
    | .ok ty => .ok (k ty v, r)

/-- Reads an 8-bit count and that many words. -/
def withWords (r : List Byte) (k : List Word → Instr) : Except DecodeError (Instr × List Byte) :=
  withNum 1 8 r fun n r =>
    match takeWords n.toNat r with
    | .error e => .error e
    | .ok (ws, r') => .ok (k ws, r')

/-- Reads the three dimensions of `DUB.ENCODE`. -/
def withDims (cfg : Config.Params) (r : List Byte) : Except DecodeError (Instr × List Byte) :=
  match takeDim cfg r with
  | .error e => .error e
  | .ok (w, r1) =>
    match takeDim cfg r1 with
    | .error e => .error e
    | .ok (h, r2) =>
      match takeDim cfg r2 with
      | .error e => .error e
      | .ok (f, r3) => .ok (.dubEncode w h f, r3)

/-- Decodes the command at the head of a byte list and leaves the rest: the number of R86, then the operands of R87. -/
def decodeCommand (cfg : Config.Params) : List Byte → Except DecodeError (Instr × List Byte)
  | [] => .error .noCommand
  | op :: r =>
    match op.toNat with
    | 0x00 => .ok (.sysReset, r)
    | 0x01 => .ok (.sysStatus, r)
    | 0x10 => withNum 2 16 r fun s r => withNum 1 8 r fun i r => .ok (.adpcmSetic s i, r)
    | 0x11 => withNum 2 16 r fun s r => .ok (.adpcmQuant s, r)
    | 0x12 => withNum 2 16 r fun s r => .ok (.adpcmStep s, r)
    | 0x13 => withNum 1 8 r fun c r => .ok (.adpcmPut c, r)
    | 0x14 => withNum 2 16 r fun s0 r => withNum 2 16 r fun s1 r => .ok (.adpcmPair s0 s1, r)
    | 0x15 => withNum 4 32 r fun l r => .ok (.adpcmBody l, r)
    | 0x16 => withNum 2 16 r fun s r => withNum 1 8 r fun i r => withNum 4 32 r fun l r => .ok (.adpcmEval s i l, r)
    | 0x17 => withNum 4 32 r fun l r => .ok (.adpcmScan l, r)
    | 0x18 => withNum 2 16 r fun s r => withNum 1 8 r fun i r => withNum 8 64 r fun e r => withNum 4 32 r fun l r =>
        .ok (.adpcmClimb s i e l, r)
    | 0x19 => withNum 4 32 r fun l r => .ok (.adpcmOptic l, r)
    | 0x1A => withNum 4 32 r fun l r => .ok (.adpcmEncode l, r)
    | 0x1B => .ok (.adpcmHeader, r)
    | 0x20 => .ok (.bbReset, r)
    | 0x21 => withNum 4 32 r fun v r => withNum 1 8 r fun n r => .ok (.bbAppend v n, r)
    | 0x22 => withNum 4 32 r fun v r => withNum 1 8 r fun c r => .ok (.bbAppendVar v c, r)
    | 0x23 => .ok (.bbFlush, r)
    | 0x24 => .ok (.bbFlushFinal, r)
    | 0x25 => .ok (.bbGetCount, r)
    | 0x30 => withCode r .dubPack
    | 0x31 => withCode r .dubCodeLen
    | 0x32 => withNum 2 16 r fun t r => .ok (.dubChoose t, r)
    | 0x33 => .ok (.dubBlockBegin, r)
    | 0x34 => withNum 2 16 r fun t r => .ok (.dubTile t, r)
    | 0x35 => .ok (.dubBlockEnd, r)
    | 0x36 => withWords r .dubBlock
    | 0x37 => withWords r .dubDedup
    | 0x38 => .ok (.dubIndexSel, r)
    | 0x39 => withDims cfg r
    | _ => .error (.undefinedCommand op)

/-! ### Objects -/

/-- The instruction of an ADPCM code (R71): each of the sixteen values is legal. -/
def decodeNybble (c : Nybble) : Instr :=
  match c.toNat with
  | 0 => .adpcmCode0
  | 1 => .adpcmCode1
  | 2 => .adpcmCode2
  | 3 => .adpcmCode3
  | 4 => .adpcmCode4
  | 5 => .adpcmCode5
  | 6 => .adpcmCode6
  | 7 => .adpcmCode7
  | 8 => .adpcmCode8
  | 9 => .adpcmCode9
  | 10 => .adpcmCode10
  | 11 => .adpcmCode11
  | 12 => .adpcmCode12
  | 13 => .adpcmCode13
  | 14 => .adpcmCode14
  | _ => .adpcmCode15

/-- The bits of a field of exactly `n` 3-bit groups (R78): a continuation flag before each group, the least
significant group first, each group most significant bit first. -/
def groupBits : Nat → Nat → List Bool
  | 0, _ => []
  | n + 1, v => (n != 0) :: v.testBit 2 :: v.testBit 1 :: v.testBit 0 :: groupBits n (v / 8)

/-- The value of three bits, most significant first. -/
def bits3 (x y z : Bool) : Nat := 4 * x.toNat + 2 * y.toNat + z.toNat

/-- Reads a whole bit list as one field of R78: the number of its groups and its value. -/
def readGroups : List Bool → Option (Nat × Nat)
  | false :: x :: y :: z :: [] => some (1, bits3 x y z)
  | true :: x :: y :: z :: r =>
    match readGroups r with
    | some (n, v) => some (n + 1, bits3 x y z + 8 * v)
    | none => none
  | _ => none

/-- The DELTA form with that many groups (R79). -/
def deltaForm (neg : Bool) : Nat × Nat → Except DecodeError Instr
  | (1, v) => .ok (.dubDeltaG1 neg (BitVec.ofNat 3 v))
  | (2, v) => .ok (.dubDeltaG2 neg (BitVec.ofNat 6 v))
  | (3, v) => .ok (.dubDeltaG3 neg (BitVec.ofNat 9 v))
  | (4, v) => .ok (.dubDeltaG4 neg (BitVec.ofNat 12 v))
  | (5, v) => .ok (.dubDeltaG5 neg (BitVec.ofNat 15 v))
  | (6, v) => .ok (.dubDeltaG6 neg (BitVec.ofNat 18 v))
  | _ => .error .noCodeForm

/-- The REF form with that many groups (R80). -/
def refForm : Nat × Nat → Except DecodeError Instr
  | (1, v) => .ok (.dubRefG1 (BitVec.ofNat 3 v))
  | (2, v) => .ok (.dubRefG2 (BitVec.ofNat 6 v))
  | _ => .error .noCodeForm

/-- The REPEAT form with that many groups (R81). -/
def repeatForm : Nat × Nat → Except DecodeError Instr
  | (1, v) => .ok (.dubRepeatG1 (BitVec.ofNat 3 v))
  | (2, v) => .ok (.dubRepeatG2 (BitVec.ofNat 6 v))
  | _ => .error .noCodeForm

/-- A field of R78 that is the whole of a bit list, or a rejection. -/
def wholeField (bits : List Bool) (k : Nat × Nat → Except DecodeError Instr) : Except DecodeError Instr :=
  match readGroups bits with
  | some f => k f
  | none => .error .noCodeForm

/-- Reads a code that is not a REPEAT (R88): a DELTA if its first bit is 0, a REF if it is 1. -/
def decodeDubCode : List Bool → Except DecodeError Instr
  | false :: neg :: r => wholeField r (deltaForm neg)
  | true :: r => wholeField r refForm
  | _ => .error .noCodeForm

/-! ### Transactions -/

/-- A command transaction holds one command and nothing after it. -/
def decodeWhole (cfg : Config.Params) (bytes : List Byte) : Except DecodeError Instr :=
  match decodeCommand cfg bytes with
  | .error e => .error e
  | .ok (i, []) => .ok i
  | .ok (_, _ :: _) => .error .trailingBytes

/-- Decodes a transaction. -/
def decode (cfg : Config.Params) : Packet → Except DecodeError Instr
  | .command bytes => decodeWhole cfg bytes
  | .adpcmNybble c => .ok (decodeNybble c)
  | .codeTableWord w => .ok (.codeTableWord (w.extractLsb' 8 24) (w.extractLsb' 0 8))
  | .adpcmBodyByte b => .ok (.adpcmBodyByte (b.extractLsb' 4 4) (b.extractLsb' 0 4))
  | .adpcmHeader [b0, b1, b2] => .ok (.adpcmHeaderBytes (b1 ++ b0) b2)
  | .adpcmHeader _ => .error .headerLength
  | .dubCode bits => decodeDubCode bits
  | .dubRepeat bits => wholeField bits repeatForm
  | .dubIndexWord8 w => .ok (.dubIndex8 (w.extractLsb' 8 8) (w.extractLsb' 0 8))
  | .dubIndexWord16 w => .ok (.dubIndex16 w)

/-! ### The encoder -/

/-- The instructions that have an encoding at all: a word list has an 8-bit count and a dimension `DIM_BITS` bits
(R87); every other operand fits its field by its type. -/
def Instr.encodable (cfg : Config.Params) : Instr → Bool
  | .dubBlock tiles => tiles.length < 256
  | .dubDedup payload => payload.length < 256
  | .dubEncode w h f => w < 2 ^ cfg.dimBits && h < 2 ^ cfg.dimBits && f < 2 ^ cfg.dimBits
  | _ => true

/-- The transaction of an instruction. -/
def encode (cfg : Config.Params) : Instr → Packet
  | .sysReset => .command [0x00]
  | .sysStatus => .command [0x01]
  | .adpcmSetic s i => .command (0x10 :: leBytes 2 s.toNat ++ leBytes 1 i.toNat)
  | .adpcmQuant s => .command (0x11 :: leBytes 2 s.toNat)
  | .adpcmStep s => .command (0x12 :: leBytes 2 s.toNat)
  | .adpcmPut c => .command (0x13 :: leBytes 1 c.toNat)
  | .adpcmPair s0 s1 => .command (0x14 :: leBytes 2 s0.toNat ++ leBytes 2 s1.toNat)
  | .adpcmBody l => .command (0x15 :: leBytes 4 l.toNat)
  | .adpcmEval s i l => .command (0x16 :: leBytes 2 s.toNat ++ leBytes 1 i.toNat ++ leBytes 4 l.toNat)
  | .adpcmScan l => .command (0x17 :: leBytes 4 l.toNat)
  | .adpcmClimb s i e l =>
    .command (0x18 :: leBytes 2 s.toNat ++ leBytes 1 i.toNat ++ leBytes 8 e.toNat ++ leBytes 4 l.toNat)
  | .adpcmOptic l => .command (0x19 :: leBytes 4 l.toNat)
  | .adpcmEncode l => .command (0x1A :: leBytes 4 l.toNat)
  | .adpcmHeader => .command [0x1B]
  | .bbReset => .command [0x20]
  | .bbAppend v n => .command (0x21 :: leBytes 4 v.toNat ++ leBytes 1 n.toNat)
  | .bbAppendVar v c => .command (0x22 :: leBytes 4 v.toNat ++ leBytes 1 c.toNat)
  | .bbFlush => .command [0x23]
  | .bbFlushFinal => .command [0x24]
  | .bbGetCount => .command [0x25]
  | .dubPack ty v => .command (0x30 :: codeTypeByte ty :: leBytes 4 v.toNat)
  | .dubCodeLen ty v => .command (0x31 :: codeTypeByte ty :: leBytes 4 v.toNat)
  | .dubChoose t => .command (0x32 :: leBytes 2 t.toNat)
  | .dubBlockBegin => .command [0x33]
  | .dubTile t => .command (0x34 :: leBytes 2 t.toNat)
  | .dubBlockEnd => .command [0x35]
  | .dubBlock ts => .command (0x36 :: leBytes 1 ts.length ++ leWords ts)
  | .dubDedup p => .command (0x37 :: leBytes 1 p.length ++ leWords p)
  | .dubIndexSel => .command [0x38]
  | .dubEncode w h f =>
    .command (0x39 :: leBytes (dimBytes cfg) w ++ leBytes (dimBytes cfg) h ++ leBytes (dimBytes cfg) f)
  | .adpcmCode0 => .adpcmNybble 0
  | .adpcmCode1 => .adpcmNybble 1
  | .adpcmCode2 => .adpcmNybble 2
  | .adpcmCode3 => .adpcmNybble 3
  | .adpcmCode4 => .adpcmNybble 4
  | .adpcmCode5 => .adpcmNybble 5
  | .adpcmCode6 => .adpcmNybble 6
  | .adpcmCode7 => .adpcmNybble 7
  | .adpcmCode8 => .adpcmNybble 8
  | .adpcmCode9 => .adpcmNybble 9
  | .adpcmCode10 => .adpcmNybble 10
  | .adpcmCode11 => .adpcmNybble 11
  | .adpcmCode12 => .adpcmNybble 12
  | .adpcmCode13 => .adpcmNybble 13
  | .adpcmCode14 => .adpcmNybble 14
  | .adpcmCode15 => .adpcmNybble 15
  | .codeTableWord a m => .codeTableWord (a ++ m)
  | .adpcmBodyByte h l => .adpcmBodyByte (h ++ l)
  | .adpcmHeaderBytes s i => .adpcmHeader [s.extractLsb' 0 8, s.extractLsb' 8 8, i]
  | .dubDeltaG1 neg m => .dubCode (false :: neg :: groupBits 1 m.toNat)
  | .dubDeltaG2 neg m => .dubCode (false :: neg :: groupBits 2 m.toNat)
  | .dubDeltaG3 neg m => .dubCode (false :: neg :: groupBits 3 m.toNat)
  | .dubDeltaG4 neg m => .dubCode (false :: neg :: groupBits 4 m.toNat)
  | .dubDeltaG5 neg m => .dubCode (false :: neg :: groupBits 5 m.toNat)
  | .dubDeltaG6 neg m => .dubCode (false :: neg :: groupBits 6 m.toNat)
  | .dubRefG1 v => .dubCode (true :: groupBits 1 v.toNat)
  | .dubRefG2 v => .dubCode (true :: groupBits 2 v.toNat)
  | .dubRepeatG1 v => .dubRepeat (groupBits 1 v.toNat)
  | .dubRepeatG2 v => .dubRepeat (groupBits 2 v.toNat)
  | .dubIndex8 h l => .dubIndexWord8 (h ++ l)
  | .dubIndex16 p => .dubIndexWord16 p

/-! ### The words of spec/opcode_table.json (log entry 5) -/

/-- The low `n` bits of `w`, most significant first: a table pattern read left to right. -/
def bitsMsbFirst : Nat → Nat → List Bool
  | 0, _ => []
  | n + 1, w => w.testBit n :: bitsMsbFirst n w

/-- A command whose first byte is given and whose operands are zeros, cut to its own length. -/
def zeroOperandCommand (cfg : Config.Params) (op : Byte) : List Byte :=
  let long := op :: List.replicate (3 * dimBytes cfg + 16) 0
  match decodeCommand cfg long with
  | .ok (_, rest) => long.take (long.length - rest.length)
  | .error _ => [op]

/-- The transaction a table word of `nbits` bits stands for. Eight bits are a command, or, with bit 7 set and bit 3
clear, the row `DUB.REPEAT.g2` (no command number has bit 7 set), or, from 2 to 15 (no command number either), an ADPCM
code whose four bits are counted as a whole byte. The other lengths are those of the object rows;
where two rows have the same length one of them is taken, because the table's words do not tell them apart. -/
def tablePacket (cfg : Config.Params) (nbits w : Nat) : Packet :=
  match nbits with
  | 4 => .adpcmNybble (BitVec.ofNat 4 w)
  | 5 => .dubCode (bitsMsbFirst 5 w)
  | 6 => .dubCode (bitsMsbFirst 6 w)
  | 9 => .dubCode (bitsMsbFirst 9 w)
  | 10 => .dubCode (bitsMsbFirst 10 w)
  | 14 => .dubCode (bitsMsbFirst 14 w)
  | 16 => .dubIndexWord16 (BitVec.ofNat 16 w)
  | 18 => .dubCode (bitsMsbFirst 18 w)
  | 22 => .dubCode (bitsMsbFirst 22 w)
  | 24 => .adpcmHeader (leBytes 3 w)
  | 26 => .dubCode (bitsMsbFirst 26 w)
  | 32 => .codeTableWord (BitVec.ofNat 32 w)
  | _ =>
    if w.testBit 7 && !w.testBit 3 then .dubRepeat (bitsMsbFirst 8 w)
    else if 2 ≤ w && w < 16 then .adpcmNybble (BitVec.ofNat 4 w)
    else .command (zeroOperandCommand cfg (BitVec.ofNat 8 w))

/-- The instruction this decoder reads from a word of spec/opcode_table.json, with the default parameters. -/
def decodeTableWord (nbits w : Nat) : Option Instr :=
  match decode Config.Params.default (tablePacket Config.Params.default nbits w) with
  | .ok i => some i
  | .error _ => none

end Sys2Proof
end

