-- ==== Sys2Proof/Machine/State.lean ====
section
/-! DEFINITION. The state of the encoder block (10_state.md): plain data, one structure for each unit of R20, the
host's side of the interface, the reasons a step can stop, and the state after reset (R33, R220). -/
namespace Sys2Proof.Machine

/-- The codec state of unit ADPCM (R21): `sample` is a signed 16-bit predictor, `index` is in 0..88. -/
structure Codec where
  sample : Sample
  index : Fin 89
  deriving DecidableEq, Repr

/-- Unit ADPCM: the codec state and the nybble-pack latch (R21, R23). -/
structure Adpcm where
  codec : Codec
  half : Bool
  lowCode : Nybble
  deriving DecidableEq, Repr

/-- The optimiser registers (R24), live only inside `ADPCM.OPTIC`; between operations any value (U12; log entry 12). -/
structure Optimiser where
  err : BitVec 64
  bestErr : BitVec 64
  icSample : Sample
  icIndex : Fin 89
  deriving DecidableEq, Repr

/-- A DUB code (R150). -/
structure Code where
  ty : CodeType
  value : Int
  deriving DecidableEq, Repr

/-- Unit BB and the per-block state of unit DUB (R25, R26). `acc` and `dict` are oldest first; the registers `count`
and `dictLen` are their lengths (log entry 15). -/
structure Block where
  acc : List Bool
  payload : List Word
  dict : List Tile
  prevCode : Code
  repeating : Bool
  repeatCount : Nat
  deriving DecidableEq, Repr

/-- The number of bits currently buffered (R25). -/
def Block.count (b : Block) : Nat := b.acc.length

/-- The number of tiles in the dictionary (R26). -/
def Block.dictLen (b : Block) : Nat := b.dict.length

/-- The state after `DUB.BLOCKBEGIN` (R155), which is also the reset value (R33). -/
def Block.fresh : Block :=
  { acc := [], payload := [], dict := [], prevCode := ⟨.invalid, 0⟩, repeating := false, repeatCount := 0 }

/-- The per-asset state of unit DUB (R27). `store` is in order of insertion; `blockCount` is the length of `offsets`
(log entry 15). -/
structure Asset where
  store : List (List Word × Nat)
  blockData : List Word
  offsets : List Nat
  isIndex16 : Bool
  indexSize : Nat
  packed : List Nat
  deriving DecidableEq, Repr

/-- The number of blocks that have passed `DUB.DEDUP`, one per entry of `offsets` (R27, R183). -/
def Asset.blockCount (a : Asset) : Nat := a.offsets.length

/-- The empty asset: the reset value (R33) and the first line of `DUB.ENCODE` (R188). -/
def Asset.empty : Asset :=
  { store := [], blockData := [], offsets := [], isIndex16 := false, indexSize := 0, packed := [] }

/-- The conditions (R200). `notFound` belongs to the dispatch shim and no operation writes it (R201). -/
inductive Condition where
  | ok
  | notFound
  | tooLarge
  | resourceExhausted
  deriving DecidableEq, Repr

/-- The value of the `STATUS` register (R200, R29). -/
def Condition.code : Condition → BitVec 2
  | .ok => 0
  | .notFound => 1
  | .tooLarge => 2
  | .resourceExhausted => 3

/-- The host-readable registers (R29). -/
structure Status where
  status : Condition
  statTiles : Nat
  statWords : BitVec 16
  statRatio : Option Rat
  isIndex16 : Bool
  indexSize : BitVec 16
  deriving DecidableEq, Repr

/-- The registers of R29 after reset (R33). -/
def Status.initial : Status :=
  { status := .ok, statTiles := 0, statWords := 0, statRatio := none, isIndex16 := false, indexSize := 0 }

/-- The value an operation returns (the column "operands -> results" of R86). The model's own field: log entry 11. -/
inductive Result where
  /-- The operation returns nothing. -/
  | none
  /-- A top-level or finer operation that raised a condition (R204). -/
  | condition (c : Condition)
  | status (regs : Status)
  | code (c : Nybble)
  | codeDelta (c : Nybble) (delta : Int)
  | byte (b : Byte)
  | err (e : Nat)
  | indexErr (index : Fin 89) (e : Nat)
  | icErr (sample0 : Sample) (index0 : Fin 89) (e : Nat)
  | ic (sample0 : Sample) (index0 : Fin 89)
  | out8 (bytes : List Byte)
  | words (ws : List Word)
  | count (n : Nat)
  | bits (n : Nat)
  | dubCode (c : Code)
  | payload (ws : List Word)
  | offset (o : Nat)
  | index (isIndex16 : Bool) (indexSize : Nat) (packed : List Nat)
  | out16 (ws : List Word)
  | fields (mult adj : Int)
  deriving DecidableEq, Repr

/-- Buffers the host presents with a transaction; `none` leaves the buffer as it stands (log entry 2). -/
structure Supply where
  in8 : Option (List Byte) := none
  tiles : Option (List Tile) := none
  out8 : Option (List Byte) := none
  out16 : Option (List Word) := none
  deriving DecidableEq, Repr

/-- One operation of a run (R247): the transaction and the buffers that come with it. -/
structure Issue where
  packet : Packet
  supply : Supply := {}
  deriving DecidableEq, Repr

/-- The machine state. -/
structure State where
  /-- R21, R23. -/
  adpcm : Adpcm
  /-- R24. -/
  opt : Optimiser
  /-- R25, R26. -/
  blk : Block
  /-- R27. -/
  asset : Asset
  /-- R29. -/
  stat : Status
  /-- R50: the ADPCM input bytes, byte 0 first. -/
  in8 : List Byte
  /-- R50: the DUB input tiles, tile 0 first. -/
  tiles : List Tile
  /-- R50: the ADPCM output bytes, byte 0 first. -/
  out8 : List Byte
  /-- R50: the DUB output words, word 0 first. -/
  out16 : List Word
  /-- R10: the parameters, arguments of the model that no operation writes (log entry 7). -/
  cfg : Config.Params
  /-- R203: the answers of the oracle `Exhaust` to the coming appends, the next first; past the end it answers
  false (log entry 8). -/
  exhaust : List Bool
  /-- R247: the operations the host has issued and the block has not begun, the next first (log entry 1). -/
  bus : List Issue
  /-- The value the last operation returned (log entry 11). -/
  result : Result
  deriving DecidableEq, Repr

/-- Why the machine stops with a fault. There is no such reason: an operation always ends (R247 "there is no hang,
no wait and no stuck state"), the conditions of R200 are next states (R204), and what the spec leaves without a
result it calls `refuse` (93_implementation_defined.md), which is a `Refusal`. Nobody raises one; safe. -/
inductive Fault where
  deriving DecidableEq, Repr

/-- Why an operation has no meaning: the `refuse` of 93_implementation_defined.md. Every constructor is safe: the model
stops where the spec gives the operation no result. -/
inductive Refusal where
  /-- No meaning written yet; raised by an arm of `exec` only. Safe. -/
  | notModelled (mnemonic : String)
  /-- A transaction that is no instruction (U1; log entry 21); raised by `step`. Safe. -/
  | badEncoding (reason : DecodeError)
  /-- U4: an `index0` above 88; raised by SETIC, EVAL, CLIMB and by the header object (R77). Safe. -/
  | indexOutOfRange
  /-- U4: a code above 15; raised by PUT. Safe. -/
  | codeOutOfRange
  /-- U13: PAIR or BODY with `half = 1`. Safe. -/
  | halfHeld
  /-- `L` is larger than the buffer `IN8` the host gave; raised by the operations that take `L` (log entry 3). Safe. -/
  | inputTooShort
  /-- R109 "Requires `L ≥ 2`" and R111 "Requires `L ≥ 4`"; raised by SCAN and OPTIC (log entry 14). Safe. -/
  | lengthBelowMinimum
  /-- U5: an append of more than 32 bits; raised by BB.APPEND and BB.APPENDVAR (log entry 16). Safe. -/
  | bitCountOutOfRange
  /-- U5: `chunk < 1`; raised by BB.APPENDVAR. Safe. -/
  | chunkZero
  /-- U5: a REF or REPEAT value below zero, which `BB.APPENDVAR` would get; raised by PACK and CODELEN. Safe. -/
  | negativeValue
  /-- U6: an append that takes `count` above `ACC_BITS`; raised by every operation that packs bits. Safe. -/
  | accumulatorFull
  /-- U2: a code of type INVALID; raised by PACK and CODELEN. Safe. -/
  | invalidCode
  /-- U7: the 65th tile of a block; raised by DUB.TILE. Safe. -/
  | dictionaryFull
  /-- U7: a block of 0 or of more than 64 tiles; raised by DUB.BLOCK. Safe. -/
  | tileCountOutOfRange
  /-- U3: `TILES` has not `width·height·frames` entries; raised by DUB.ENCODE. Safe. -/
  | tilesLengthMismatch
  /-- R180: a dimension that is not of `DIM_BITS` bits; raised by DUB.ENCODE (log entry 19). Safe. -/
  | dimensionTooWide
  /-- R77, R83: a reserved form, which the encoder never produces; raised by the object rows (log entry 25). Safe. -/
  | reservedForm
  deriving DecidableEq, Repr

/-- The state after reset (R33, R220). The buffers, the bus and the oracle are the host's and are empty; the
parameters have the defaults of R10; the optimiser registers, which R33 leaves unspecified, are zero (log entry 12). -/
def State.reset : State :=
  { adpcm := { codec := { sample := 0, index := 0 }, half := false, lowCode := 0 }
    opt := { err := 0, bestErr := 0, icSample := 0, icIndex := 0 }
    blk := Block.fresh
    asset := Asset.empty
    stat := Status.initial
    in8 := []
    tiles := []
    out8 := []
    out16 := []
    cfg := Config.Params.default
    exhaust := []
    bus := []
    result := .none }

end Sys2Proof.Machine
end

