-- ==== Sys2Proof/Machine/Tables.lean ====
section
/-! DEFINITION. The two constant tables (R30, R72, R73) and the two fields of a code-table word (R74). -/
namespace Sys2Proof.Machine

/-- `stepSizeTable` (R72), ten entries a row. -/
def stepSizeTable : List Nat :=
  [7, 8, 9, 10, 11, 12, 13, 14, 16, 17]
  ++ [19, 21, 23, 25, 28, 31, 34, 37, 41, 45]
  ++ [50, 55, 60, 66, 73, 80, 88, 97, 107, 118]
  ++ [130, 143, 157, 173, 190, 209, 230, 253, 279, 307]
  ++ [337, 371, 408, 449, 494, 544, 598, 658, 724, 796]
  ++ [876, 963, 1060, 1166, 1282, 1411, 1552, 1707, 1878, 2066]
  ++ [2272, 2499, 2749, 3024, 3327, 3660, 4026, 4428, 4871, 5358]
  ++ [5894, 6484, 7132, 7845, 8630, 9493, 10442, 11487, 12635, 13899]
  ++ [15289, 16818, 18500, 20350, 22385, 24623, 27086, 29794, 32767]

/-- `stepSizeTable[index]`. -/
def stepSize (index : Fin 89) : Nat := stepSizeTable.getD index.val 0

/-- `codeTable` (R73). -/
def codeTable : List (BitVec 32) :=
  [0xFFFFFF01, 0xFFFFFF03, 0xFFFFFF05, 0xFFFFFF07, 0x00000209, 0x0000040B, 0x0000060D, 0x0000080F]
  ++ [0xFFFFFFFF, 0xFFFFFFFD, 0xFFFFFFFB, 0xFFFFFFF9, 0x000002F7, 0x000004F5, 0x000006F3, 0x000008F1]

/-- `codeTable[c]`. -/
def codeWord (c : Nybble) : BitVec 32 := codeTable.getD c.toNat 0

/-- The multiplier of a code-table word: its low byte as a signed 8-bit value (R74). -/
def wordMult (w : BitVec 32) : Int := (w.extractLsb' 0 8).toInt

/-- The index adjustment of a code-table word: the whole word shifted right arithmetically by 8 (R74). -/
def wordAdj (w : BitVec 32) : Int := (w.sshiftRight 8).toInt

/-- `m(c)` of R73. -/
def mult (c : Nybble) : Int := wordMult (codeWord c)

/-- `adj(c)` of R73. -/
def adj (c : Nybble) : Int := wordAdj (codeWord c)

end Sys2Proof.Machine
end

