-- ==== Sys2Proof/Machine/Operands.lean ====
section
/-! DEFINITION. How the operations read their operands: the integer primitives of R11, the samples of `IN8` (R51, R57),
the tiles of `TILES` (R53, R181), the bytes of the outputs (R55, R56), the bits of a value, of a variable-length field and of a DUB code (R78 to R81,
R132, R133), the range checks, and the words and bytes made from bits (R54, R55). -/
namespace Sys2Proof.Machine

/-- `clamp` of R11. -/
def clamp (v lo hi : Int) : Int := if v < lo then lo else if hi < v then hi else v

/-! ### ADPCM operands -/

/-- The complete samples of a byte list, little-endian; a trailing odd byte is not read (R51, R57). -/
def samples : List Byte → List Sample
  | lo :: hi :: r => (hi ++ lo) :: samples r
  | _ => []

/-- The samples `S(0) .. S(N-1)` of the input of `len` bytes in `IN8` (R100). -/
def inputSamples (s : State) (len : BitVec 32) : List Sample := samples (s.in8.take len.toNat)

/-- The host gave at least `len` bytes (R223; log entry 3). -/
def inputPresent (s : State) (len : BitVec 32) : Bool := len.toNat ≤ s.in8.length

/-- An `index0` operand in 0..88, or the refusal of U4. -/
def indexOperand (b : BitVec 8) : Except Refusal (Fin 89) :=
  if h : b.toNat < 89 then .ok ⟨b.toNat, h⟩ else .error .indexOutOfRange

/-! ### Bits -/

/-- The low `n` bits of `v`, bit `n-1` first (R132). -/
def bitsOf : Nat → Nat → List Bool
  | 0, _ => []
  | n + 1, v => v.testBit n :: bitsOf n v

/-- The value of a bit list whose first bit is bit 0 (R134). -/
def bitsValue : List Bool → Nat
  | [] => 0
  | b :: bs => b.toNat + 2 * bitsValue bs

/-- The word of up to sixteen bits, the oldest bit being bit 0 and the missing ones zero (R54, R134, R135). -/
def wordOfBits (bits : List Bool) : Word := BitVec.ofNat 16 (bitsValue bits)

/-- The loop of R133 with at most `fuel` groups: a continuation flag, then `v mod 2^chunk`. -/
def varBitsLoop (chunk : Nat) : Nat → Nat → List Bool
  | 0, _ => []
  | fuel + 1, v =>
    let rest := v / 2 ^ chunk
    decide (0 < rest) :: (bitsOf chunk (v % 2 ^ chunk) ++ if rest = 0 then [] else varBitsLoop chunk fuel rest)

/-- The bits of a variable-length field (R78, R133). A value below 2^32 has at most 32 groups. -/
def varBits (chunk v : Nat) : List Bool := varBitsLoop chunk 32 v

/-- The bits of a code, oldest first (R151, R79 to R81); INVALID has none (R83). -/
def codeBits (c : Code) : List Bool :=
  match c.ty with
  | .delta => false :: decide (c.value < 0) :: varBits Config.varChunk c.value.natAbs
  | .ref => true :: varBits Config.varChunk c.value.natAbs
  | .rept => varBits Config.varChunk c.value.natAbs
  | .invalid => []

/-- Why a code cannot be packed: INVALID (U2), or a REF or REPEAT value below zero (U5). -/
def codeRefusal (c : Code) : Option Refusal :=
  match c.ty with
  | .delta => none
  | .ref => if c.value < 0 then some .negativeValue else none
  | .rept => if c.value < 0 then some .negativeValue else none
  | .invalid => some .invalidCode

/-- The number of binary digits of `v`, 0 for 0 (`bitlength` of R78). -/
def bitLength (v : Nat) : Nat := if v = 0 then 0 else v.log2 + 1

/-- `G(v)` of R78 for 3-bit groups: `max(1, ceil(bitlength(v) / 3))`. -/
def groupCount (v : Nat) : Nat := max 1 ((bitLength v + 2) / 3)

/-- The code of the operands `type, value` (R87, R150). -/
def codeOperand (ty : CodeType) (value : BitVec 32) : Code := ⟨ty, value.toInt⟩

/-! ### Tiles -/

/-- `TILES[f·width·height + y·width + x]` (R53). -/
def tileAt (tiles : List Tile) (width height f y x : Nat) : Tile :=
  tiles.getD (f * width * height + y * width + x) 0

/-- The coordinates `8·k .. min(8·k + 8, limit) - 1` of one block in one dimension (R181). -/
def blockSpan (k limit : Nat) : List Nat :=
  (List.range (min Config.blockSide (limit - Config.blockSide * k))).map (Config.blockSide * k + ·)

/-- The tiles of block `(f, by, bx)` in row-major order (R181). -/
def blockTiles (tiles : List Tile) (width height f blockY blockX : Nat) : List Tile :=
  (blockSpan blockY height).flatMap fun y =>
    (blockSpan blockX width).map fun x => tileAt tiles width height f y x

/-- The blocks of an asset in the order of their number `i = (f·bh + by)·bw + bx` (R181). -/
def assetBlocks (tiles : List Tile) (width height frames : Nat) : List (List Tile) :=
  let bw := ceil8 width
  let bh := ceil8 height
  (List.range (bw * bh * frames)).map fun i =>
    blockTiles tiles width height (i / bw / bh) (i / bw % bh) (i % bw)

/-- A dimension of `DIM_BITS` bits (R180). -/
def dimensionFits (s : State) (d : Nat) : Bool := d < 2 ^ s.cfg.dimBits

/-! ### The outputs read with another width (R56): a host's view, which no operation uses -/

/-- `MemRead` of R12: `n` bytes from byte address `addr` as a little-endian number; nothing beyond the end of the
buffer (log entry 26). -/
def memRead (bytes : List Byte) (addr n : Nat) : Option Nat :=
  match takeLe n (bytes.drop addr) with
  | .ok p => some p.1
  | .error _ => none

/-- `OUT16` as bytes (R55): word `a` is the byte `w[7:0]` at `2a` and the byte `w[15:8]` at `2a + 1`. -/
def State.out16Bytes (s : State) : List Byte := leWords s.out16

/-- `OUT16` read `n` bytes at a time (R55, R56). -/
def State.readOut16 (s : State) (addr n : Nat) : Option Nat := memRead s.out16Bytes addr n

/-- `OUT8` read `n` bytes at a time (R52, R56). -/
def State.readOut8 (s : State) (addr n : Nat) : Option Nat := memRead s.out8 addr n

/-! ### Object operands -/

/-- Whether a DELTA form is one the encoder produces (R79, R83): minimal, at most 65535, no minus zero. -/
def deltaFormProduced (groups : Nat) (neg : Bool) (mag : Nat) : Bool :=
  (groups == 1 || 8 ^ (groups - 1) ≤ mag) && mag ≤ 65535 && !(neg && mag == 0)

/-- Whether a REF or REPEAT form is one the encoder produces (R80, R81, R83): minimal and at most 62. A REF at or above the
number of tiles in the dictionary, also listed by R83, is not excluded here (log entry 27). -/
def countFormProduced (groups value : Nat) : Bool :=
  (groups == 1 || 8 ^ (groups - 1) ≤ value) && value ≤ 62

end Sys2Proof.Machine
end

