-- ==== Sys2Proof/Machine/Flags.lean ====
section
/-! DEFINITION. The one-bit state and the tests of R28 and R242: `half`, `sameCode`, `repeating`, `isIndex16`, and the
overflow test. There is no condition-code register (R28). -/
namespace Sys2Proof.Machine

/-- `half` after a `PUT` (R105): toggled. -/
def halfAfterPut (half : Bool) : Bool := !half

/-- `sameCode` (R156): the type and the value are equal, computed before `prevCode` is updated (R225). -/
def sameCode (code prev : Code) : Bool := code == prev

/-- `repeating` after a tile (R158): a run goes on or starts exactly when the code is the same as the one before. -/
def repeatingAfterTile (same : Bool) : Bool := same

/-- `repeatCount` after a tile (R158): counted in a run, zero when a run starts, else as it was. -/
def repeatCountAfterTile (repeating same : Bool) (repeatCount : Nat) : Nat :=
  if same then (if repeating then repeatCount + 1 else 0) else repeatCount

/-- `nextWord(i)` of R184. -/
def nextWord (wide : Bool) (i : Nat) : Nat := if wide then i + 1 else (i + 2) / 2

/-- `indexSize` of R184 for `blockCount` blocks. -/
def indexWords (wide : Bool) (blockCount : Nat) : Nat := if wide then blockCount else (blockCount + 1) / 2

/-- `packed[i], packed[i+1], ...` of R184; `nextWord(i)` is at most `indexSize`, so the subtraction is exact (C10). -/
def packedFrom (wide : Bool) (size : Nat) : Nat → List Nat → List Nat
  | _, [] => []
  | i, o :: os => (size + o - nextWord wide i) :: packedFrom wide size (i + 1) os

/-- The whole array `packed` of R184. -/
def packedIndex (wide : Bool) (offsets : List Nat) : List Nat :=
  packedFrom wide (indexWords wide offsets.length) 0 offsets

/-- `isIndex16` (R185): some packed value of the 8-bit form is 256 or more. -/
def needsIndex16 (offsets : List Nat) : Bool :=
  (packedIndex false offsets).any fun p => Config.index8Limit ≤ p

/-- The overflow test of R187. -/
def overflows (indexSize blockDataWords : Nat) : Bool := Config.wordLimit ≤ indexSize + blockDataWords

end Sys2Proof.Machine
end

