-- ==== Sys2Proof/Machine/Ops.lean ====
section
/-! DEFINITION. The shared operations: the outcomes of an operation, taking a condition (R204), the oracle `Exhaust`
(R203), the appends to the buffers (R12, R243) and the bit-buffer operations on a block (R132 to R135). -/
namespace Sys2Proof.Machine

/-- What a step answers. -/
abbrev Out := Host.Outcome State Fault Refusal

/-! ### Results -/

/-- The operation ends and returns `r` (R86, R247). -/
def State.returning (s : State) (r : Result) : State := { s with result := r }

/-- The operation ends with a next state that returns `r`. -/
def done (s : State) (r : Result) : Out := .next (s.returning r)

/-! ### Conditions (60_exceptions.md) -/

/-- Which operation is the top-level one when a condition is raised (R204). -/
inductive Scope where
  | finer
  | adpcmEncode
  | dubEncode
  deriving DecidableEq, Repr

/-- The per-block and per-asset state is released when `DUB.ENCODE` returns (R25, R63 "Memory is scoped to the encoding
call", R204; log entry 9). -/
def State.releaseDub (s : State) : State := { s with blk := Block.fresh, asset := Asset.empty }

/-- The scoped state an operation discards on a condition (R204): that of `DUB.ENCODE` is its dictionary, payload,
block data, offsets, store and accumulator; the others have nothing that outlives the step. -/
def State.discardScoped (scope : Scope) (s : State) : State :=
  match scope with
  | .finer => s
  | .adpcmEncode => s
  | .dubEncode => s.releaseDub

/-- Condition entry (R204), on the state `s` as it was BEFORE the operation, so that the staging area is gone and
every effect undone: the scoped state is discarded, `STATUS` gets the code, everything else stays, and the host sees
the condition as the value returned. There is no return from a condition (R204, R245). -/
def raiseCondition (scope : Scope) (c : Condition) (s : State) : State :=
  { s.discardScoped scope with stat := { s.stat with status := c }, result := .condition c }

/-- Asks the oracle for `n` appends (R203): whether it refused one, and the answers that are left. It is not asked
again after a refusal, because the operation ends there. -/
def askExhaust : Nat → List Bool → Bool × List Bool
  | 0, answers => (false, answers)
  | _ + 1, [] => (false, [])
  | n + 1, a :: answers => if a then (true, answers) else askExhaust n answers

/-- An operation whose effects are `after` and that makes `n` appends to growable lists (R203): when the oracle
refuses one of them the condition `RESOURCE_EXHAUSTED` is entered instead (R204). -/
def withAppends (scope : Scope) (n : Nat) (s : State) (after : State → State) : State :=
  match askExhaust n s.exhaust with
  | (true, answers) => raiseCondition scope .resourceExhausted { s with exhaust := answers }
  | (false, answers) => after { s with exhaust := answers }

/-- An operation that has no result for the reason `r`, after `n` appends. They come before it in the order of the
pseudocode (R59), so when the oracle refuses one of them the operation ends with the condition there (R203, decision
D22), and it has no step otherwise. -/
def stopAfterAppends (scope : Scope) (n : Nat) (r : Refusal) (s : State) : Out :=
  match askExhaust n s.exhaust with
  | (true, answers) => .next (raiseCondition scope .resourceExhausted { s with exhaust := answers })
  | (false, _) => .refused r

/-! ### Appends to the buffers -/

/-- `Append8` of several bytes to `OUT8` (R12). -/
def State.append8 (s : State) (bytes : List Byte) : State := { s with out8 := s.out8 ++ bytes }

/-- `Append16` of several words to `OUT16` (R12). -/
def State.append16 (s : State) (ws : List Word) : State := { s with out16 := s.out16 ++ ws }

/-! ### The bit buffer of a block -/

/-- Appends bits to the accumulator (R132); beyond `ACC_BITS` there is no result (R130, U6). -/
def Block.appendBits (cfg : Config.Params) (b : Block) (bits : List Bool) : Except Refusal Block :=
  if b.acc.length + bits.length ≤ cfg.accBits then .ok { b with acc := b.acc ++ bits }
  else .error .accumulatorFull

/-- The answers of the oracle that `n` bits appended to an accumulator, the scratch buffer or the block's, ask for: one
each where their growth may fail (R63), and none where R203's list is whole (log entry 28). -/
def bitAsks (cfg : Config.Params) (n : Nat) : Nat := if cfg.exhaustAccumulators then n else 0

/-- The answers that appending `bits` to the block's accumulator asks for: bit by bit, up to and with the first for which
there is no room (log entry 28). -/
def Block.appendAsks (cfg : Config.Params) (b : Block) (bits : List Bool) : Nat :=
  bitAsks cfg (min bits.length (cfg.accBits - b.acc.length + 1))

/-- Takes `n` whole words off the front of a bit queue (the loop of R134). -/
def takeWordsOfBits : Nat → List Bool → List Word
  | 0, _ => []
  | n + 1, bits => wordOfBits (bits.take 16) :: takeWordsOfBits n (bits.drop 16)

/-- The words a `BB.FLUSH` appends (R134). -/
def Block.flushWords (b : Block) : List Word := takeWordsOfBits (b.acc.length / 16) b.acc

/-- The bits a `BB.FLUSH` leaves (R134). -/
def Block.flushRest (b : Block) : List Bool := b.acc.drop (16 * (b.acc.length / 16))

/-- `BB.FLUSH` into the payload (R134). -/
def Block.flush (b : Block) : Block :=
  { b with acc := b.flushRest, payload := b.payload ++ b.flushWords }

/-- The words a `BB.FLUSHFINAL` appends: those of a flush, and the rest padded with zeros if any is left (R135). -/
def Block.flushFinalWords (b : Block) : List Word :=
  b.flushWords ++ if b.flushRest.length = 0 then [] else [wordOfBits b.flushRest]

/-- `BB.FLUSHFINAL` into the payload (R135). -/
def Block.flushFinal (b : Block) : Block :=
  { b with acc := [], payload := b.payload ++ b.flushFinalWords }

/-- The entries and words a block has more than it had: what was appended to its dictionary and its payload (R203; log
entry 8). -/
def Block.appendsSince (b before : Block) : Nat :=
  (b.dict.length - before.dict.length) + (b.payload.length - before.payload.length)

/-- What running a block's operations gives: the block, or the reason they have no result and the block as it stood
there, with the effects of the steps before (R59). -/
abbrev BlockRun := Except (Refusal × Block) Block

/-- The block as the run left it, whichever way it ended. -/
def BlockRun.reached (run : BlockRun) : Block :=
  match run with
  | .ok b => b
  | .error stop => stop.2

/-- To emit a code is to pack it and to flush whole words (R157). -/
def Block.emit (cfg : Config.Params) (b : Block) (c : Code) : Except Refusal Block :=
  match b.appendBits cfg (codeBits c) with
  | .ok b' => .ok b'.flush
  | .error r => .error r

/-! ### Outcomes of operations on a block -/

/-- Ends an operation that made `appends` appends on its way: with the block it left and the value read from it, or with
the condition of an append that the oracle refuses on the way, or, where the run has no result, without a step. -/
def endRun (appends : Nat) (run : Except Refusal Block) (r : Block → Result) (s : State) : Out :=
  match run with
  | .ok b => .next <| withAppends .finer appends s fun s => ({ s with blk := b } : State).returning (r b)
  | .error e => stopAfterAppends .finer appends e s

/-- Appends bits to the block's accumulator (R132, R130, R63). -/
def extendAccumulator (bits : List Bool) (s : State) : Out :=
  endRun (s.blk.appendAsks s.cfg bits) (s.blk.appendBits s.cfg bits) (fun _ => .none) s

/-! ### Outcomes of operations that may be refused -/

/-- Goes on with the value of a check, or refuses. -/
def orRefuse {α : Type} (x : Except Refusal α) (k : α → Out) : Out :=
  match x with
  | .ok a => k a
  | .error r => .refused r

/-- Goes on when the check holds, or refuses with `r`. -/
def require (ok : Bool) (r : Refusal) (k : Out) : Out := if ok then k else .refused r

end Sys2Proof.Machine
end

