-- ==== Sys2Proof/Machine/BitBuffer.lean ====
section
/-! DEFINITION. The bit-buffer operations (41_bitbuffer.md). Issued by the host they act on the block's accumulator,
and the target of a flush is the block's payload (R134). -/
namespace Sys2Proof.Machine

/-- `BB.RESET` (R131): bits still in the accumulator are lost. -/
def execBbReset (s : State) : Out := done { s with blk := { s.blk with acc := [] } } .none

/-- `BB.APPEND value, n` (R132, U5, U6). -/
def execBbAppend (value : BitVec 32) (n : BitVec 8) (s : State) : Out :=
  require (n.toNat ≤ 32) .bitCountOutOfRange <|
  extendAccumulator (bitsOf n.toNat value.toNat) s

/-- `BB.APPENDVAR value, chunk` (R133, U5, U6); it appends groups of `chunk` bits by `BB.APPEND`, so a chunk above 32
is refused as there (log entry 16). -/
def execBbAppendVar (value : BitVec 32) (chunk : BitVec 8) (s : State) : Out :=
  require (1 ≤ chunk.toNat) .chunkZero <|
  require (chunk.toNat ≤ 32) .bitCountOutOfRange <|
  extendAccumulator (varBits chunk.toNat value.toNat) s

/-- `BB.FLUSH -> words appended to the target` (R134). -/
def execBbFlush (s : State) : Out :=
  let ws := s.blk.flushWords
  .next <| withAppends .finer ws.length s fun s => ({ s with blk := s.blk.flush } : State).returning (.words ws)

/-- `BB.FLUSHFINAL -> words appended to the target` (R135). -/
def execBbFlushFinal (s : State) : Out :=
  let ws := s.blk.flushFinalWords
  .next <| withAppends .finer ws.length s fun s => ({ s with blk := s.blk.flushFinal } : State).returning (.words ws)

/-- `BB.GETCOUNT -> count` (R136). -/
def execBbGetCount (s : State) : Out := done s (.count s.blk.count)

end Sys2Proof.Machine
end

