-- ==== Sys2Proof/Machine/Adpcm.lean ====
section
/-! DEFINITION. The ADPCM-A operations (40_adpcm.md): the per-sample step, the packer, the initial-condition optimiser
and the top-level encode. -/
namespace Sys2Proof.Machine

/-! ### The per-sample step -/

/-- `CandDelta(c, step)` (R102): a 32-bit product, shifted right by 3, read as signed; the modes differ in how the
low byte is widened and in the shift (decision D3). -/
def candDelta (mode : Config.DeltaMode) (c : Nybble) (step : Nat) : Int :=
  let low : BitVec 8 := (codeWord c).extractLsb' 0 8
  match mode with
  | .signedAsr => ((low.signExtend 32 * BitVec.ofNat 32 step).sshiftRight 3).toInt
  | .sextLsr => ((low.signExtend 32 * BitVec.ofNat 32 step) >>> 3).toInt
  | .zextLsr => ((low.setWidth 32 * BitVec.ofNat 32 step) >>> 3).toInt

/-- A candidate of the quantizer (R103): its error `e`, its code and its delta. -/
structure Candidate where
  err : Int
  code : Nybble
  delta : Int
  deriving DecidableEq, Repr

/-- The candidate with code `c` (R103). -/
def candidate (mode : Config.DeltaMode) (step : Nat) (diff : Int) (c : Nybble) : Candidate :=
  let d := candDelta mode c step
  { err := max (d - diff) (diff - d), code := c, delta := d }

/-- `e <= bestErr` keeps the later candidate (R103). -/
def keepLater (best new : Candidate) : Candidate := if new.err ≤ best.err then new else best

/-- The codes 1 to 15, in the order of R103. -/
def laterCodes : List Nybble := [1, 2, 3, 4, 5, 6, 7, 8, 9, 10, 11, 12, 13, 14, 15]

/-- The quantizer (R103). The first candidate is always accepted, so the loop starts from code 0 (decision D10). -/
def quantize (mode : Config.DeltaMode) (k : Codec) (s : Sample) : Candidate :=
  let step := stepSize k.index
  let diff := s.toInt - k.sample.toInt
  laterCodes.foldl (fun best c => keepLater best (candidate mode step diff c)) (candidate mode step diff 0)

/-- Steps 4 and 5 of the per-sample step (R104): the clamped sum and the clamped index. -/
def Codec.advance (k : Codec) (delta adjust : Int) : Codec :=
  { sample := BitVec.ofInt 16 (clamp (k.sample.toInt + delta) (-32768) 32767)
    index := Fin.ofNat 89 (clamp ((k.index.val : Int) + adjust) 0 88).toNat }

/-- The state after a step that chose the code `c` (R104). -/
def Codec.afterCode (mode : Config.DeltaMode) (k : Codec) (c : Nybble) : Codec :=
  k.advance (candDelta mode c (stepSize k.index)) (adj c)

/-- The state after the per-sample step with input `s` (R104). -/
def Codec.afterStep (mode : Config.DeltaMode) (k : Codec) (s : Sample) : Codec :=
  k.afterCode mode (quantize mode k s).code

/-! ### The packer -/

/-- The state after `ADPCM.PUT c` (R105). -/
def Adpcm.put (a : Adpcm) (c : Nybble) : Adpcm :=
  { a with half := halfAfterPut a.half, lowCode := if a.half then a.lowCode else c }

/-- The bytes `ADPCM.PUT c` appends (R105): `lowCode + 16·c` for a second code, none for a first. -/
def Adpcm.putBytes (a : Adpcm) (c : Nybble) : List Byte := if a.half then [c ++ a.lowCode] else []

/-- One sample: the step and the put of its code (R106). -/
def Adpcm.stepPut (mode : Config.DeltaMode) (a : Adpcm) (s : Sample) : Adpcm × List Byte :=
  let c := (quantize mode a.codec s).code
  let a' : Adpcm := { a with codec := a.codec.afterCode mode c }
  (a'.put c, a'.putBytes c)

/-- `ADPCM.PAIR` (R106): two steps, the second from the state the first left. -/
def Adpcm.pair (mode : Config.DeltaMode) (a : Adpcm) (s0 s1 : Sample) : Adpcm × List Byte :=
  let (a1, b1) := a.stepPut mode s0
  let (a2, b2) := a1.stepPut mode s1
  (a2, b1 ++ b2)

/-- The loop of `ADPCM.BODY` (R107): pair after pair, an odd last sample paired with itself. -/
def Adpcm.body (mode : Config.DeltaMode) : Adpcm → List Sample → Adpcm × List Byte
  | a, [] => (a, [])
  | a, [s] => a.pair mode s s
  | a, s0 :: s1 :: r =>
    let (a1, b1) := a.pair mode s0 s1
    let (a2, b2) := Adpcm.body mode a1 r
    (a2, b1 ++ b2)

/-- The three bytes of `ADPCM.HEADER` (R113, R75). -/
def Codec.headerBytes (k : Codec) : List Byte :=
  [k.sample.extractLsb' 0 8, k.sample.extractLsb' 8 8, BitVec.ofNat 8 k.index.val]

/-- `ADPCM.SETIC` (R101). -/
def Adpcm.setIc (a : Adpcm) (sample0 : Sample) (index0 : Fin 89) : Adpcm :=
  { a with codec := ⟨sample0, index0⟩, half := false }

/-! ### The optimiser -/

/-- The term `(predictor_after − input)^2` of R108, in exact integers (decision D9). -/
def squareError (k : Codec) (s : Sample) : Nat := (k.sample.toInt - s.toInt).natAbs ^ 2

/-- One candidate pass over a prefix (R108), from a copy of the codec state. -/
def evalPass (cfg : Config.Params) : Codec → List Sample → Nat
  | _, [] => 0
  | k, [s] =>
    let k1 := k.afterStep cfg.deltaMode s
    let k2 := k1.afterStep cfg.deltaMode s
    squareError k1 s + if cfg.evalCountsPad then squareError k2 s else 0
  | k, s0 :: s1 :: r =>
    let k1 := k.afterStep cfg.deltaMode s0
    let k2 := k1.afterStep cfg.deltaMode s1
    squareError k1 s0 + squareError k2 s1 + evalPass cfg k2 r

/-- The prefix the optimiser looks at (R108): at most 100 samples. -/
def prefixOf (all : List Sample) : List Sample := all.take Config.icPrefixSamples

/-- The optimiser registers of R24 as exact values: the error of the last pass, the lowest error accepted, and the
initial condition that has it. -/
structure Search where
  err : Nat
  bestErr : Nat
  ic : Codec
  deriving DecidableEq, Repr

/-- The indices 1 to 88, in the order of R109. -/
def laterIndices : List (Fin 89) := (List.finRange 89).tail

/-- One trip of the scan: a strictly lower error is kept, so that the earliest wins ties (R109). -/
def scanTrip (cfg : Config.Params) (pre : List Sample) (seed : Sample) (b : Search) (i : Fin 89) : Search :=
  let e := evalPass cfg ⟨seed, i⟩ pre
  if e < b.bestErr then ⟨e, e, ⟨seed, i⟩⟩ else { b with err := e }

/-- The scan (R109). Index 0 is always accepted against `+infinity`, so the loop starts from it. -/
def scan (cfg : Config.Params) (pre : List Sample) (seed : Sample) : Search :=
  let e := evalPass cfg ⟨seed, 0⟩ pre
  laterIndices.foldl (scanTrip cfg pre seed) ⟨e, e, ⟨seed, 0⟩⟩

/-- The four moves of R110 from a point, in order, without those the rule skips. -/
def climbMoves (k : Codec) : List Codec :=
  (if k.sample.toInt < 32767 then [{ k with sample := k.sample + 1 }] else [])
  ++ (if -32768 < k.sample.toInt then [{ k with sample := k.sample - 1 }] else [])
  ++ (if h : k.index.val < 88 then [{ k with index := ⟨k.index.val + 1, by omega⟩ }] else [])
  ++ (if 0 < k.index.val then [{ k with index := ⟨k.index.val - 1, by omega⟩ }] else [])

/-- Tries moves until one has a strictly lower error (R110); the flag says whether one had. -/
def tryMoves (cfg : Config.Params) (pre : List Sample) : Search → List Codec → Search × Bool
  | b, [] => (b, false)
  | b, k :: ks =>
    let e := evalPass cfg k pre
    if e < b.bestErr then (⟨e, e, k⟩, true) else tryMoves cfg pre { b with err := e } ks

/-- The hill climb (R110). Each round that goes on lowers `bestErr`, so `bestErr + 1` rounds are enough (R241). -/
def climbRounds (cfg : Config.Params) (pre : List Sample) : Nat → Search → Search
  | 0, b => b
  | fuel + 1, b =>
    match tryMoves cfg pre b (climbMoves b.ic) with
    | (b', true) => climbRounds cfg pre fuel b'
    | (b', false) => b'

/-- `ADPCM.CLIMB` from a point and its error (R110). -/
def climb (cfg : Config.Params) (pre : List Sample) (b : Search) : Search :=
  climbRounds cfg pre (b.bestErr + 1) b

/-- `ADPCM.OPTIC` (R111). -/
def optimise (cfg : Config.Params) (pre : List Sample) : Search :=
  climb cfg pre (scan cfg pre (pre.headD 0))

/-- The optimiser registers after a search (R24). -/
def Search.registers (b : Search) : Optimiser :=
  { err := BitVec.ofNat 64 b.err, bestErr := BitVec.ofNat 64 b.bestErr, icSample := b.ic.sample, icIndex := b.ic.index }

/-! ### The meanings -/

/-- `ADPCM.SETIC sample0, index0` (R101, U4). -/
def execAdpcmSetic (sample0 : Sample) (index0 : BitVec 8) (s : State) : Out :=
  orRefuse (indexOperand index0) fun i => done { s with adpcm := s.adpcm.setIc sample0 i } .none

/-- `ADPCM.QUANT s -> code, delta` (R103): writes nothing. -/
def execAdpcmQuant (x : Sample) (s : State) : Out :=
  let q := quantize s.cfg.deltaMode s.adpcm.codec x
  done s (.codeDelta q.code q.delta)

/-- `ADPCM.STEP s -> code` (R104). -/
def execAdpcmStep (x : Sample) (s : State) : Out :=
  done { s with adpcm := { s.adpcm with codec := s.adpcm.codec.afterStep s.cfg.deltaMode x } }
    (.code (quantize s.cfg.deltaMode s.adpcm.codec x).code)

/-- `ADPCM.PUT code` (R105, U4). -/
def execAdpcmPut (code : BitVec 8) (s : State) : Out :=
  require (code.toNat ≤ 15) .codeOutOfRange <|
    let c : Nybble := code.setWidth 4
    let bytes := s.adpcm.putBytes c
    .next <| withAppends .finer bytes.length s fun s =>
      (({ s with adpcm := s.adpcm.put c } : State).append8 bytes).returning .none

/-- `ADPCM.PAIR s0, s1 -> byte` (R106, U13). -/
def execAdpcmPair (x0 x1 : Sample) (s : State) : Out :=
  require (!s.adpcm.half) .halfHeld <|
    let p := s.adpcm.pair s.cfg.deltaMode x0 x1
    .next <| withAppends .finer p.2.length s fun s =>
      (({ s with adpcm := p.1 } : State).append8 p.2).returning (.byte (p.2.headD 0))

/-- `ADPCM.BODY IN8, L` (R107, U13). -/
def execAdpcmBody (len : BitVec 32) (s : State) : Out :=
  require (!s.adpcm.half) .halfHeld <|
  require (inputPresent s len) .inputTooShort <|
    let p := s.adpcm.body s.cfg.deltaMode (inputSamples s len)
    .next <| withAppends .finer p.2.length s fun s =>
      (({ s with adpcm := p.1 } : State).append8 p.2).returning .none

/-- `ADPCM.EVAL sample0, index0, IN8, L -> err` (R108): leaves the codec state, `half` and the output unchanged. -/
def execAdpcmEval (sample0 : Sample) (index0 : BitVec 8) (len : BitVec 32) (s : State) : Out :=
  orRefuse (indexOperand index0) fun i =>
  require (inputPresent s len) .inputTooShort <|
    done s (.err (evalPass s.cfg ⟨sample0, i⟩ (prefixOf (inputSamples s len))))

/-- `ADPCM.SCAN IN8, L -> index, err` (R109). -/
def execAdpcmScan (len : BitVec 32) (s : State) : Out :=
  require (2 ≤ len.toNat) .lengthBelowMinimum <|
  require (inputPresent s len) .inputTooShort <|
    let pre := prefixOf (inputSamples s len)
    let b := scan s.cfg pre (pre.headD 0)
    done s (.indexErr b.ic.index b.bestErr)

/-- `ADPCM.CLIMB sample0, index0, err, IN8, L -> sample0, index0, err` (R110). -/
def execAdpcmClimb (sample0 : Sample) (index0 : BitVec 8) (err : BitVec 64) (len : BitVec 32) (s : State) : Out :=
  orRefuse (indexOperand index0) fun i =>
  require (inputPresent s len) .inputTooShort <|
    let b := climb s.cfg (prefixOf (inputSamples s len)) ⟨err.toNat, err.toNat, ⟨sample0, i⟩⟩
    done s (.icErr b.ic.sample b.ic.index b.bestErr)

/-- `ADPCM.OPTIC IN8, L -> sample0, index0` (R111): writes only the optimiser registers. -/
def execAdpcmOptic (len : BitVec 32) (s : State) : Out :=
  require (4 ≤ len.toNat) .lengthBelowMinimum <|
  require (inputPresent s len) .inputTooShort <|
    let b := optimise s.cfg (prefixOf (inputSamples s len))
    done { s with opt := b.registers } (.ic b.ic.sample b.ic.index)

/-- The initial condition and the optimiser registers of `ADPCM.ENCODE` (R112): short inputs skip the optimiser. -/
def encodeIc (cfg : Config.Params) (opt : Optimiser) (len : BitVec 32) (all : List Sample) : Codec × Optimiser :=
  if len.toNat < Config.shortInputBytes then (⟨0, 0⟩, opt)
  else
    let b := optimise cfg (prefixOf all)
    (b.ic, b.registers)

/-- `ADPCM.HEADER` (R113). -/
def execAdpcmHeader (s : State) : Out :=
  let bytes := s.adpcm.codec.headerBytes
  .next <| withAppends .finer bytes.length s fun s => (s.append8 bytes).returning .none

/-- `ADPCM.ENCODE IN8, L -> OUT8` (R112): SETIC, HEADER and BODY into a staging list, which is committed to `OUT8` at
the end (R61). -/
def execAdpcmEncode (len : BitVec 32) (s : State) : Out :=
  require (inputPresent s len) .inputTooShort <|
    let all := inputSamples s len
    let ic := encodeIc s.cfg s.opt len all
    let start := s.adpcm.setIc ic.1.sample ic.1.index
    let body := start.body s.cfg.deltaMode all
    let staged := start.codec.headerBytes ++ body.2
    .next <| withAppends .adpcmEncode staged.length s fun s =>
      (({ s with adpcm := body.1, opt := ic.2, stat := { s.stat with status := .ok } } : State).append8
        staged).returning (.out8 staged)

end Sys2Proof.Machine
end

