-- ==== Sys2Proof/Machine/DubBlock.lean ====
section
/-! DEFINITION. The DUB per-block operations (42_dub_block.md). -/
namespace Sys2Proof.Machine

/-- `DUB.CODELEN` as the pure function of R152: the bits of the code in an empty scratch buffer (log entry 17). -/
def codeLen (c : Code) : Nat := (codeBits c).length

/-- The distance of the first match, the dictionary given most recent first (R153). -/
def matchDistance (tile : Tile) : List Tile → Option Nat
  | [] => none
  | d :: ds => if d = tile then some 0 else (matchDistance tile ds).map (· + 1)

/-- `DUB.CHOOSE` (R153) on a dictionary, oldest first. -/
def choose (dict : List Tile) (tile : Tile) : Code :=
  match dict.reverse with
  | [] => ⟨.delta, tile.toNat⟩
  | last :: earlier =>
    let best : Code := ⟨.delta, (tile.toNat : Int) - last.toNat⟩
    match matchDistance tile (last :: earlier) with
    | none => best
    | some i =>
      let ref : Code := ⟨.ref, i⟩
      if codeLen ref ≤ codeLen best then ref else best

/-- The bits that `DUB.CHOOSE` puts into its scratch buffers (R153, R152): those of the DELTA, measured when there is a
last tile, and those of the REF, measured at the first match. -/
def chooseBits (dict : List Tile) (tile : Tile) : Nat :=
  match dict.reverse with
  | [] => 0
  | last :: earlier =>
    codeLen ⟨.delta, (tile.toNat : Int) - last.toNat⟩ +
      match matchDistance tile (last :: earlier) with
      | none => 0
      | some i => codeLen ⟨.ref, i⟩

/-- What `DUB.TILE` emits for a code, in order (R158): the four cases. -/
def tileEmits (cfg : Config.Params) (b : Block) (code : Code) : List Code :=
  let same := sameCode code b.prevCode
  match b.repeating, same with
  | true, true => []
  | true, false => [⟨.rept, b.repeatCount⟩, code]
  | false, true => if cfg.dubRunStartEmit then [code] else []
  | false, false => [code]

/-- Emits codes one after the other (R157). -/
def Block.emitAll (cfg : Config.Params) : Block → List Code → BlockRun
  | b, [] => .ok b
  | b, c :: cs =>
    match b.emit cfg c with
    | .ok b' => Block.emitAll cfg b' cs
    | .error r => .error (r, b)

/-- `DUB.TILE` (R158) without the bound on the dictionary: the code is chosen and compared before `prevCode` and the
dictionary are written (R224, R225). -/
def Block.addTile (cfg : Config.Params) (b : Block) (tile : Tile) : BlockRun :=
  let code := choose b.dict tile
  let same := sameCode code b.prevCode
  match b.emitAll cfg (tileEmits cfg b code) with
  | .ok b' =>
    .ok { b' with
      prevCode := code
      repeating := repeatingAfterTile same
      repeatCount := repeatCountAfterTile b.repeating same b.repeatCount
      dict := b.dict ++ [tile] }
  | .error stop => .error stop

/-- `DUB.TILE` (R158, U7). -/
def Block.tile (cfg : Config.Params) (b : Block) (tile : Tile) : BlockRun :=
  if b.dictLen < Config.dictMax then b.addTile cfg tile else .error (.dictionaryFull, b)

/-- `DUB.BLOCKEND` (R160): the open run's REPEAT, then the terminal flush, which is unconditional (decision D13). -/
def Block.finish (cfg : Config.Params) (b : Block) : BlockRun :=
  match b.emitAll cfg (if b.repeating then [⟨.rept, b.repeatCount⟩] else []) with
  | .ok b' => .ok ({ b' with repeating := false } : Block).flushFinal
  | .error stop => .error stop

/-- The tiles of a block, one after the other (R161). -/
def Block.addTiles (cfg : Config.Params) : Block → List Tile → BlockRun
  | b, [] => .ok b
  | b, t :: ts =>
    match b.tile cfg t with
    | .ok b' => Block.addTiles cfg b' ts
    | .error stop => .error stop

/-- `DUB.BLOCK` (R161): from a fresh block, every tile, then the end. -/
def runBlock (cfg : Config.Params) (tiles : List Tile) : BlockRun :=
  match Block.fresh.addTiles cfg tiles with
  | .ok b => b.finish cfg
  | .error stop => .error stop

/-! ### The answers of the oracle that a run asks for its accumulators (R63; log entry 28) -/

/-- Those of emitting codes: for the bits of each, up to the one that has no room. -/
def Block.emitAsks (cfg : Config.Params) : Block → List Code → Nat
  | _, [] => 0
  | b, c :: cs =>
    b.appendAsks cfg (codeBits c) +
      match b.emit cfg c with
      | .ok b' => Block.emitAsks cfg b' cs
      | .error _ => 0

/-- Those of `DUB.TILE`: the measured bits, then the emitted ones; none where there is no room for the tile (U7). -/
def Block.tileAsks (cfg : Config.Params) (b : Block) (tile : Tile) : Nat :=
  if b.dictLen < Config.dictMax then
    bitAsks cfg (chooseBits b.dict tile) + b.emitAsks cfg (tileEmits cfg b (choose b.dict tile))
  else 0

/-- Those of `DUB.BLOCKEND`. -/
def Block.finishAsks (cfg : Config.Params) (b : Block) : Nat :=
  b.emitAsks cfg (if b.repeating then [⟨.rept, b.repeatCount⟩] else [])

/-- Those of the tiles of a block. -/
def Block.addTilesAsks (cfg : Config.Params) : Block → List Tile → Nat
  | _, [] => 0
  | b, t :: ts =>
    b.tileAsks cfg t +
      match b.tile cfg t with
      | .ok b' => Block.addTilesAsks cfg b' ts
      | .error _ => 0

/-- Those of `DUB.BLOCK`. -/
def runBlockAsks (cfg : Config.Params) (tiles : List Tile) : Nat :=
  Block.fresh.addTilesAsks cfg tiles +
    match Block.fresh.addTiles cfg tiles with
    | .ok b => b.finishAsks cfg
    | .error _ => 0

/-! ### The meanings -/

/-- Packs a code into the accumulator (R151, U2, U5, U6). -/
def packCode (c : Code) (s : State) : Out :=
  match codeRefusal c with
  | some r => .refused r
  | none => extendAccumulator (codeBits c) s

/-- `DUB.PACK type, value` (R151). -/
def execDubPack (ty : CodeType) (value : BitVec 32) (s : State) : Out := packCode (codeOperand ty value) s

/-- Returns a value that was measured by putting `bits` bits into scratch buffers (R152, R63). -/
def measured (bits : Nat) (r : Result) (s : State) : Out :=
  .next <| withAppends .finer (bitAsks s.cfg bits) s (·.returning r)

/-- `DUB.CODELEN type, value -> bits` (R152, R226). -/
def execDubCodeLen (ty : CodeType) (value : BitVec 32) (s : State) : Out :=
  match codeRefusal (codeOperand ty value) with
  | some r => .refused r
  | none => measured (codeLen (codeOperand ty value)) (.bits (codeLen (codeOperand ty value))) s

/-- `DUB.CHOOSE tile -> type, value` (R153): writes nothing. -/
def execDubChoose (tile : Tile) (s : State) : Out :=
  measured (chooseBits s.blk.dict tile) (.dubCode (choose s.blk.dict tile)) s

/-- `DUB.BLOCKBEGIN` (R155). -/
def execDubBlockBegin (s : State) : Out := done { s with blk := Block.fresh } .none

/-- Ends an operation that ran on the block `before`: its appends are what the dictionary and the payload have grown by,
and the `asks` for its accumulators. -/
def endBlock (before : Block) (run : BlockRun) (asks : Nat) (r : Block → Result) (s : State) : Out :=
  endRun (run.reached.appendsSince before + asks) (run.mapError (·.1)) r s

/-- `DUB.TILE tile` (R158). -/
def execDubTile (tile : Tile) (s : State) : Out :=
  endBlock s.blk (s.blk.tile s.cfg tile) (s.blk.tileAsks s.cfg tile) (fun _ => .none) s

/-- `DUB.BLOCKEND -> payload` (R160). -/
def execDubBlockEnd (s : State) : Out :=
  endBlock s.blk (s.blk.finish s.cfg) (s.blk.finishAsks s.cfg) (fun b => .payload b.payload) s

/-- `DUB.BLOCK t_0, ..., t_{n-1} -> payload` (R161, U7). -/
def execDubBlock (tiles : List Tile) (s : State) : Out :=
  require (1 ≤ tiles.length && tiles.length ≤ 64) .tileCountOutOfRange <|
  endBlock Block.fresh (runBlock s.cfg tiles) (runBlockAsks s.cfg tiles) (fun b => .payload b.payload) s

end Sys2Proof.Machine
end

