-- ==== Sys2Proof/Machine/DubAsset.lean ====
section
/-! DEFINITION. The DUB asset operations (43_dub_asset.md). -/
namespace Sys2Proof.Machine

/-- The stored offset of a payload (R182): the entry whose key equals it. -/
def storeLookup (payload : List Word) : List (List Word × Nat) → Option Nat
  | [] => none
  | (key, offset) :: rest => if key = payload then some offset else storeLookup payload rest

/-- The offset `DUB.DEDUP` returns (R182). -/
def Asset.offsetOf (a : Asset) (payload : List Word) : Nat :=
  (storeLookup payload a.store).getD a.blockData.length

/-- The asset after `DUB.DEDUP` (R182). -/
def Asset.dedup (a : Asset) (payload : List Word) : Asset :=
  match storeLookup payload a.store with
  | some offset => { a with offsets := a.offsets ++ [offset] }
  | none =>
    { a with
      blockData := a.blockData ++ payload
      store := a.store ++ [(payload, a.blockData.length)]
      offsets := a.offsets ++ [a.blockData.length] }

/-- The appends of `DUB.DEDUP` to growable lists (R203; log entry 8): the index entry, and for a new payload its words
and its store entry. -/
def Asset.dedupAppends (a : Asset) (payload : List Word) : Nat :=
  match storeLookup payload a.store with
  | some _ => 1
  | none => payload.length + 2

/-- `DUB.INDEXSEL` (R185). -/
def Asset.selectIndex (a : Asset) : Asset :=
  let wide := needsIndex16 a.offsets
  { a with isIndex16 := wide, indexSize := indexWords wide a.blockCount, packed := packedIndex wide a.offsets }

/-- Bytes regrouped two a word, little-endian, an odd last one padded with a zero (R55, R186). -/
def wordsOfBytes : List (BitVec 8) → List Word
  | [] => []
  | [low] => [(0 : BitVec 8) ++ low]
  | low :: high :: r => (high ++ low) :: wordsOfBytes r

/-- The index region (R186). -/
def Asset.indexRegion (a : Asset) : List Word :=
  if a.isIndex16 then a.packed.map (BitVec.ofNat 16) else wordsOfBytes (a.packed.map (BitVec.ofNat 8))

/-- The loop of `DUB.ENCODE` (R188): every block through `DUB.BLOCK` and `DUB.DEDUP`, counting the appends, also those
before a block that has no result. -/
def encodeBlocks (cfg : Config.Params) : List (List Tile) → Asset → Nat → Except (Refusal × Nat) (Asset × Nat)
  | [], a, n => .ok (a, n)
  | ts :: rest, a, n =>
    match runBlock cfg ts with
    | .ok b =>
      encodeBlocks cfg rest (a.dedup b.payload)
        (n + (b.appendsSince Block.fresh + runBlockAsks cfg ts) + a.dedupAppends b.payload)
    | .error stop => .error (stop.1, n + (stop.2.appendsSince Block.fresh + runBlockAsks cfg ts))

/-- `STAT_RATIO` (R189): `100 − compressedWords · 100 / tileCount`, exact, absent for no tiles (decision D18). -/
def statRatio (tileCount compressedWords : Nat) : Option Rat :=
  if tileCount = 0 then none else some (mkRat (100 * (tileCount : Int) - 100 * (compressedWords : Int)) tileCount)

/-- The registers of R29 after a successful `DUB.ENCODE` (R188, R189). -/
def reportRegisters (a : Asset) (tileCount : Nat) : Status :=
  let total := a.indexSize + a.blockData.length
  { status := .ok
    statTiles := tileCount
    statWords := BitVec.ofNat 16 total
    statRatio := statRatio tileCount total
    isIndex16 := a.isIndex16
    indexSize := BitVec.ofNat 16 a.indexSize }

/-! ### The meanings -/

/-- `DUB.DEDUP payload -> offset` (R182), for a payload of any length (log entry 29). -/
def execDubDedup (payload : List Word) (s : State) : Out :=
  .next <| withAppends .finer (s.asset.dedupAppends payload) s fun t =>
    ({ t with asset := s.asset.dedup payload } : State).returning (.offset (s.asset.offsetOf payload))

/-- `DUB.INDEXSEL -> isIndex16, indexSize, packed` (R185). -/
def execDubIndexSel (s : State) : Out :=
  let a := s.asset.selectIndex
  done { s with asset := a } (.index a.isIndex16 a.indexSize a.packed)

/-- The end of `DUB.ENCODE` (R187, R188): the overflow test, then the staged index region and block data are committed
to `OUT16` and the registers of R29 written. The per-block and per-asset state is released (log entry 9). -/
def commitAsset (a : Asset) (tileCount : Nat) (s : State) : State :=
  if overflows a.indexSize a.blockData.length then raiseCondition .dubEncode .tooLarge s
  else
    let staged := a.indexRegion ++ a.blockData
    withAppends .dubEncode staged.length s fun s =>
      (({ s with stat := reportRegisters a tileCount } : State).releaseDub.append16 staged).returning (.out16 staged)

/-- `DUB.ENCODE width, height, frames, TILES -> OUT16` (R188, R180, U3). -/
def execDubEncode (width height frames : Nat) (s : State) : Out :=
  require (dimensionFits s width && dimensionFits s height && dimensionFits s frames) .dimensionTooWide <|
  require (s.tiles.length == width * height * frames) .tilesLengthMismatch <|
  match encodeBlocks s.cfg (assetBlocks s.tiles width height frames) Asset.empty 0 with
  | .ok (a, n) => .next <| withAppends .dubEncode n s fun s => commitAsset a.selectIndex (width * height * frames) s
  | .error stop => stopAfterAppends .dubEncode stop.2 stop.1 s

end Sys2Proof.Machine
end

