-- ==== Sys2Proof/Machine/Objects.lean ====
section
/-! DEFINITION. The encoded objects of R70 as operations (log entries 4 and 6): the meaning of an object row is the effect
the spec gives to the encoder's emission of that object. -/
namespace Sys2Proof.Machine

/-! ### The sixteen ADPCM codes (R71, R73): steps 4 to 6 of the per-sample step for that code (R104) -/

/-- The per-sample step once the code is chosen (R104): the predictor moves by `CandDelta(c, step)`, the index by
`adj(c)`, both clamped, and the code is returned. -/
def emitCode (c : Nybble) (s : State) : Out :=
  done { s with adpcm := { s.adpcm with codec := s.adpcm.codec.afterCode s.cfg.deltaMode c } } (.code c)

/-- `ADPCM.CODE0` (R104 with code 0 of R73). -/
def execAdpcmCode0 (s : State) : Out := emitCode 0 s

/-- `ADPCM.CODE1` (R104 with code 1 of R73). -/
def execAdpcmCode1 (s : State) : Out := emitCode 1 s

/-- `ADPCM.CODE2` (R104 with code 2 of R73). -/
def execAdpcmCode2 (s : State) : Out := emitCode 2 s

/-- `ADPCM.CODE3` (R104 with code 3 of R73). -/
def execAdpcmCode3 (s : State) : Out := emitCode 3 s

/-- `ADPCM.CODE4` (R104 with code 4 of R73). -/
def execAdpcmCode4 (s : State) : Out := emitCode 4 s

/-- `ADPCM.CODE5` (R104 with code 5 of R73). -/
def execAdpcmCode5 (s : State) : Out := emitCode 5 s

/-- `ADPCM.CODE6` (R104 with code 6 of R73). -/
def execAdpcmCode6 (s : State) : Out := emitCode 6 s

/-- `ADPCM.CODE7` (R104 with code 7 of R73). -/
def execAdpcmCode7 (s : State) : Out := emitCode 7 s

/-- `ADPCM.CODE8` (R104 with code 8 of R73). -/
def execAdpcmCode8 (s : State) : Out := emitCode 8 s

/-- `ADPCM.CODE9` (R104 with code 9 of R73). -/
def execAdpcmCode9 (s : State) : Out := emitCode 9 s

/-- `ADPCM.CODE10` (R104 with code 10 of R73). -/
def execAdpcmCode10 (s : State) : Out := emitCode 10 s

/-- `ADPCM.CODE11` (R104 with code 11 of R73). -/
def execAdpcmCode11 (s : State) : Out := emitCode 11 s

/-- `ADPCM.CODE12` (R104 with code 12 of R73). -/
def execAdpcmCode12 (s : State) : Out := emitCode 12 s

/-- `ADPCM.CODE13` (R104 with code 13 of R73). -/
def execAdpcmCode13 (s : State) : Out := emitCode 13 s

/-- `ADPCM.CODE14` (R104 with code 14 of R73). -/
def execAdpcmCode14 (s : State) : Out := emitCode 14 s

/-- `ADPCM.CODE15` (R104 with code 15 of R73). -/
def execAdpcmCode15 (s : State) : Out := emitCode 15 s

/-! ### The other ADPCM objects -/

/-- `CODETABLE.WORD` (R74): the two fields of the word, read out. -/
def execCodeTableWord (adjBits : BitVec 24) (multBits : BitVec 8) (s : State) : Out :=
  let w : BitVec 32 := adjBits ++ multBits
  done s (.fields (wordMult w) (wordAdj w))

/-- `ADPCM.BODYBYTE` (R76): the byte `first + 16·second` is appended to `OUT8`, the byte that the `PUT`s of the two codes
append. The latch is neither read nor written, also while a code is held, which is the model's choice (log entry 30). -/
def execAdpcmBodyByte (second first : Nybble) (s : State) : Out :=
  .next <| withAppends .finer 1 s fun s => (s.append8 [second ++ first]).returning .none

/-- `ADPCM.HEADERBYTES` (R75): the three bytes are appended to `OUT8`, as `ADPCM.HEADER` does for the state, and nothing
else is written (log entry 30); an index above 88 is refused (R77; log entry 25). -/
def execAdpcmHeaderBytes (sample0 : Sample) (index0 : BitVec 8) (s : State) : Out :=
  orRefuse (indexOperand index0) fun i =>
    .next <| withAppends .finer 3 s fun s => (s.append8 (Codec.headerBytes ⟨sample0, i⟩)).returning .none

/-! ### The DUB code forms (R79 to R81): the bits of the form are appended to the accumulator, as `DUB.PACK` does -/

/-- Appends the bits of a form the encoder produces; a reserved form has no step (R83; log entry 25). The run
and the dictionary are left as they are (log entry 30). -/
def packForm (produced : Bool) (bits : List Bool) (s : State) : Out :=
  require produced .reservedForm <| extendAccumulator bits s

/-- `DUB.DELTA.g1` (R79). -/
def execDubDeltaG1 (neg : Bool) (mag : BitVec 3) (s : State) : Out :=
  packForm (deltaFormProduced 1 neg mag.toNat) (false :: neg :: groupBits 1 mag.toNat) s

/-- `DUB.DELTA.g2` (R79). -/
def execDubDeltaG2 (neg : Bool) (mag : BitVec 6) (s : State) : Out :=
  packForm (deltaFormProduced 2 neg mag.toNat) (false :: neg :: groupBits 2 mag.toNat) s

/-- `DUB.DELTA.g3` (R79). -/
def execDubDeltaG3 (neg : Bool) (mag : BitVec 9) (s : State) : Out :=
  packForm (deltaFormProduced 3 neg mag.toNat) (false :: neg :: groupBits 3 mag.toNat) s

/-- `DUB.DELTA.g4` (R79). -/
def execDubDeltaG4 (neg : Bool) (mag : BitVec 12) (s : State) : Out :=
  packForm (deltaFormProduced 4 neg mag.toNat) (false :: neg :: groupBits 4 mag.toNat) s

/-- `DUB.DELTA.g5` (R79). -/
def execDubDeltaG5 (neg : Bool) (mag : BitVec 15) (s : State) : Out :=
  packForm (deltaFormProduced 5 neg mag.toNat) (false :: neg :: groupBits 5 mag.toNat) s

/-- `DUB.DELTA.g6` (R79). -/
def execDubDeltaG6 (neg : Bool) (mag : BitVec 18) (s : State) : Out :=
  packForm (deltaFormProduced 6 neg mag.toNat) (false :: neg :: groupBits 6 mag.toNat) s

/-- `DUB.REF.g1` (R80). The dictionary is not looked at: a value at or above the number of its tiles, which R83 lists as
never produced, adds its bits like another (log entry 27). -/
def execDubRefG1 (value : BitVec 3) (s : State) : Out :=
  packForm (countFormProduced 1 value.toNat) (true :: groupBits 1 value.toNat) s

/-- `DUB.REF.g2` (R80). As for `DUB.REF.g1`, a value at or above the number of tiles in the dictionary adds its bits (R83;
log entry 27). -/
def execDubRefG2 (value : BitVec 6) (s : State) : Out :=
  packForm (countFormProduced 2 value.toNat) (true :: groupBits 2 value.toNat) s

/-- `DUB.REPEAT.g1` (R81). -/
def execDubRepeatG1 (value : BitVec 3) (s : State) : Out :=
  packForm (countFormProduced 1 value.toNat) (groupBits 1 value.toNat) s

/-- `DUB.REPEAT.g2` (R81). -/
def execDubRepeatG2 (value : BitVec 6) (s : State) : Out :=
  packForm (countFormProduced 2 value.toNat) (groupBits 2 value.toNat) s

/-! ### The index words (R85, R186); the asset is left as it is (log entry 30) -/

/-- `DUB.INDEX8` (R186): two 8-bit entries as one word, the first in the low byte, appended to `OUT16`. -/
def execDubIndex8 (high low : BitVec 8) (s : State) : Out :=
  .next <| withAppends .finer 1 s fun s => (s.append16 [high ++ low]).returning .none

/-- `DUB.INDEX16` (R186): one 16-bit entry as one word, appended to `OUT16`. -/
def execDubIndex16 (entry : BitVec 16) (s : State) : Out :=
  .next <| withAppends .finer 1 s fun s => (s.append16 [entry]).returning .none

end Sys2Proof.Machine
end

