-- ==== Sys2Proof/Machine/System.lean ====
section
/-! DEFINITION. The system operations (R245): `SYS.RESET` (R220) and `SYS.STATUS` (R213). -/
namespace Sys2Proof.Machine

/-- `SYS.RESET` (R220): every register to its reset value; the buffers, the bus, the oracle and the parameters are
the host's and stay. The optimiser registers are not in R220's list and are unspecified after a reset (R221); they
take their reset value (log entry 12). -/
def execSysReset (s : State) : Out :=
  done { s with adpcm := State.reset.adpcm, opt := State.reset.opt, blk := State.reset.blk, asset := State.reset.asset,
                stat := State.reset.stat } .none

/-- `SYS.STATUS` (R213): returns the registers of R29 and changes nothing. -/
def execSysStatus (s : State) : Out := done s (.status s.stat)

end Sys2Proof.Machine
end

