-- ==== Sys2Proof/Machine/Dispatch.lean ====
section
/-! DEFINITION. The meaning of an instruction: one arm per constructor of Instr, in the order of spec/opcode_table.json. -/
namespace Sys2Proof.Machine

def exec (i : Instr) (s : State) : Host.Outcome State Fault Refusal :=
  match i with
  | .sysReset => Sys2Proof.Machine.execSysReset s
  | .sysStatus => Sys2Proof.Machine.execSysStatus s
  | .adpcmSetic sample0 index0 => Sys2Proof.Machine.execAdpcmSetic sample0 index0 s
  | .adpcmQuant x => Sys2Proof.Machine.execAdpcmQuant x s
  | .adpcmStep x => Sys2Proof.Machine.execAdpcmStep x s
  | .adpcmPut code => Sys2Proof.Machine.execAdpcmPut code s
  | .adpcmPair s0 s1 => Sys2Proof.Machine.execAdpcmPair s0 s1 s
  | .adpcmBody len => Sys2Proof.Machine.execAdpcmBody len s
  | .adpcmEval sample0 index0 len => Sys2Proof.Machine.execAdpcmEval sample0 index0 len s
  | .adpcmScan len => Sys2Proof.Machine.execAdpcmScan len s
  | .adpcmClimb sample0 index0 err len => Sys2Proof.Machine.execAdpcmClimb sample0 index0 err len s
  | .adpcmOptic len => Sys2Proof.Machine.execAdpcmOptic len s
  | .adpcmEncode len => Sys2Proof.Machine.execAdpcmEncode len s
  | .adpcmHeader => Sys2Proof.Machine.execAdpcmHeader s
  | .bbReset => Sys2Proof.Machine.execBbReset s
  | .bbAppend value n => Sys2Proof.Machine.execBbAppend value n s
  | .bbAppendVar value chunk => Sys2Proof.Machine.execBbAppendVar value chunk s
  | .bbFlush => Sys2Proof.Machine.execBbFlush s
  | .bbFlushFinal => Sys2Proof.Machine.execBbFlushFinal s
  | .bbGetCount => Sys2Proof.Machine.execBbGetCount s
  | .dubPack ty value => Sys2Proof.Machine.execDubPack ty value s
  | .dubCodeLen ty value => Sys2Proof.Machine.execDubCodeLen ty value s
  | .dubChoose tile => Sys2Proof.Machine.execDubChoose tile s
  | .dubBlockBegin => Sys2Proof.Machine.execDubBlockBegin s
  | .dubTile tile => Sys2Proof.Machine.execDubTile tile s
  | .dubBlockEnd => Sys2Proof.Machine.execDubBlockEnd s
  | .dubBlock tiles => Sys2Proof.Machine.execDubBlock tiles s
  | .dubDedup payload => Sys2Proof.Machine.execDubDedup payload s
  | .dubIndexSel => Sys2Proof.Machine.execDubIndexSel s
  | .dubEncode width height frames => Sys2Proof.Machine.execDubEncode width height frames s
  | .adpcmCode0 => Sys2Proof.Machine.execAdpcmCode0 s
  | .adpcmCode1 => Sys2Proof.Machine.execAdpcmCode1 s
  | .adpcmCode2 => Sys2Proof.Machine.execAdpcmCode2 s
  | .adpcmCode3 => Sys2Proof.Machine.execAdpcmCode3 s
  | .adpcmCode4 => Sys2Proof.Machine.execAdpcmCode4 s
  | .adpcmCode5 => Sys2Proof.Machine.execAdpcmCode5 s
  | .adpcmCode6 => Sys2Proof.Machine.execAdpcmCode6 s
  | .adpcmCode7 => Sys2Proof.Machine.execAdpcmCode7 s
  | .adpcmCode8 => Sys2Proof.Machine.execAdpcmCode8 s
  | .adpcmCode9 => Sys2Proof.Machine.execAdpcmCode9 s
  | .adpcmCode10 => Sys2Proof.Machine.execAdpcmCode10 s
  | .adpcmCode11 => Sys2Proof.Machine.execAdpcmCode11 s
  | .adpcmCode12 => Sys2Proof.Machine.execAdpcmCode12 s
  | .adpcmCode13 => Sys2Proof.Machine.execAdpcmCode13 s
  | .adpcmCode14 => Sys2Proof.Machine.execAdpcmCode14 s
  | .adpcmCode15 => Sys2Proof.Machine.execAdpcmCode15 s
  | .codeTableWord adj mult => Sys2Proof.Machine.execCodeTableWord adj mult s
  | .adpcmBodyByte second first => Sys2Proof.Machine.execAdpcmBodyByte second first s
  | .adpcmHeaderBytes sample0 index0 => Sys2Proof.Machine.execAdpcmHeaderBytes sample0 index0 s
  | .dubDeltaG1 neg mag => Sys2Proof.Machine.execDubDeltaG1 neg mag s
  | .dubDeltaG2 neg mag => Sys2Proof.Machine.execDubDeltaG2 neg mag s
  | .dubDeltaG3 neg mag => Sys2Proof.Machine.execDubDeltaG3 neg mag s
  | .dubDeltaG4 neg mag => Sys2Proof.Machine.execDubDeltaG4 neg mag s
  | .dubDeltaG5 neg mag => Sys2Proof.Machine.execDubDeltaG5 neg mag s
  | .dubDeltaG6 neg mag => Sys2Proof.Machine.execDubDeltaG6 neg mag s
  | .dubRefG1 value => Sys2Proof.Machine.execDubRefG1 value s
  | .dubRefG2 value => Sys2Proof.Machine.execDubRefG2 value s
  | .dubRepeatG1 value => Sys2Proof.Machine.execDubRepeatG1 value s
  | .dubRepeatG2 value => Sys2Proof.Machine.execDubRepeatG2 value s
  | .dubIndex8 high low => Sys2Proof.Machine.execDubIndex8 high low s
  | .dubIndex16 entry => Sys2Proof.Machine.execDubIndex16 entry s

end Sys2Proof.Machine
end

