-- ==== Sys2Proof/Machine/Step.lean ====
section
/-! DEFINITION. One step (R247): the next operation of the run is taken off the bus, with the buffers that come with
it, decoded and executed. With no operation left the block holds its state. -/
namespace Sys2Proof.Machine

/-- The host's buffers with those of a supply put in place of the ones that stood (log entry 2). -/
def State.supplied (s : State) (u : Supply) : State :=
  { s with in8 := u.in8.getD s.in8, tiles := u.tiles.getD s.tiles, out8 := u.out8.getD s.out8,
           out16 := u.out16.getD s.out16 }

/-- One step. -/
def step (s : State) : Host.Outcome State Fault Refusal :=
  match s.bus with
  | [] => .next s
  | q :: rest =>
    match decode s.cfg q.packet with
    | .ok i => exec i (({ s with bus := rest } : State).supplied q.supply)
    | .error e => .refused (.badEncoding e)

/-- The state with a word of spec/opcode_table.json put on the bus as the next operation (log entry 1). -/
def State.withFetchWord (s : State) (nbits w : Nat) : State :=
  { s with bus := { packet := tablePacket s.cfg nbits w } :: s.bus }

end Sys2Proof.Machine
end

