-- ==== Sys2Proof/Safety.lean ====
section
/-! DEFINITION. What counts as a safe run, in the terms the statements use: an operation that completes, an oracle that
grants the coming appends, and the invariant of the state. -/
namespace Sys2Proof.Machine

/-- The operation ends with a next state. -/
def Completes (i : Instr) (s : State) : Prop := ∃ t, exec i s = .next t

/-- The oracle grants the next `n` appends (R203). -/
def State.Grants (s : State) (n : Nat) : Prop := ∀ a ∈ s.exhaust.take n, a = false

/-- The oracle grants every append, as the default oracle does (R203 "answers false always"). -/
def State.Quiet (s : State) : Prop := ∀ a ∈ s.exhaust, a = false

/-- The answers that are left when the oracle has refused an append (R203): it is not asked again by that operation. -/
def State.afterRefusal (s : State) : List Bool := (s.exhaust.dropWhile (! ·)).tail

/-- Several operations one after the other (R247), stopping at the first that does not end with a next state. -/
def runAll : List Instr → State → Out
  | [], s => .next s
  | i :: is, s =>
    match exec i s with
    | .next t => runAll is t
    | .fault r => .fault r
    | .refused r => .refused r

/-! ### The bits of a payload -/

/-- The bits of a payload word, bit 0 first (R54). -/
def wordBits (w : Word) : List Bool := (List.range 16).map fun j => w.getLsbD j

/-- The bit stream of a block so far (R54, R84): the bits of its payload words, then the accumulator. -/
def Block.stream (b : Block) : List Bool := b.payload.flatMap wordBits ++ b.acc

/-- A field of R78 in closed form: `G` groups of `chunk` bits, the least significant first, each after its flag. -/
def varField (chunk v : Nat) : List Bool :=
  let groups := max 1 ((bitLength v + chunk - 1) / chunk)
  (List.range groups).flatMap fun g =>
    decide (g + 1 < groups) :: (List.range chunk).map fun j => (v / 2 ^ (chunk * g)).testBit (chunk - 1 - j)

/-! ### The invariant -/

/-- A code that `prevCode` can hold (R26): INVALID only with value 0, a DELTA of a tile difference, a REF into a
dictionary of at most 63 entries; never REPEAT. -/
def Code.isPrev (c : Code) : Prop :=
  match c.ty with
  | .invalid => c.value = 0
  | .delta => -65535 ≤ c.value ∧ c.value ≤ 65535
  | .ref => 0 ≤ c.value ∧ c.value ≤ 62
  | .rept => False

/-- The invariant of the per-block state (R25, R26, R162). -/
structure Block.Inv (cfg : Config.Params) (b : Block) : Prop where
  dict_le : b.dict.length ≤ 64
  acc_le : b.acc.length ≤ cfg.accBits
  prev : b.prevCode.isPrev
  prev_invalid : b.dict = [] → b.prevCode.ty = .invalid
  run_le : b.repeating = true → b.repeatCount + 2 ≤ b.dict.length

/-- Each stored payload's offset is the total length of the payloads stored before it (R182), from `start` on. -/
def storePlaced : Nat → List (List Word × Nat) → Prop
  | _, [] => True
  | start, (key, offset) :: rest => offset = start ∧ storePlaced (start + key.length) rest

/-- The invariant of the per-asset state (R182, R191): the block data is the stored payloads one after the other, each
distinct and at its offset, and every index entry is the offset of a stored payload. -/
structure Asset.Inv (a : Asset) : Prop where
  data : a.blockData = (a.store.map (·.1)).flatten
  distinct : (a.store.map (·.1)).Nodup
  placed : storePlaced 0 a.store
  pointed : ∀ o ∈ a.offsets, o ∈ a.store.map (·.2)

/-- The invariant of the host-readable registers (R29, R189, R201). -/
structure Status.Inv (r : Status) : Prop where
  status_ne : r.status ≠ .notFound
  ratio : r.statRatio = Machine.statRatio r.statTiles r.statWords.toNat

/-- The invariant of the state. -/
structure State.Inv (s : State) : Prop where
  blk : s.blk.Inv s.cfg
  asset : s.asset.Inv
  stat : s.stat.Inv

end Sys2Proof.Machine
end

