-- ==== Sys2Proof/Certificates/Slice0/Obligations.lean ====
section
/-! DEFINITION. The statements for the provers, from the numbered rules of spec/, family by family. A result statement
says the whole next state, so that it is the frame of the instruction too. `s.Grants n` and `s.Quiet` say what the
oracle `Exhaust` answers (R203); what an operation leaves of the answers is log entry 8. `bitAsks s.cfg n` is `n` where the
accumulators are among the lists that may fail to grow (R63) and 0 where they are not (R203): log entry 28. -/

open Sys2Proof Sys2Proof.Machine

/-! ### Notions the statements use -/

/-- The state of a finer operation, or of `ADPCM.ENCODE`, whose append the oracle refused (R203, R204): everything as
before but `STATUS`, the value returned and the oracle's answers. -/
def Sys2Proof.Machine.State.exhausted (s : State) : State :=
  { s with exhaust := s.afterRefusal, stat := { s.stat with status := .resourceExhausted },
           result := .condition .resourceExhausted }

/-- The state with the default oracle, which refuses nothing (R203). -/
def Sys2Proof.Machine.State.silent (s : State) : State := { s with exhaust := [] }

/-- The answers that `n` bits for the block's accumulator ask for (R63; log entry 28): one each, up to and with the first
that has no room. -/
def Sys2Proof.Machine.State.roomAsks (s : State) (n : Nat) : Nat :=
  bitAsks s.cfg (min n (s.cfg.accBits - s.blk.acc.length + 1))

/-- The pairs of `ADPCM.BODY` (R107): sample by sample, an odd last one with itself. -/
def Sys2Proof.Machine.pairsOf : List Sample → List Instr
  | [] => []
  | [a] => [.adpcmPair a a]
  | a :: b :: r => .adpcmPair a b :: pairsOf r

/-- The inputs of an evaluation pass, an odd prefix with its last sample again (R108). -/
def Sys2Proof.Machine.paddedInputs : List Sample → List Sample
  | [] => []
  | [a] => [a, a]
  | a :: b :: r => a :: b :: paddedInputs r

/-- The squared errors of a run of per-sample steps (R108). -/
def Sys2Proof.Machine.stepErrors (mode : Config.DeltaMode) : Codec → List Sample → List Nat
  | _, [] => []
  | k, x :: r =>
    let k' := k.afterStep mode x
    ((k'.sample.toInt - x.toInt) ^ 2).toNat :: stepErrors mode k' r

/-- The error of the candidate quantizer output `(c, d)` for input `x` (R103). -/
def Sys2Proof.Machine.quantErr (s : State) (x : Sample) (d : Int) : Int := |d - (x.toInt - s.adpcm.codec.sample.toInt)|

/-- The delta of code `c` in a state (R102). -/
def Sys2Proof.Machine.deltaOf (s : State) (c : Nybble) : Int :=
  candDelta s.cfg.deltaMode c (stepSize s.adpcm.codec.index)

/-- The points one move of the hill climb away, in the order of R110: `sample + 1`, `sample - 1`, `index + 1`,
`index - 1`, without those out of range. -/
def Sys2Proof.Machine.climbPoints (k : Codec) : List Codec :=
  ([(1, 0), (-1, 0), (0, 1), (0, -1)] : List (Int × Int)).filterMap fun (ds, di) =>
    let ns := k.sample.toInt + ds
    let ni := (k.index.val : Int) + di
    if -32768 ≤ ns ∧ ns ≤ 32767 ∧ 0 ≤ ni ∧ ni ≤ 88 then some ⟨BitVec.ofInt 16 ns, Fin.ofNat 89 ni.toNat⟩ else none

/-- The sixteen code rows of the opcode table. -/
def Sys2Proof.Machine.codeRows : List (Instr × Nybble) :=
  [(.adpcmCode0, 0), (.adpcmCode1, 1), (.adpcmCode2, 2), (.adpcmCode3, 3), (.adpcmCode4, 4), (.adpcmCode5, 5),
   (.adpcmCode6, 6), (.adpcmCode7, 7), (.adpcmCode8, 8), (.adpcmCode9, 9), (.adpcmCode10, 10), (.adpcmCode11, 11),
   (.adpcmCode12, 12), (.adpcmCode13, 13), (.adpcmCode14, 14), (.adpcmCode15, 15)]

/-- The operations of unit ADPCM, its object rows among them. -/
def Sys2Proof.Instr.isAdpcm : Instr → Bool
  | .adpcmSetic _ _ | .adpcmQuant _ | .adpcmStep _ | .adpcmPut _ | .adpcmPair _ _ | .adpcmBody _ | .adpcmEval _ _ _
  | .adpcmScan _ | .adpcmClimb _ _ _ _ | .adpcmOptic _ | .adpcmEncode _ | .adpcmHeader
  | .adpcmCode0 | .adpcmCode1 | .adpcmCode2 | .adpcmCode3 | .adpcmCode4 | .adpcmCode5 | .adpcmCode6 | .adpcmCode7
  | .adpcmCode8 | .adpcmCode9 | .adpcmCode10 | .adpcmCode11 | .adpcmCode12 | .adpcmCode13 | .adpcmCode14
  | .adpcmCode15 | .codeTableWord _ _ | .adpcmBodyByte _ _ | .adpcmHeaderBytes _ _ => true
  | .sysReset | .sysStatus | .bbReset | .bbAppend _ _ | .bbAppendVar _ _ | .bbFlush | .bbFlushFinal | .bbGetCount
  | .dubPack _ _ | .dubCodeLen _ _ | .dubChoose _ | .dubBlockBegin | .dubTile _ | .dubBlockEnd | .dubBlock _
  | .dubDedup _ | .dubIndexSel | .dubEncode _ _ _ | .dubDeltaG1 _ _ | .dubDeltaG2 _ _ | .dubDeltaG3 _ _
  | .dubDeltaG4 _ _ | .dubDeltaG5 _ _ | .dubDeltaG6 _ _ | .dubRefG1 _ | .dubRefG2 _ | .dubRepeatG1 _ | .dubRepeatG2 _
  | .dubIndex8 _ _ | .dubIndex16 _ => false

/-- The operations of `DUB.ENCODE` issued one by one (R188): each block through `DUB.BLOCK` and the payload it returns
through `DUB.DEDUP`, then `DUB.INDEXSEL`. -/
def Sys2Proof.Machine.assetByOperations : List (List Tile) → State → Option State
  | [], s =>
    match exec .dubIndexSel s with
    | .next t => some t
    | _ => none
  | ts :: rest, s =>
    match exec (.dubBlock ts) s with
    | .next t =>
      match t.result with
      | .payload p =>
        match exec (.dubDedup p) t with
        | .next u => assetByOperations rest u
        | _ => none
      | _ => none
    | _ => none

/-- The bits that `DUB.TILE` or `DUB.BLOCKEND`, from `s` to `u`, puts into accumulators: those it measures (R153) and those
it packs (R158, R160). -/
def Sys2Proof.Machine.State.bitsPut (s u : State) : Instr → Nat
  | .dubTile tile => chooseBits s.blk.dict tile + (u.blk.stream.length - s.blk.stream.length)
  | .dubBlockEnd => if s.blk.repeating then (codeBits ⟨.rept, s.blk.repeatCount⟩).length else 0
  | _ => 0

/-- The bits that the operations of a block put into accumulators, issued one after the other. -/
def Sys2Proof.Machine.State.runBits : List Instr → State → Nat
  | [], _ => 0
  | i :: is, s =>
    match exec i s with
    | .next u => s.bitsPut u i + State.runBits is u
    | _ => 0

/-- The appends of a whole block (R203; log entries 8 and 28): the entries of its dictionary, the words of its payload and
the bits of its operations. -/
def Sys2Proof.Machine.State.blockAppends (s : State) (ts : List Tile) : Nat :=
  match exec (.dubBlock ts) s.silent with
  | .next t => t.blk.dict.length + t.blk.payload.length +
      bitAsks s.cfg (State.runBits (.dubBlockBegin :: ts.map .dubTile ++ [.dubBlockEnd]) s.silent)
  | _ => 0

/-- The appends of `DUB.ENCODE` for the blocks `bs`, which leave the asset `a` (R203; log entry 8): those of each block,
and the entries and words of the asset. -/
def Sys2Proof.Machine.State.assetAppends (s : State) (bs : List (List Tile)) (a : Asset) : Nat :=
  (bs.map s.blockAppends).sum + a.store.length + a.blockData.length + a.offsets.length

/-- Index entry `i` read back from an output (R85): word `i`, or byte `i mod 2` of word `i div 2`. -/
def Sys2Proof.Machine.indexEntry (wide : Bool) (out : List Word) (i : Nat) : Nat :=
  if wide then (out.getD i 0).toNat
  else (out.getD (i / 2) 0).toNat / 256 ^ (i % 2) % 256

/-- The operations that add bits to an accumulator, or measure them, and append to no list of R203: their rules say
"Conditions: none". -/
def Sys2Proof.Instr.growsOnlyBits : Instr → Bool
  | .bbAppend _ _ | .bbAppendVar _ _ | .dubPack _ _ | .dubCodeLen _ _ | .dubChoose _ | .dubDeltaG1 _ _ | .dubDeltaG2 _ _
  | .dubDeltaG3 _ _ | .dubDeltaG4 _ _ | .dubDeltaG5 _ _ | .dubDeltaG6 _ _ | .dubRefG1 _ | .dubRefG2 _ | .dubRepeatG1 _
  | .dubRepeatG2 _ => true
  | _ => false

/-- A code form of the opcode table: the instruction, its groups, its header bits and its value. -/
def Sys2Proof.Machine.codeForms (neg : Bool) (m : Nat) : List (Instr × Nat × List Bool × Bool) :=
  [(.dubDeltaG1 neg (BitVec.ofNat 3 m), 1, [false, neg], decide (m ≤ 7 ∧ ¬(neg = true ∧ m = 0))),
   (.dubDeltaG2 neg (BitVec.ofNat 6 m), 2, [false, neg], decide (8 ≤ m ∧ m ≤ 63)),
   (.dubDeltaG3 neg (BitVec.ofNat 9 m), 3, [false, neg], decide (64 ≤ m ∧ m ≤ 511)),
   (.dubDeltaG4 neg (BitVec.ofNat 12 m), 4, [false, neg], decide (512 ≤ m ∧ m ≤ 4095)),
   (.dubDeltaG5 neg (BitVec.ofNat 15 m), 5, [false, neg], decide (4096 ≤ m ∧ m ≤ 32767)),
   (.dubDeltaG6 neg (BitVec.ofNat 18 m), 6, [false, neg], decide (32768 ≤ m ∧ m ≤ 65535)),
   (.dubRefG1 (BitVec.ofNat 3 m), 1, [true], decide (m ≤ 7)),
   (.dubRefG2 (BitVec.ofNat 6 m), 2, [true], decide (8 ≤ m ∧ m ≤ 62)),
   (.dubRepeatG1 (BitVec.ofNat 3 m), 1, [], decide (m ≤ 7)),
   (.dubRepeatG2 (BitVec.ofNat 6 m), 2, [], decide (8 ≤ m ∧ m ≤ 62))]

/-! ### Reset, the system operations, the step -/

/-- R220: `SYS.RESET` gives every register of the rule its value and touches nothing of the host's; the optimiser
registers, which R221 leaves unspecified, and the packed index, which the rule does not name, are not constrained. R213:
`SYS.STATUS` returns the registers of R29 and changes nothing. -/
def Obligations.SystemOperationsResetAndReadTheRegisters : Prop :=
  ∀ s : State,
    (∃ (o : Optimiser) (p : List Nat), exec .sysReset s = .next { s with
      adpcm := ⟨⟨0, 0⟩, false, 0⟩
      opt := o
      blk := { acc := [], payload := [], dict := [], prevCode := ⟨.invalid, 0⟩, repeating := false, repeatCount := 0 }
      asset := { store := [], blockData := [], offsets := [], isIndex16 := false, indexSize := 0, packed := p }
      stat := { status := .ok, statTiles := 0, statWords := 0, statRatio := none, isIndex16 := false, indexSize := 0 }
      result := .none }) ∧
    exec .sysStatus s = .next { s with result := .status s.stat }

/-- R33, R72, R73: the state after reset and the two tables: their contents, and that `stepSize`, `codeWord`, `mult` and
`adj`, by which the statements on R102, R103 and R104 read them, give the entries of R72 and R73. A `SYS.RESET` after reset
leaves every register the rule gives a value as it is. The optimiser registers and the packed index, which it gives none,
are not constrained. Beside them the defaults of R10 and the codes of `STATUS` (R200, R29). -/
def Obligations.StateAfterReset : Prop :=
  State.reset.adpcm = ⟨⟨0, 0⟩, false, 0⟩ ∧
  State.reset.blk =
    { acc := [], payload := [], dict := [], prevCode := ⟨.invalid, 0⟩, repeating := false, repeatCount := 0 } ∧
  (∃ p, State.reset.asset =
    { store := [], blockData := [], offsets := [], isIndex16 := false, indexSize := 0, packed := p }) ∧
  State.reset.stat =
    { status := .ok, statTiles := 0, statWords := 0, statRatio := none, isIndex16 := false, indexSize := 0 } ∧
  State.reset.stat.status.code = 0 ∧ State.reset.blk.count = 0 ∧ State.reset.blk.dictLen = 0 ∧
  State.reset.asset.blockCount = 0 ∧
  (∃ (o : Optimiser) (p : List Nat), exec .sysReset State.reset =
    .next { State.reset with opt := o, asset := { State.reset.asset with packed := p } }) ∧
  stepSizeTable = [
    7, 8, 9, 10, 11, 12, 13, 14, 16, 17, 19, 21, 23, 25, 28, 31, 34, 37, 41, 45, 50, 55, 60, 66, 73, 80, 88, 97, 107,
    118, 130, 143, 157, 173, 190, 209, 230, 253, 279, 307, 337, 371, 408, 449, 494, 544, 598, 658, 724, 796, 876, 963,
    1060, 1166, 1282, 1411, 1552, 1707, 1878, 2066, 2272, 2499, 2749, 3024, 3327, 3660, 4026, 4428, 4871, 5358, 5894,
    6484, 7132, 7845, 8630, 9493, 10442, 11487, 12635, 13899, 15289, 16818, 18500, 20350, 22385, 24623, 27086, 29794,
    32767] ∧
  codeTable = [0xFFFFFF01, 0xFFFFFF03, 0xFFFFFF05, 0xFFFFFF07, 0x00000209, 0x0000040B, 0x0000060D, 0x0000080F,
    0xFFFFFFFF, 0xFFFFFFFD, 0xFFFFFFFB, 0xFFFFFFF9, 0x000002F7, 0x000004F5, 0x000006F3, 0x000008F1] ∧
  (∀ i : Fin 89, stepSizeTable[i.val]? = some (stepSize i)) ∧
  (∀ c : Nybble, codeTable[c.toNat]? = some (codeWord c) ∧
    [1, 3, 5, 7, 9, 11, 13, 15, -1, -3, -5, -7, -9, -11, -13, -15][c.toNat]? = some (mult c) ∧
    [-1, -1, -1, -1, 2, 4, 6, 8, -1, -1, -1, -1, 2, 4, 6, 8][c.toNat]? = some (adj c)) ∧
  State.reset.cfg.deltaMode = .signedAsr ∧ State.reset.cfg.evalCountsPad = true ∧
  State.reset.cfg.dubRunStartEmit = false ∧ State.reset.cfg.accBits = 64 ∧ State.reset.cfg.dimBits = 32 ∧
  State.reset.Quiet ∧
  Condition.ok.code = 0 ∧ Condition.notFound.code = 1 ∧ Condition.tooLarge.code = 2 ∧
  Condition.resourceExhausted.code = 3

/-- R247: a step runs the decoded operation on the state without it and with the buffers that came with it; with no
operation left the state stays; a transaction that is no instruction has no step. -/
def Obligations.StepRunsTheDecodedOperation : Prop :=
  ∀ s : State,
    (∀ q rest i, s.bus = q :: rest → decode s.cfg q.packet = .ok i →
      step s = exec i { s with bus := rest, in8 := q.supply.in8.getD s.in8, tiles := q.supply.tiles.getD s.tiles,
                               out8 := q.supply.out8.getD s.out8, out16 := q.supply.out16.getD s.out16 }) ∧
    (∀ q rest e, s.bus = q :: rest → decode s.cfg q.packet = .error e → step s = .refused (.badEncoding e)) ∧
    (s.bus = [] → step s = .next s)

/-! ### Encodings -/

/-- Decoding the transaction of an instruction gives the instruction back, for every instruction that has an encoding
and whatever the width of a dimension. -/
def Obligations.DecodeOfEncodeIsTheInstruction : Prop :=
  ∀ (cfg : Config.Params) (i : Instr), i.encodable cfg = true → decode cfg (encode cfg i) = .ok i

/-- A transaction that decodes is the transaction of its instruction: no two transactions mean the same. -/
def Obligations.EncodeOfDecodeIsTheTransaction : Prop :=
  ∀ (cfg : Config.Params) (p : Packet) (i : Instr), decode cfg p = .ok i → i.encodable cfg = true ∧ encode cfg i = p

/-- R86: a number that the table does not list is unassigned and refused, whatever follows it. -/
def Obligations.UnassignedCommandNumbersAreRefused : Prop :=
  ∀ (s : State) (op : Byte) (r : List Byte) (u : Supply) (rest : List Issue),
    op.toNat ∉ [0x00, 0x01, 0x10, 0x11, 0x12, 0x13, 0x14, 0x15, 0x16, 0x17, 0x18, 0x19, 0x1A, 0x1B, 0x20, 0x21, 0x22,
      0x23, 0x24, 0x25, 0x30, 0x31, 0x32, 0x33, 0x34, 0x35, 0x36, 0x37, 0x38, 0x39] →
    s.bus = ⟨.command (op :: r), u⟩ :: rest → step s = .refused (.badEncoding (.undefinedCommand op))

/-- R82, R87: the commands and codes the spec writes out decode to the instructions they stand for. -/
def Obligations.TheSpecsWrittenWordsDecode : Prop :=
  decode {} (.command [0x10, 0x62, 0x00, 0x15]) = .ok (.adpcmSetic 98 21) ∧
  decode {} (.command [0x30, 0x00, 0xF9, 0xFF, 0xFF, 0xFF]) = .ok (.dubPack .delta (-7)) ∧
  decode {} (.command [0x21, 0x06, 0x00, 0x00, 0x00, 0x03]) = .ok (.bbAppend 6 3) ∧
  decode {} (.command [0x36, 0x04, 0x07, 0x00, 0x07, 0x00, 0x07, 0x00, 0x09, 0x00]) = .ok (.dubBlock [7, 7, 7, 9]) ∧
  decode {} (.command [0x39, 2, 0, 0, 0, 2, 0, 0, 0, 3, 0, 0, 0]) = .ok (.dubEncode 2 2 3) ∧
  decode {} (.dubCode [false, true, false, true, true, true]) = .ok (.dubDeltaG1 true 7) ∧
  decode {} (.dubCode [true, true, false, false, false, false, false, false, true]) = .ok (.dubRefG2 8) ∧
  decode {} (.dubRepeat [true, true, false, true, false, true, true, true]) = .ok (.dubRepeatG2 61)

/-! ### ADPCM: operands and tables -/

/-- R51: sample `k` is the little-endian signed value of bytes `2k` and `2k+1`; there are `L div 2` of them. -/
def Obligations.InputSamplesAreLittleEndian : Prop :=
  ∀ (s : State) (len : BitVec 32), len.toNat ≤ s.in8.length →
    (inputSamples s len).length = len.toNat / 2 ∧
    ∀ k < len.toNat / 2, ((inputSamples s len).getD k 0).toInt =
      (BitVec.ofNat 16 ((s.in8.getD (2 * k) 0).toNat + 256 * (s.in8.getD (2 * k + 1) 0).toNat)).toInt

/-- R74: of a word the multiplier is the low byte, signed, and the index adjustment the whole word shifted right
arithmetically by 8; that the object row returns them and changes nothing is the model's choice (log entry 4). -/
def Obligations.CodeTableWordReadsItsFields : Prop :=
  ∀ (s : State) (w : BitVec 32), ∃ (a : BitVec 24) (m : BitVec 8),
    decode s.cfg (.codeTableWord w) = .ok (.codeTableWord a m) ∧
    exec (.codeTableWord a m) s =
      .next { s with result := .fields (w.extractLsb' 0 8).toInt (w.sshiftRight 8).toInt }

/-- R102: the three readings of the candidate delta in closed form, and the default one. -/
def Obligations.CandidateDeltaClosedForms : Prop :=
  Config.Params.default.deltaMode = .signedAsr ∧ ∀ (c : Nybble) (step : Nat), step ≤ 32767 →
    candDelta .signedAsr c step = Int.fdiv (mult c * step) 8 ∧
    candDelta .sextLsr c step = ((mult c * step) % 2 ^ 32) / 8 ∧
    candDelta .zextLsr c step = ((codeWord c).toNat % 256 * step / 8 : Nat)

/-! ### ADPCM: the finer operations -/

/-- R101: `ADPCM.SETIC` loads the codec state and clears `half`; an index above 88 is refused (U4). -/
def Obligations.SeticLoadsTheCodecState : Prop :=
  ∀ (s : State) (x : Sample),
    (∀ i : Fin 89, exec (.adpcmSetic x (BitVec.ofNat 8 i)) s =
      .next { s with adpcm := { codec := ⟨x, i⟩, half := false, lowCode := s.adpcm.lowCode }, result := .none }) ∧
    (∀ b : BitVec 8, 88 < b.toNat → exec (.adpcmSetic x b) s = .refused .indexOutOfRange)

/-- R103: `ADPCM.QUANT` returns the code whose delta is nearest, the later one on a tie, and writes nothing. -/
def Obligations.QuantPicksTheLastNearestCode : Prop :=
  ∀ (s : State) (x : Sample), ∃ c : Nybble,
    exec (.adpcmQuant x) s = .next { s with result := .codeDelta c (deltaOf s c) } ∧
    ∀ c' : Nybble, quantErr s x (deltaOf s c) ≤ quantErr s x (deltaOf s c') ∧
      (quantErr s x (deltaOf s c) = quantErr s x (deltaOf s c') → c' ≤ c)

/-- R104: `ADPCM.STEP` takes the code and the delta that `ADPCM.QUANT` returns and clamps both sums. The codec state it
leaves is `Codec.afterStep`, by which the statements on R108 take their steps. -/
def Obligations.StepClampsPredictorAndIndex : Prop :=
  ∀ (s : State) (x : Sample), ∃ (c : Nybble) (d : Int) (k : Codec),
    exec (.adpcmQuant x) s = .next { s with result := .codeDelta c d } ∧
    exec (.adpcmStep x) s = .next { s with adpcm := { s.adpcm with codec := k }, result := .code c } ∧
    k = s.adpcm.codec.afterStep s.cfg.deltaMode x ∧
    k.sample.toInt = max (-32768) (min (s.adpcm.codec.sample.toInt + d) 32767) ∧
    (k.index.val : Int) = max 0 (min (s.adpcm.codec.index.val + adj c) 88)

/-- The model's object rows `ADPCM.CODE0` to `ADPCM.CODE15` (log entry 6): the state update of R104 for that code. -/
def Obligations.CodeRowsAdvanceTheCodec : Prop :=
  ∀ (s : State), ∀ p ∈ codeRows, ∃ k : Codec,
    exec p.1 s = .next { s with adpcm := { s.adpcm with codec := k }, result := .code p.2 } ∧
    k.sample.toInt = max (-32768) (min (s.adpcm.codec.sample.toInt + deltaOf s p.2) 32767) ∧
    (k.index.val : Int) = max 0 (min (s.adpcm.codec.index.val + adj p.2) 88)

/-- R105: `ADPCM.PUT` holds a first code and appends the byte with a second, or takes the condition when the output cannot
grow; a code above 15 is refused (U4). -/
def Obligations.PutHoldsThenAppends : Prop :=
  ∀ (s : State) (c : Nybble),
    (s.adpcm.half = false → exec (.adpcmPut (c.setWidth 8)) s =
      .next { s with adpcm := { s.adpcm with half := true, lowCode := c }, result := .none }) ∧
    (s.adpcm.half = true → s.Grants 1 → exec (.adpcmPut (c.setWidth 8)) s =
      .next { s with adpcm := { s.adpcm with half := false },
                     out8 := s.out8 ++ [BitVec.ofNat 8 (s.adpcm.lowCode.toNat + 16 * c.toNat)],
                     exhaust := s.exhaust.drop 1, result := .none }) ∧
    (s.adpcm.half = true → ¬ s.Grants 1 → exec (.adpcmPut (c.setWidth 8)) s = .next s.exhausted) ∧
    (∀ b : BitVec 8, 15 < b.toNat → exec (.adpcmPut b) s = .refused .codeOutOfRange)

/-- R106: `ADPCM.PAIR` is STEP, PUT, STEP, PUT, and returns the byte appended; it requires `half = 0` (U13). -/
def Obligations.PairIsTwoStepsAndTwoPuts : Prop :=
  ∀ (s : State) (x0 x1 : Sample),
    (s.adpcm.half = false → s.Grants 1 → ∃ (c0 c1 : Nybble) (t1 t2 t3 t4 : State),
      exec (.adpcmStep x0) s = .next t1 ∧ t1.result = .code c0 ∧ exec (.adpcmPut (c0.setWidth 8)) t1 = .next t2 ∧
      exec (.adpcmStep x1) t2 = .next t3 ∧ t3.result = .code c1 ∧ exec (.adpcmPut (c1.setWidth 8)) t3 = .next t4 ∧
      t4.out8 = s.out8 ++ [BitVec.ofNat 8 (c0.toNat + 16 * c1.toNat)] ∧ t4.adpcm.half = false ∧
      exec (.adpcmPair x0 x1) s = .next { t4 with result := .byte (BitVec.ofNat 8 (c0.toNat + 16 * c1.toNat)) }) ∧
    (s.adpcm.half = true → exec (.adpcmPair x0 x1) s = .refused .halfHeld)

/-- R107: `ADPCM.BODY` is the pairs of its samples one after the other, `ceil(N/2)` bytes; it changes only the unit, the
output, the oracle's answers and the value returned, and requires `half = 0` (U13). -/
def Obligations.BodyIsItsPairs : Prop :=
  ∀ (s : State) (len : BitVec 32), len.toNat ≤ s.in8.length →
    (s.adpcm.half = false → s.Grants ((len.toNat / 2 + 1) / 2) → ∃ (t : State) (bytes : List Byte),
      runAll (pairsOf (inputSamples s len)) s = .next t ∧ exec (.adpcmBody len) s = .next { t with result := .none } ∧
      bytes.length = (len.toNat / 2 + 1) / 2 ∧ t.adpcm.half = false ∧
      t = { s with adpcm := t.adpcm, out8 := s.out8 ++ bytes, exhaust := s.exhaust.drop bytes.length,
                   result := t.result }) ∧
    (s.adpcm.half = true → exec (.adpcmBody len) s = .refused .halfHeld)

/-- R113: `ADPCM.HEADER` appends the low and the high byte of `sample` and the index. -/
def Obligations.HeaderAppendsTheCodecState : Prop :=
  ∀ s : State, s.Grants 3 → ∃ b0 b1 b2 : Byte,
    exec .adpcmHeader s = .next { s with out8 := s.out8 ++ [b0, b1, b2], exhaust := s.exhaust.drop 3, result := .none } ∧
    b0.toNat = s.adpcm.codec.sample.toNat % 256 ∧ b1.toNat = s.adpcm.codec.sample.toNat / 256 ∧
    b2.toNat = s.adpcm.codec.index.val

/-- The model's object rows `ADPCM.BODYBYTE`, `ADPCM.HEADERBYTES`, `DUB.INDEX8` and `DUB.INDEX16` (log entry 4): the
bytes of R76 and R75 are appended to `OUT8` and the words of R186 to `OUT16`, and nothing else is written, also while a
code is held (log entry 30). A header index above 88, which R77 says is never produced, is refused (log entry 25). -/
def Obligations.ObjectsAppendTheirBytesAndWords : Prop :=
  ∀ s : State,
    (∀ h l : Nybble, s.Grants 1 → exec (.adpcmBodyByte h l) s =
      .next { s with out8 := s.out8 ++ [BitVec.ofNat 8 (l.toNat + 16 * h.toNat)], exhaust := s.exhaust.drop 1,
                     result := .none }) ∧
    (∀ (x : Sample) (b : BitVec 8), b.toNat ≤ 88 → s.Grants 3 → exec (.adpcmHeaderBytes x b) s =
      .next { s with out8 := s.out8 ++ [BitVec.ofNat 8 x.toNat, BitVec.ofNat 8 (x.toNat / 256), b],
                     exhaust := s.exhaust.drop 3, result := .none }) ∧
    (∀ (x : Sample) (b : BitVec 8), 88 < b.toNat → exec (.adpcmHeaderBytes x b) s = .refused .indexOutOfRange) ∧
    (∀ h l : BitVec 8, s.Grants 1 → exec (.dubIndex8 h l) s =
      .next { s with out16 := s.out16 ++ [BitVec.ofNat 16 (l.toNat + 256 * h.toNat)], exhaust := s.exhaust.drop 1,
                     result := .none }) ∧
    (∀ p : BitVec 16, s.Grants 1 → exec (.dubIndex16 p) s =
      .next { s with out16 := s.out16 ++ [p], exhaust := s.exhaust.drop 1, result := .none })

/-! ### ADPCM: the optimiser -/

/-- R108: `ADPCM.EVAL` sums the squared errors of the steps over the first 100 samples, the last one of an odd prefix
run twice and counted as `EVAL_COUNTS_PAD` says, and changes nothing; the sum is below 2^39. -/
def Obligations.EvalSumsSquaredErrors : Prop :=
  ∀ (s : State) (x : Sample) (i : Fin 89) (len : BitVec 32), len.toNat ≤ s.in8.length →
    let pre := (inputSamples s len).take 100
    let all := stepErrors s.cfg.deltaMode ⟨x, i⟩ (paddedInputs pre)
    exec (.adpcmEval x (BitVec.ofNat 8 i) len) s =
      .next { s with result := .err (if s.cfg.evalCountsPad then all.sum else (all.take pre.length).sum) } ∧
    all.sum < 2 ^ 39

/-- R109: for two bytes or more `ADPCM.SCAN` returns the index with the least error, the earliest on a tie, and changes
nothing. -/
def Obligations.ScanReturnsTheEarliestLeastError : Prop :=
  ∀ (s : State) (len : BitVec 32), len.toNat ≤ s.in8.length → 2 ≤ len.toNat →
    ∃ (i : Fin 89) (err : Fin 89 → Nat),
      (∀ j : Fin 89, exec (.adpcmEval ((inputSamples s len).getD 0 0) (BitVec.ofNat 8 j) len) s =
        .next { s with result := .err (err j) }) ∧
      exec (.adpcmScan len) s = .next { s with result := .indexErr i (err i) } ∧
      (∀ j : Fin 89, err i ≤ err j) ∧ (∀ j : Fin 89, j < i → err i < err j)

/-- R110: `ADPCM.CLIMB` goes on from the first of the four moves that has a strictly lower error, and with no such move
returns the point and its error; it changes nothing, and it ends. -/
def Obligations.ClimbTakesTheFirstBetterMove : Prop :=
  ∀ (s : State) (x : Sample) (i : Fin 89) (err : BitVec 64) (len : BitVec 32), len.toNat ≤ s.in8.length →
    ∃ (evalErr : Codec → Nat) (x' : Sample) (i' : Fin 89) (e' : Nat),
      (∀ k, exec (.adpcmEval k.sample (BitVec.ofNat 8 k.index) len) s = .next { s with result := .err (evalErr k) }) ∧
      exec (.adpcmClimb x (BitVec.ofNat 8 i) err len) s = .next { s with result := .icErr x' i' e' } ∧
      match (climbPoints ⟨x, i⟩).find? fun k => evalErr k < err.toNat with
      | none => x' = x ∧ i' = i ∧ e' = err.toNat
      | some k => exec (.adpcmClimb k.sample (BitVec.ofNat 8 k.index) (BitVec.ofNat 64 (evalErr k)) len) s =
          .next { s with result := .icErr x' i' e' }

/-- R111: for four bytes or more `ADPCM.OPTIC` is the scan and then the climb from the first sample; it writes only the
optimiser registers, whose values are not constrained. -/
def Obligations.OpticIsScanThenClimb : Prop :=
  ∀ (s : State) (len : BitVec 32), len.toNat ≤ s.in8.length → 4 ≤ len.toNat →
    ∃ (i i0 : Fin 89) (e : BitVec 64) (x0 : Sample) (e0 : Nat) (o : Optimiser),
      exec (.adpcmScan len) s = .next { s with result := .indexErr i e.toNat } ∧
      exec (.adpcmClimb ((inputSamples s len).getD 0 0) (BitVec.ofNat 8 i) e len) s =
        .next { s with result := .icErr x0 i0 e0 } ∧
      exec (.adpcmOptic len) s = .next { s with opt := o, result := .ic x0 i0 }

/-- The model's reading of operands the rules leave out of an operation's domain: an `index0` above 88 of EVAL and CLIMB
(after U4), a length beyond the buffer the host gave (log entry 3) or below what the rule requires (log entry 14), a
chunk above 32 (log entry 16), a negative REF or REPEAT value (after U5 and R133). -/
def Obligations.OperandsOutOfRangeAreRefused : Prop :=
  ∀ (s : State) (len : BitVec 32) (x : Sample),
    (∀ (b : BitVec 8) (e : BitVec 64), 88 < b.toNat →
      exec (.adpcmEval x b len) s = .refused .indexOutOfRange ∧
      exec (.adpcmClimb x b e len) s = .refused .indexOutOfRange) ∧
    (s.in8.length < len.toNat →
      (∀ (i : Fin 89) (e : BitVec 64), exec (.adpcmEval x (BitVec.ofNat 8 i) len) s = .refused .inputTooShort ∧
        exec (.adpcmClimb x (BitVec.ofNat 8 i) e len) s = .refused .inputTooShort) ∧
      (s.adpcm.half = false → exec (.adpcmBody len) s = .refused .inputTooShort) ∧
      (2 ≤ len.toNat → exec (.adpcmScan len) s = .refused .inputTooShort) ∧
      (4 ≤ len.toNat → exec (.adpcmOptic len) s = .refused .inputTooShort) ∧
      exec (.adpcmEncode len) s = .refused .inputTooShort) ∧
    (len.toNat < 2 → exec (.adpcmScan len) s = .refused .lengthBelowMinimum) ∧
    (len.toNat < 4 → exec (.adpcmOptic len) s = .refused .lengthBelowMinimum) ∧
    (∀ (v : BitVec 32) (chunk : BitVec 8), 32 < chunk.toNat →
      exec (.bbAppendVar v chunk) s = .refused .bitCountOutOfRange) ∧
    (∀ v : BitVec 32, v.toInt < 0 → ∀ ty : CodeType, ty = .ref ∨ ty = .rept →
      exec (.dubPack ty v) s = .refused .negativeValue ∧ exec (.dubCodeLen ty v) s = .refused .negativeValue)

/-! ### ADPCM: the top-level operation -/

/-- R112: `ADPCM.ENCODE` is OPTIC (below four bytes: the initial condition `(0, 0)` instead), SETIC, HEADER, BODY, and
`STATUS` OK; when an append is refused everything is as before but `STATUS`, the value returned and the optimiser
registers, which are not constrained (R204, U12). It returns what it appended: the model's choice (log entry 11). -/
def Obligations.EncodeIsOpticSeticHeaderBody : Prop :=
  ∀ (s : State) (len : BitVec 32), len.toNat ≤ s.in8.length →
    (s.Grants (3 + (len.toNat / 2 + 1) / 2) → ∃ (t1 t2 : State) (x0 : Sample) (i0 : Fin 89) (bytes : List Byte),
      (len.toNat < 4 → t1 = s ∧ x0 = 0 ∧ i0 = 0) ∧
      (4 ≤ len.toNat → exec (.adpcmOptic len) s = .next t1 ∧ t1.result = .ic x0 i0) ∧
      runAll [.adpcmSetic x0 (BitVec.ofNat 8 i0), .adpcmHeader, .adpcmBody len] t1 = .next t2 ∧
      t2.out8 = s.out8 ++ bytes ∧ bytes.length = 3 + (len.toNat / 2 + 1) / 2 ∧
      exec (.adpcmEncode len) s = .next { t2 with stat := { s.stat with status := .ok }, result := .out8 bytes }) ∧
    (¬ s.Grants (3 + (len.toNat / 2 + 1) / 2) →
      ∃ o : Optimiser, exec (.adpcmEncode len) s = .next { s.exhausted with opt := o })

/-- R116, R112: an input of fewer than four bytes gives `[0, 0, 0]` and, when it holds a complete sample, one body byte:
that sample paired with itself from `(0, 0)`. -/
def Obligations.ShortInputSkipsTheOptimiser : Prop :=
  ∀ (s : State) (len : BitVec 32), len.toNat ≤ s.in8.length → len.toNat < 4 →
    (len.toNat < 2 → s.Grants 3 → exec (.adpcmEncode len) s =
      .next { s with adpcm := { s.adpcm with codec := ⟨0, 0⟩, half := false }, out8 := s.out8 ++ [0, 0, 0],
                     exhaust := s.exhaust.drop 3, stat := { s.stat with status := .ok },
                     result := .out8 [0, 0, 0] }) ∧
    (2 ≤ len.toNat → s.Grants 4 → ∃ (x : Sample) (t : State) (b : Byte),
      x = (inputSamples s len).getD 0 0 ∧
      exec (.adpcmPair x x) { s with adpcm := { s.adpcm with codec := ⟨0, 0⟩, half := false }, exhaust := [] } = .next t ∧
      t.result = .byte b ∧
      exec (.adpcmEncode len) s =
        .next { s with adpcm := t.adpcm, out8 := s.out8 ++ [0, 0, 0, b], exhaust := s.exhaust.drop 4,
                       stat := { s.stat with status := .ok }, result := .out8 [0, 0, 0, b] })

/-- R222: what `ADPCM.ENCODE` appends, the codec state it leaves and its `STATUS` do not depend on the launch state. -/
def Obligations.EncodeDoesNotDependOnTheLaunchState : Prop :=
  ∀ (s1 s2 t1 t2 : State) (len : BitVec 32), s1.in8 = s2.in8 → s1.cfg = s2.cfg → s1.Quiet → s2.Quiet →
    exec (.adpcmEncode len) s1 = .next t1 → exec (.adpcmEncode len) s2 = .next t2 →
    ∃ staged : List Byte, t1.out8 = s1.out8 ++ staged ∧ t2.out8 = s2.out8 ++ staged ∧
      t1.adpcm.codec = t2.adpcm.codec ∧ t1.adpcm.half = false ∧ t2.adpcm.half = false ∧
      t1.stat.status = .ok ∧ t2.stat.status = .ok

/-! ### The bit buffer -/

/-- R131, R136: `BB.RESET` empties the accumulator; `BB.GETCOUNT` returns the number of bits and writes nothing. -/
def Obligations.BitBufferResetAndCount : Prop :=
  ∀ s : State,
    exec .bbReset s = .next { s with blk := { s.blk with acc := [] }, result := .none } ∧
    exec .bbGetCount s = .next { s with result := .count s.blk.acc.length }

/-- R132: `BB.APPEND` adds the low `n` bits, the most significant first; more than 32 bits (U5) or an append beyond
`ACC_BITS` (R130, U6) has no step. Bits that the oracle refuses (R63, log entry 28) are in
`RefusedAppendUndoesTheOperation`. -/
def Obligations.AppendAddsBitsMostSignificantFirst : Prop :=
  ∀ (s : State) (v : BitVec 32) (n : BitVec 8),
    (n.toNat ≤ 32 → s.blk.acc.length + n.toNat ≤ s.cfg.accBits → s.Grants (bitAsks s.cfg n.toNat) → ∃ bits : List Bool,
      bits.length = n.toNat ∧ (∀ j < n.toNat, bits.getD j false = v.getLsbD (n.toNat - 1 - j)) ∧
      exec (.bbAppend v n) s = .next { s with blk := { s.blk with acc := s.blk.acc ++ bits },
                                              exhaust := s.exhaust.drop (bitAsks s.cfg n.toNat), result := .none }) ∧
    (32 < n.toNat → exec (.bbAppend v n) s = .refused .bitCountOutOfRange) ∧
    (n.toNat ≤ 32 → s.cfg.accBits < s.blk.acc.length + n.toNat → s.Grants (s.roomAsks n.toNat) →
      exec (.bbAppend v n) s = .refused .accumulatorFull)

/-- R133, R78: `BB.APPENDVAR` adds the groups of the value, least significant first, each after its flag, for a chunk of 1
to 32 bits. A chunk of 0 is refused (U5), and an append beyond `ACC_BITS` (U6). Bits that the oracle refuses (R63, log
entry 28) are in `RefusedAppendUndoesTheOperation`. -/
def Obligations.AppendVarAddsTheGroups : Prop :=
  ∀ (s : State) (v : BitVec 32) (chunk : BitVec 8),
    (1 ≤ chunk.toNat → chunk.toNat ≤ 32 →
      s.blk.acc.length + (varField chunk.toNat v.toNat).length ≤ s.cfg.accBits →
      s.Grants (bitAsks s.cfg (varField chunk.toNat v.toNat).length) →
      exec (.bbAppendVar v chunk) s =
        .next { s with blk := { s.blk with acc := s.blk.acc ++ varField chunk.toNat v.toNat },
                       exhaust := s.exhaust.drop (bitAsks s.cfg (varField chunk.toNat v.toNat).length),
                       result := .none }) ∧
    (chunk.toNat = 0 → exec (.bbAppendVar v chunk) s = .refused .chunkZero) ∧
    (1 ≤ chunk.toNat → chunk.toNat ≤ 32 →
      s.cfg.accBits < s.blk.acc.length + (varField chunk.toNat v.toNat).length →
      s.Grants (s.roomAsks (varField chunk.toNat v.toNat).length) →
      exec (.bbAppendVar v chunk) s = .refused .accumulatorFull)

/-- R134: `BB.FLUSH` moves the whole words of the accumulator, the oldest bit of each being bit 0, and leaves at most 15
bits; or it takes the condition when the payload cannot grow. -/
def Obligations.FlushMovesWholeWords : Prop :=
  ∀ s : State,
    (s.Grants (s.blk.acc.length / 16) → ∃ (ws : List Word) (left : List Bool),
      ws.flatMap wordBits ++ left = s.blk.acc ∧ left.length ≤ 15 ∧
      exec .bbFlush s = .next { s with blk := { s.blk with acc := left, payload := s.blk.payload ++ ws },
                                       exhaust := s.exhaust.drop ws.length, result := .words ws }) ∧
    (¬ s.Grants (s.blk.acc.length / 16) → exec .bbFlush s = .next s.exhausted)

/-- R135: `BB.FLUSHFINAL` moves everything, the last word padded with zeros in its high bits, and leaves no bit. -/
def Obligations.FlushFinalPadsWithZeros : Prop :=
  ∀ s : State,
    (s.Grants ((s.blk.acc.length + 15) / 16) → ∃ (ws : List Word) (pad : Nat),
      ws.flatMap wordBits = s.blk.acc ++ List.replicate pad false ∧ pad ≤ 15 ∧
      exec .bbFlushFinal s = .next { s with blk := { s.blk with acc := [], payload := s.blk.payload ++ ws },
                                            exhaust := s.exhaust.drop ws.length, result := .words ws }) ∧
    (¬ s.Grants ((s.blk.acc.length + 15) / 16) → exec .bbFlushFinal s = .next s.exhausted)

/-! ### DUB: codes -/

/-- R151, R79 to R81: the bits `DUB.PACK` adds for each type; INVALID (U2) and an append beyond `ACC_BITS` (U6) have no
step. A negative REF or REPEAT value is no operand of the rule. Bits that the oracle refuses (R63, log entry 28) are in
`RefusedAppendUndoesTheOperation`. -/
def Obligations.PackAddsTheBitsOfTheCode : Prop :=
  ∀ (s : State) (ty : CodeType) (v : BitVec 32),
    let bits : List Bool := match ty with
      | .delta => [false, decide (v.toInt < 0)] ++ varField 3 v.toInt.natAbs
      | .ref => [true] ++ varField 3 v.toInt.natAbs
      | .rept => varField 3 v.toInt.natAbs
      | .invalid => []
    (ty = .delta ∨ (ty = .ref ∨ ty = .rept) ∧ 0 ≤ v.toInt →
      (s.blk.acc.length + bits.length ≤ s.cfg.accBits → s.Grants (bitAsks s.cfg bits.length) →
        exec (.dubPack ty v) s = .next { s with blk := { s.blk with acc := s.blk.acc ++ bits },
                                                exhaust := s.exhaust.drop (bitAsks s.cfg bits.length),
                                                result := .none }) ∧
      (s.cfg.accBits < s.blk.acc.length + bits.length → s.Grants (s.roomAsks bits.length) →
        exec (.dubPack ty v) s = .refused .accumulatorFull)) ∧
    (ty = .invalid → exec (.dubPack ty v) s = .refused .invalidCode)

/-- R152: the length of a code in closed form; nothing changes, the accumulator included (R226), but the oracle's answers
to the bits measured (R63, log entry 28). -/
def Obligations.CodeLengthClosedForm : Prop :=
  ∀ (s : State) (v : BitVec 32),
    let gives (ty : CodeType) (n : Nat) : Prop := s.Grants (bitAsks s.cfg n) →
      exec (.dubCodeLen ty v) s = .next { s with exhaust := s.exhaust.drop (bitAsks s.cfg n), result := .bits n }
    gives .delta (2 + 4 * groupCount v.toInt.natAbs) ∧
    (0 ≤ v.toInt → gives .ref (1 + 4 * groupCount v.toInt.natAbs) ∧ gives .rept (4 * groupCount v.toInt.natAbs)) ∧
    exec (.dubCodeLen .invalid v) s = .refused .invalidCode

/-- The model's object rows of the DUB code forms (log entry 4): a form the encoder produces adds its header bits and the
field of its value, and has the number of groups the row gives it; a reserved form has no step (R83, log entry 25). The
dictionary is not looked at (log entry 27). -/
def Obligations.CodeFormsAddTheirBits : Prop :=
  ∀ (s : State) (neg : Bool) (m : Nat), ∀ f ∈ codeForms neg m,
    (f.2.2.2 = true → groupCount m = f.2.1 ∧
      (s.blk.acc.length + f.2.2.1.length + 4 * f.2.1 ≤ s.cfg.accBits →
        s.Grants (bitAsks s.cfg (f.2.2.1.length + 4 * f.2.1)) →
        exec f.1 s = .next { s with blk := { s.blk with acc := s.blk.acc ++ f.2.2.1 ++ varField 3 m },
                                    exhaust := s.exhaust.drop (bitAsks s.cfg (f.2.2.1.length + 4 * f.2.1)),
                                    result := .none })) ∧
    (m < 8 ^ f.2.1 → f.2.2.2 = false → exec f.1 s = .refused .reservedForm)

/-- R153: `DUB.CHOOSE` gives the tile itself as a DELTA in an empty dictionary, the difference to the last entry when the
tile is not in it, and else the REF to the most recent match exactly when its length (R152) is at most the DELTA's. It
measures the DELTA when there is a last entry, and the REF at a match; `chooseBits` is the bits measured, which ask the
oracle where R63 does (log entry 28). -/
def Obligations.ChooseFollowsTheMatcher : Prop :=
  ∀ (s : State) (tile : Tile), ∃ c : Code,
    (s.Grants (bitAsks s.cfg (chooseBits s.blk.dict tile)) → exec (.dubChoose tile) s = .next { s with
      exhaust := s.exhaust.drop (bitAsks s.cfg (chooseBits s.blk.dict tile)), result := .dubCode c }) ∧
    (s.blk.dict = [] → c = ⟨.delta, tile.toNat⟩ ∧ chooseBits s.blk.dict tile = 0) ∧
    (∀ last, s.blk.dict.getLast? = some last → tile ∉ s.blk.dict → c = ⟨.delta, (tile.toNat : Int) - last.toNat⟩ ∧
      chooseBits s.blk.dict tile = 2 + 4 * groupCount ((tile.toNat : Int) - last.toNat).natAbs) ∧
    (∀ last (i : Nat), s.blk.dict.getLast? = some last → i < s.blk.dict.length →
      s.blk.dict[s.blk.dict.length - 1 - i]? = some tile →
      (∀ j < i, s.blk.dict[s.blk.dict.length - 1 - j]? ≠ some tile) →
      (c = if 1 + 4 * groupCount i ≤ 2 + 4 * groupCount ((tile.toNat : Int) - last.toNat).natAbs then ⟨.ref, i⟩
          else ⟨.delta, (tile.toNat : Int) - last.toNat⟩) ∧
      (s.blk.dict.length ≤ 64 → chooseBits s.blk.dict tile =
        (2 + 4 * groupCount ((tile.toNat : Int) - last.toNat).natAbs) + (1 + 4 * groupCount i)))

/-! ### DUB: blocks -/

/-- R155: `DUB.BLOCKBEGIN` sets the per-block state and the bit buffer to their initial values. -/
def Obligations.BlockBeginStartsAFreshBlock : Prop :=
  ∀ s : State, exec .dubBlockBegin s = .next { s with
    blk := { acc := [], payload := [], dict := [], prevCode := ⟨.invalid, 0⟩, repeating := false, repeatCount := 0 }
    result := .none }

/-- R158, R159, the two cases that emit nothing by default: in a run an equal code is counted, outside a run it starts
one; the tile is appended and `prevCode` written. The 65th tile is refused (U7). The bits measured ask the oracle where R63
does (log entry 28). -/
def Obligations.TileExtendsOrStartsARun : Prop :=
  ∀ (s : State) (tile : Tile),
    (64 ≤ s.blk.dict.length → exec (.dubTile tile) s = .refused .dictionaryFull) ∧
    (s.blk.dict.length < 64 → choose s.blk.dict tile = s.blk.prevCode →
      s.Grants (1 + bitAsks s.cfg (chooseBits s.blk.dict tile)) →
      (s.blk.repeating = true → exec (.dubTile tile) s = .next { s with
        blk := { s.blk with repeatCount := s.blk.repeatCount + 1, dict := s.blk.dict ++ [tile] }
        exhaust := s.exhaust.drop (1 + bitAsks s.cfg (chooseBits s.blk.dict tile))
        result := .none }) ∧
      (s.blk.repeating = false → s.cfg.dubRunStartEmit = false → exec (.dubTile tile) s = .next { s with
        blk := { s.blk with repeating := true, repeatCount := 0, dict := s.blk.dict ++ [tile] }
        exhaust := s.exhaust.drop (1 + bitAsks s.cfg (chooseBits s.blk.dict tile))
        result := .none }))

/-- R158, R159, R157, the cases that emit: a different code outside a run; the code that starts a run when
`DUB_RUN_START_EMIT` is true; the REPEAT of the run and then the code when a run ends. Whole words go to the payload. A
code that the accumulator has no room for has no step (U6), unless the oracle has refused an append before it (R59, R203):
a word of the REPEAT, or, where R63 has the accumulators ask too (log entry 28), a bit measured or packed. -/
def Obligations.TileEmitsItsCode : Prop :=
  ∀ (s : State) (tile : Tile) (code : Code) (seen : Nat), code = choose s.blk.dict tile →
    seen = chooseBits s.blk.dict tile → s.blk.dict.length < 64 →
    (s.blk.repeating = false → code ≠ s.blk.prevCode ∨ s.cfg.dubRunStartEmit = true →
      s.blk.acc.length + (codeBits code).length ≤ s.cfg.accBits →
      s.Grants (1 + (s.blk.acc.length + (codeBits code).length) / 16 + bitAsks s.cfg (seen + (codeBits code).length)) →
      ∃ (ws : List Word) (left : List Bool),
        ws.flatMap wordBits ++ left = s.blk.acc ++ codeBits code ∧ left.length ≤ 15 ∧
        exec (.dubTile tile) s = .next { s with
          blk := { s.blk with
            acc := left
            payload := s.blk.payload ++ ws
            prevCode := code
            repeating := decide (code = s.blk.prevCode)
            repeatCount := if code = s.blk.prevCode then 0 else s.blk.repeatCount
            dict := s.blk.dict ++ [tile] }
          exhaust := s.exhaust.drop (1 + ws.length + bitAsks s.cfg (seen + (codeBits code).length))
          result := .none }) ∧
    (s.blk.repeating = true → code ≠ s.blk.prevCode → ∀ run : List Bool, run = codeBits ⟨.rept, s.blk.repeatCount⟩ →
      s.blk.acc.length + run.length ≤ s.cfg.accBits →
      (s.blk.acc.length + run.length) % 16 + (codeBits code).length ≤ s.cfg.accBits →
      s.Grants (1 + (s.blk.acc.length + run.length + (codeBits code).length) / 16 +
        bitAsks s.cfg (seen + run.length + (codeBits code).length)) →
      ∃ (ws : List Word) (left : List Bool),
        ws.flatMap wordBits ++ left = s.blk.acc ++ run ++ codeBits code ∧ left.length ≤ 15 ∧
        exec (.dubTile tile) s = .next { s with
          blk := { s.blk with
            acc := left
            payload := s.blk.payload ++ ws
            prevCode := code
            repeating := false
            dict := s.blk.dict ++ [tile] }
          exhaust := s.exhaust.drop (1 + ws.length + bitAsks s.cfg (seen + run.length + (codeBits code).length))
          result := .none }) ∧
    (s.blk.repeating = false → code ≠ s.blk.prevCode ∨ s.cfg.dubRunStartEmit = true →
      s.cfg.accBits < s.blk.acc.length + (codeBits code).length → ∀ n : Nat,
      n = bitAsks s.cfg seen + s.roomAsks (codeBits code).length →
      (s.Grants n → exec (.dubTile tile) s = .refused .accumulatorFull) ∧
      (¬ s.Grants n → exec (.dubTile tile) s = .next s.exhausted)) ∧
    (s.blk.repeating = true → code ≠ s.blk.prevCode → ∀ run : List Bool, run = codeBits ⟨.rept, s.blk.repeatCount⟩ →
      (s.cfg.accBits < s.blk.acc.length + run.length → ∀ n : Nat, n = bitAsks s.cfg seen + s.roomAsks run.length →
        (s.Grants n → exec (.dubTile tile) s = .refused .accumulatorFull) ∧
        (¬ s.Grants n → exec (.dubTile tile) s = .next s.exhausted)) ∧
      (s.blk.acc.length + run.length ≤ s.cfg.accBits →
        s.cfg.accBits < (s.blk.acc.length + run.length) % 16 + (codeBits code).length → ∀ n : Nat,
        n = (s.blk.acc.length + run.length) / 16 + bitAsks s.cfg (seen + run.length +
          min (codeBits code).length (s.cfg.accBits - (s.blk.acc.length + run.length) % 16 + 1)) →
        (s.Grants n → exec (.dubTile tile) s = .refused .accumulatorFull) ∧
        (¬ s.Grants n → exec (.dubTile tile) s = .next s.exhausted)))

/-- R160, R135: `DUB.BLOCKEND` adds the REPEAT of an open run, pads with zeros to a whole word, and returns the
payload. The bits of the REPEAT ask the oracle where R63 does (log entry 28). -/
def Obligations.BlockEndEmitsTheRunAndPads : Prop :=
  ∀ (s : State) (run : List Bool),
    run = (if s.blk.repeating then codeBits ⟨.rept, s.blk.repeatCount⟩ else []) →
    (s.blk.acc.length + run.length ≤ s.cfg.accBits →
      s.Grants ((s.blk.acc.length + run.length + 15) / 16 + bitAsks s.cfg run.length) →
      ∃ (ws : List Word) (pad : Nat),
        ws.flatMap wordBits = s.blk.acc ++ run ++ List.replicate pad false ∧ pad ≤ 15 ∧
        exec .dubBlockEnd s = .next { s with
          blk := { s.blk with acc := [], payload := s.blk.payload ++ ws, repeating := false }
          exhaust := s.exhaust.drop (ws.length + bitAsks s.cfg run.length)
          result := .payload (s.blk.payload ++ ws) }) ∧
    (s.blk.repeating = true → s.cfg.accBits < s.blk.acc.length + run.length →
      (s.Grants (s.roomAsks run.length) → exec .dubBlockEnd s = .refused .accumulatorFull) ∧
      (¬ s.Grants (s.roomAsks run.length) → exec .dubBlockEnd s = .next s.exhausted))

/-- R161: `DUB.BLOCK` is `DUB.BLOCKBEGIN`, `DUB.TILE` for every tile and `DUB.BLOCKEND`, for blocks of 1 to 64 tiles;
other counts are refused (U7). -/
def Obligations.BlockIsBeginTilesEnd : Prop :=
  ∀ (s : State) (ts : List Tile), s.Quiet →
    (1 ≤ ts.length → ts.length ≤ 64 →
      exec (.dubBlock ts) s = runAll (.dubBlockBegin :: ts.map .dubTile ++ [.dubBlockEnd]) s) ∧
    (ts.length = 0 ∨ 64 < ts.length → exec (.dubBlock ts) s = .refused .tileCountOutOfRange)

/-- R137, R162, R161: with an accumulator of 41 bits or more a block of 1 to 64 tiles always completes, whatever state it
starts from, and its payload has 1 to 104 words. Where bits ask the oracle (R63, log entry 28), a tile asks for at most 61:
35 measured (a DELTA of 26 and a REF of 9) and 26 of its code. -/
def Obligations.BlockCompletesWithinItsBounds : Prop :=
  ∀ (s : State) (ts : List Tile), 1 ≤ ts.length → ts.length ≤ 64 → 41 ≤ s.cfg.accBits →
    s.Grants (ts.length + 104 + bitAsks s.cfg (61 * ts.length)) →
    ∃ (b : Block) (n : Nat), 1 ≤ b.payload.length ∧ b.payload.length ≤ 104 ∧ b.acc = [] ∧ b.dict = ts ∧
      b.repeating = false ∧ n ≤ 61 * ts.length ∧
      exec (.dubBlock ts) s = .next { s with
        blk := b
        exhaust := s.exhaust.drop (ts.length + b.payload.length + bitAsks s.cfg n)
        result := .payload b.payload }

/-! ### DUB: assets -/

/-- R182: `DUB.DEDUP` returns the offset of an equal payload, or appends a new one at the end of the block data and stores
it there; either way the offset is appended to the index array. What it leaves of the oracle's answers is not constrained
(log entry 8). That a payload of more than 104 words, the largest count R87 notes, has this effect too is the model's
choice (log entry 29). -/
def Obligations.DedupStoresEachPayloadOnce : Prop :=
  ∀ (s : State) (p : List Word), s.Quiet → ∃ ex : List Bool,
    ((∀ e ∈ s.asset.store, e.1 ≠ p) → exec (.dubDedup p) s = .next { s with
      asset := { s.asset with
        store := s.asset.store ++ [(p, s.asset.blockData.length)]
        blockData := s.asset.blockData ++ p
        offsets := s.asset.offsets ++ [s.asset.blockData.length] }
      exhaust := ex
      result := .offset s.asset.blockData.length }) ∧
    ((s.asset.store.map (·.1)).Nodup → ∀ o, (p, o) ∈ s.asset.store →
      exec (.dubDedup p) s = .next { s with
        asset := { s.asset with offsets := s.asset.offsets ++ [o] }
        exhaust := ex
        result := .offset o })

/-- R184, R185: `DUB.INDEXSEL` takes the 16-bit form exactly when some packed value of the 8-bit form is 256 or more, and
writes the size and the packed values of the form it takes. -/
def Obligations.IndexSelectionFollowsTheProbe : Prop :=
  ∀ s : State, ∃ (wide : Bool) (size : Nat) (packed : List Nat),
    exec .dubIndexSel s = .next { s with
      asset := { s.asset with isIndex16 := wide, indexSize := size, packed := packed }
      result := .index wide size packed } ∧
    (wide = true ↔ ∃ (i o : Nat), s.asset.offsets[i]? = some o ∧
      256 ≤ (((s.asset.offsets.length + 1) / 2 + o : Nat) : Int) - ((i + 2) / 2 : Nat)) ∧
    size = (if wide then s.asset.offsets.length else (s.asset.offsets.length + 1) / 2) ∧
    packed.length = s.asset.offsets.length ∧
    ∀ (i o : Nat), s.asset.offsets[i]? = some o → ∃ q : Nat, packed[i]? = some q ∧
      (q : Int) = size + o - (if wide then (i : Int) + 1 else ((i + 2) / 2 : Nat))

/-- R181, R53: the blocks in (frame, block-row, block-column) order, each the tiles of its rows and columns clipped to
the frame, in row-major order. -/
def Obligations.BlocksCoverTheFrameInOrder : Prop :=
  ∀ (tiles : List Tile) (w h f : Nat),
    assetBlocks tiles w h f = (List.range f).flatMap fun fr => (List.range ((h + 7) / 8)).flatMap fun y8 =>
      (List.range ((w + 7) / 8)).map fun x8 =>
        ((List.range h).filter fun y => 8 * y8 ≤ y && y < 8 * y8 + 8).flatMap fun y =>
          ((List.range w).filter fun x => 8 * x8 ≤ x && x < 8 * x8 + 8).map fun x =>
            tiles.getD (fr * w * h + y * w + x) 0

/-- R188, R186, R187, R189: `DUB.ENCODE` is its finer operations from an empty asset; then, with fewer than 65536 words,
the index region and the block data are appended to `OUT16` and the registers written, and otherwise nothing but
`STATUS`, which says TOO_LARGE. Word `i` of a 16-bit region is `packed[i]` and word `k` of an 8-bit one the byte of
`packed[2k]` and 256 times that of `packed[2k+1]`, a byte past the end being zero. On a condition nothing is appended. What
is left of the per-block and per-asset state and of the oracle's answers is not constrained. That the operation returns the
words it appended is the model's choice (log entry 11). -/
def Obligations.AssetEncodeIsItsFinerOperations : Prop :=
  (∀ (s t : State) (w h f : Nat) (c : Condition), exec (.dubEncode w h f) s = .next t → t.result = .condition c →
    t.out16 = s.out16) ∧
  ∀ (s : State) (w h f : Nat), s.Quiet → w < 2 ^ s.cfg.dimBits → h < 2 ^ s.cfg.dimBits → f < 2 ^ s.cfg.dimBits →
    s.tiles.length = w * h * f →
    (41 ≤ s.cfg.accBits → (assetByOperations (assetBlocks s.tiles w h f) { s with asset := Asset.empty }).isSome) ∧
    ∀ t, assetByOperations (assetBlocks s.tiles w h f) { s with asset := Asset.empty } = some t →
      ∃ (b : Block) (a : Asset) (ex : List Bool) (region : List Word),
        region.length = t.asset.indexSize ∧
        (∀ k < t.asset.indexSize, (region.getD k 0).toNat =
          if t.asset.isIndex16 then t.asset.packed.getD k 0 % 65536
          else t.asset.packed.getD (2 * k) 0 % 256 + 256 * (t.asset.packed.getD (2 * k + 1) 0 % 256)) ∧
        (t.asset.indexSize + t.asset.blockData.length < 65536 → exec (.dubEncode w h f) s = .next { s with
          blk := b
          asset := a
          exhaust := ex
          out16 := s.out16 ++ (region ++ t.asset.blockData)
          stat := {
            status := .ok
            statTiles := w * h * f
            statWords := BitVec.ofNat 16 (t.asset.indexSize + t.asset.blockData.length)
            statRatio := if w * h * f = 0 then none else
              some (100 - ((t.asset.indexSize + t.asset.blockData.length : Nat) : Rat) * 100 / (w * h * f : Nat))
            isIndex16 := t.asset.isIndex16
            indexSize := BitVec.ofNat 16 t.asset.indexSize }
          result := .out16 (region ++ t.asset.blockData) }) ∧
        (65536 ≤ t.asset.indexSize + t.asset.blockData.length → exec (.dubEncode w h f) s = .next { s with
          blk := b
          asset := a
          exhaust := ex
          stat := { s.stat with status := .tooLarge }
          result := .condition .tooLarge })

/-- R188: with at most 624 blocks' worth of words, so that the worst case of R162 stays below 65536 words, `DUB.ENCODE`
completes with `STATUS` OK, whatever the tiles: it appends what it returns and writes the registers. -/
def Obligations.AssetEncodeCompletesBelowTheLimit : Prop :=
  ∀ (s : State) (w h f : Nat), s.Quiet → 41 ≤ s.cfg.accBits →
    w < 2 ^ s.cfg.dimBits → h < 2 ^ s.cfg.dimBits → f < 2 ^ s.cfg.dimBits → s.tiles.length = w * h * f →
    105 * ((w + 7) / 8 * ((h + 7) / 8) * f) < 65536 →
    ∃ (b : Block) (a : Asset) (ex : List Bool) (out : List Word) (regs : Status),
      exec (.dubEncode w h f) s = .next { s with
        blk := b
        asset := a
        exhaust := ex
        out16 := s.out16 ++ out
        stat := regs
        result := .out16 out } ∧
      regs.status = .ok ∧ regs.statTiles = w * h * f ∧ regs.statWords.toNat = out.length

/-- U3, R180: `DUB.ENCODE` with a tile array of another length, or with a dimension of more than `DIM_BITS` bits. -/
def Obligations.AssetEncodeRefusesOtherOperands : Prop :=
  ∀ (s : State) (w h f : Nat),
    (2 ^ s.cfg.dimBits ≤ w ∨ 2 ^ s.cfg.dimBits ≤ h ∨ 2 ^ s.cfg.dimBits ≤ f →
      exec (.dubEncode w h f) s = .refused .dimensionTooWide) ∧
    (w < 2 ^ s.cfg.dimBits → h < 2 ^ s.cfg.dimBits → f < 2 ^ s.cfg.dimBits → s.tiles.length ≠ w * h * f →
      exec (.dubEncode w h f) s = .refused .tilesLengthMismatch)

/-- R190: with a zero dimension nothing is appended and the registers describe an empty asset. -/
def Obligations.EmptyAssetGivesNoOutput : Prop :=
  ∀ (s : State) (w h f : Nat), w < 2 ^ s.cfg.dimBits → h < 2 ^ s.cfg.dimBits → f < 2 ^ s.cfg.dimBits →
    s.tiles = [] → (w = 0 ∨ h = 0 ∨ f = 0) → ∃ (b : Block) (a : Asset),
      exec (.dubEncode w h f) s = .next { s with
        blk := b
        asset := a
        stat := { status := .ok, statTiles := 0, statWords := 0, statRatio := none, isIndex16 := false, indexSize := 0 }
        result := .out16 [] }

/-- R191, R184, R186: in a finished asset the entry of every block, read from the output at the width `IS_INDEX16` says,
leads from the word after its slot to that block's payload, which lies behind the index region. -/
def Obligations.IndexLeadsToEveryPayload : Prop :=
  ∀ (s t : State) (w h f : Nat) (out : List Word),
    exec (.dubEncode w h f) s = .next t → t.result = .out16 out →
    out.length = t.stat.statWords.toNat ∧ t.out16 = s.out16 ++ out ∧
    ∀ (i : Nat) (ts : List Tile), (assetBlocks s.tiles w h f)[i]? = some ts →
      ∃ (b : Block), runBlock s.cfg ts = .ok b ∧
        t.stat.indexSize.toNat ≤ nextWord t.stat.isIndex16 i + indexEntry t.stat.isIndex16 out i ∧
        (out.drop (nextWord t.stat.isIndex16 i + indexEntry t.stat.isIndex16 out i)).take b.payload.length = b.payload

/-- R222: what `DUB.ENCODE` appends to `OUT16`, its registers and its `STATUS` do not depend on the launch state. -/
def Obligations.AssetEncodeDoesNotDependOnTheLaunchState : Prop :=
  ∀ (s1 s2 t1 t2 : State) (w h f : Nat), s1.tiles = s2.tiles → s1.cfg = s2.cfg → s1.Quiet → s2.Quiet →
    exec (.dubEncode w h f) s1 = .next t1 → exec (.dubEncode w h f) s2 = .next t2 →
    ∃ staged : List Word, t1.out16 = s1.out16 ++ staged ∧ t2.out16 = s2.out16 ++ staged ∧
      t1.result = t2.result ∧ (t1.stat.status = .ok → t1.stat = t2.stat) ∧ t1.stat.status = t2.stat.status

/-! ### The outputs read with another width -/

/-- R55, R54: word `a` of `OUT16` is the bytes `2a`, low, and `2a + 1`, high; bit `j` of a word list's stream is bit
`j mod 8` of its byte `j div 8`; entry `2k` of an 8-bit index is the low byte of index word `k`, entry `2k + 1` the high
one. Either output, read at any width, is the little-endian number of those bytes (R12, R56). -/
def Obligations.OutputsReadAsTheirBytes : Prop :=
  (∀ s : State,
    s.out16Bytes.length = 2 * s.out16.length ∧
    (∀ (a : Nat) (w : Word), s.out16[a]? = some w →
      s.out16Bytes[2 * a]? = some (w.extractLsb' 0 8) ∧ s.out16Bytes[2 * a + 1]? = some (w.extractLsb' 8 8)) ∧
    (∀ addr n : Nat, addr + n ≤ s.out16Bytes.length → s.readOut16 addr n =
      some ((List.range n).map fun i => (s.out16Bytes.getD (addr + i) 0).toNat * 256 ^ i).sum) ∧
    (∀ addr n : Nat, addr + n ≤ s.out8.length → s.readOut8 addr n =
      some ((List.range n).map fun i => (s.out8.getD (addr + i) 0).toNat * 256 ^ i).sum)) ∧
  (∀ (ws : List Word) (j : Nat), j < 16 * ws.length →
    (ws.flatMap wordBits).getD j false = ((leWords ws).getD (j / 8) 0).getLsbD (j % 8)) ∧
  (∀ a : Asset, a.isIndex16 = false → ∀ k, 2 * k < a.packed.length →
    ((a.indexRegion.getD k 0).extractLsb' 0 8).toNat = a.packed.getD (2 * k) 0 % 256 ∧
    ((a.indexRegion.getD k 0).extractLsb' 8 8).toNat = a.packed.getD (2 * k + 1) 0 % 256)

/-! ### Conditions and whole-machine rules -/

/-- R203, R204, for every operation that appends: when the oracle refuses one of its appends, everything is as it was but
`STATUS` and the value returned; the optimiser registers after `ADPCM.ENCODE` and the per-block and per-asset state after
`DUB.ENCODE`, which R204 discards, are not constrained. `DUB.BLOCK` and `DUB.ENCODE` take the condition at the append that
is refused, also where a later code would have no room in the accumulator (R59, R208). The appends are counted on the same
operations with the default oracle; that the dictionary, the payload, the store, the block data, the offsets and the staged
words are what is counted, and what is left of the answers, is log entry 8. The two accumulators count bit by bit where R63
has their growth fail (log entry 28); where R203's list is whole, the operations that append to nothing else never take a
condition. That `DUB.DEDUP` does so for more than 104 words too is log entry 29. -/
def Obligations.RefusedAppendUndoesTheOperation : Prop :=
  ∀ s : State,
    (∀ c : Nybble, s.adpcm.half = true → ¬ s.Grants 1 → exec (.adpcmPut (c.setWidth 8)) s = .next s.exhausted) ∧
    (∀ x0 x1, s.adpcm.half = false → ¬ s.Grants 1 → exec (.adpcmPair x0 x1) s = .next s.exhausted) ∧
    (∀ len : BitVec 32, s.adpcm.half = false → len.toNat ≤ s.in8.length → ¬ s.Grants ((len.toNat / 2 + 1) / 2) →
      exec (.adpcmBody len) s = .next s.exhausted) ∧
    (¬ s.Grants 3 → exec .adpcmHeader s = .next s.exhausted) ∧
    (∀ len : BitVec 32, len.toNat ≤ s.in8.length → ¬ s.Grants (3 + (len.toNat / 2 + 1) / 2) →
      ∃ o : Optimiser, exec (.adpcmEncode len) s = .next { s.exhausted with opt := o }) ∧
    (∀ h l : Nybble, ¬ s.Grants 1 → exec (.adpcmBodyByte h l) s = .next s.exhausted) ∧
    (∀ (x : Sample) (b : BitVec 8), b.toNat ≤ 88 → ¬ s.Grants 3 →
      exec (.adpcmHeaderBytes x b) s = .next s.exhausted) ∧
    (¬ s.Grants (s.blk.acc.length / 16) → exec .bbFlush s = .next s.exhausted) ∧
    (¬ s.Grants ((s.blk.acc.length + 15) / 16) → exec .bbFlushFinal s = .next s.exhausted) ∧
    (∀ p : List Word, (∀ e ∈ s.asset.store, e.1 ≠ p) → ¬ s.Grants (p.length + 2) →
      exec (.dubDedup p) s = .next s.exhausted) ∧
    (∀ (p : List Word) (o : Nat), (p, o) ∈ s.asset.store → ¬ s.Grants 1 →
      exec (.dubDedup p) s = .next s.exhausted) ∧
    (∀ h l : BitVec 8, ¬ s.Grants 1 → exec (.dubIndex8 h l) s = .next s.exhausted) ∧
    (∀ p : BitVec 16, ¬ s.Grants 1 → exec (.dubIndex16 p) s = .next s.exhausted) ∧
    (∀ (v : BitVec 32) (n : BitVec 8), n.toNat ≤ 32 → ¬ s.Grants (s.roomAsks n.toNat) →
      exec (.bbAppend v n) s = .next s.exhausted) ∧
    (∀ (v : BitVec 32) (c : BitVec 8), 1 ≤ c.toNat → c.toNat ≤ 32 →
      ¬ s.Grants (s.roomAsks (varField c.toNat v.toNat).length) → exec (.bbAppendVar v c) s = .next s.exhausted) ∧
    (∀ (ty : CodeType) (v : BitVec 32), ty = .delta ∨ (ty = .ref ∨ ty = .rept) ∧ 0 ≤ v.toInt →
      (¬ s.Grants (s.roomAsks (codeBits ⟨ty, v.toInt⟩).length) → exec (.dubPack ty v) s = .next s.exhausted) ∧
      (¬ s.Grants (bitAsks s.cfg (codeBits ⟨ty, v.toInt⟩).length) → exec (.dubCodeLen ty v) s = .next s.exhausted)) ∧
    (∀ tile : Tile, ¬ s.Grants (bitAsks s.cfg (chooseBits s.blk.dict tile)) →
      exec (.dubChoose tile) s = .next s.exhausted) ∧
    (∀ (neg : Bool) (m : Nat), ∀ f ∈ codeForms neg m, f.2.2.2 = true →
      ¬ s.Grants (s.roomAsks (f.2.2.1.length + 4 * f.2.1)) → exec f.1 s = .next s.exhausted) ∧
    (s.cfg.exhaustAccumulators = false → ∀ (i : Instr) (t : State) (c : Condition), i.growsOnlyBits = true →
      exec i s = .next t → t.result ≠ .condition c) ∧
    (∀ (i : Instr) (u : State), i = .dubBlockEnd ∨ (∃ tile, i = .dubTile tile) → exec i s.silent = .next u →
      ¬ s.Grants ((u.blk.dict.length - s.blk.dict.length) + (u.blk.payload.length - s.blk.payload.length) +
        bitAsks s.cfg (s.bitsPut u i)) →
      exec i s = .next s.exhausted) ∧
    (∀ (ts : List Tile) (js : List Instr) (u : State), 1 ≤ ts.length → ts.length ≤ 64 →
      js <+: ts.map .dubTile ++ [.dubBlockEnd] → runAll (.dubBlockBegin :: js) s.silent = .next u →
      ¬ s.Grants (u.blk.dict.length + u.blk.payload.length +
        bitAsks s.cfg (State.runBits (.dubBlockBegin :: js) s.silent)) → exec (.dubBlock ts) s = .next s.exhausted) ∧
    (∀ w h f : Nat, w < 2 ^ s.cfg.dimBits → h < 2 ^ s.cfg.dimBits → f < 2 ^ s.cfg.dimBits → s.tiles.length = w * h * f →
      (∀ (bs1 bs2 : List (List Tile)) (ts : List Tile) (js : List Instr) (t u : State),
        assetBlocks s.tiles w h f = bs1 ++ ts :: bs2 →
        assetByOperations bs1 { s.silent with asset := Asset.empty } = some t →
        js <+: ts.map .dubTile ++ [.dubBlockEnd] → runAll (.dubBlockBegin :: js) t = .next u →
        ¬ s.Grants (s.assetAppends bs1 t.asset + (u.blk.dict.length + u.blk.payload.length +
          bitAsks s.cfg (State.runBits (.dubBlockBegin :: js) t))) →
        ∃ (b : Block) (a : Asset), exec (.dubEncode w h f) s = .next { s.exhausted with blk := b, asset := a }) ∧
      (∀ t : State, assetByOperations (assetBlocks s.tiles w h f) { s.silent with asset := Asset.empty } = some t →
        ¬ s.Grants (s.assetAppends (assetBlocks s.tiles w h f) t.asset +
          if t.asset.indexSize + t.asset.blockData.length < 65536 then t.asset.indexSize + t.asset.blockData.length
          else 0) →
        ∃ (b : Block) (a : Asset), exec (.dubEncode w h f) s = .next { s.exhausted with blk := b, asset := a }))

/-- R209, with R204, R202 and R201, over every instruction: when a condition is returned, it is TOO_LARGE of `DUB.ENCODE` or
RESOURCE_EXHAUSTED, `STATUS` has its code, and no other effect is visible; the scoped state that R204 discards, the
optimiser registers of `ADPCM.ENCODE` and the per-block and per-asset state of `DUB.ENCODE`, is not constrained. -/
def Obligations.ConditionsArePrecise : Prop :=
  ∀ (i : Instr) (s t : State) (c : Condition), exec i s = .next t → t.result = .condition c →
    (c = .resourceExhausted ∨ c = .tooLarge ∧ ∃ w h f, i = .dubEncode w h f) ∧
    ∃ (o : Optimiser) (b : Block) (a : Asset),
      t = { s with opt := o, blk := b, asset := a, exhaust := t.exhaust, stat := { s.stat with status := c },
                   result := .condition c } ∧
      ((∀ l, i ≠ .adpcmEncode l) → o = s.opt) ∧
      ((∀ w h f, i ≠ .dubEncode w h f) → b = s.blk ∧ a = s.asset)

/-- R50, R58, R34, over every instruction: the output buffers are only appended to, and the input buffers, the parameters
and the operations still to come are not written. -/
def Obligations.OutputsOnlyGrowAndInputsStay : Prop :=
  ∀ (i : Instr) (s t : State), exec i s = .next t →
    s.out8 <+: t.out8 ∧ s.out16 <+: t.out16 ∧ t.in8 = s.in8 ∧ t.tiles = s.tiles ∧ t.cfg = s.cfg ∧ t.bus = s.bus

/-- R2 "Codecs share no state", over every instruction but `SYS.RESET`: unit ADPCM leaves the bit buffer, unit DUB and its
output alone, and the others leave unit ADPCM, the optimiser and its output alone. -/
def Obligations.CodecsShareNoState : Prop :=
  ∀ (i : Instr) (s t : State), i ≠ .sysReset → exec i s = .next t →
    if i.isAdpcm then t.blk = s.blk ∧ t.asset = s.asset ∧ t.out16 = s.out16
    else t.adpcm = s.adpcm ∧ t.opt = s.opt ∧ t.out8 = s.out8

/-- R21, over every instruction: `sample` and `index` are written by `ADPCM.SETIC`, the per-sample step and what runs
them (and by `SYS.RESET`), and by nothing else. -/
def Obligations.OnlySeticAndStepsWriteTheCodec : Prop :=
  ∀ (i : Instr) (s t : State), exec i s = .next t → t.adpcm.codec ≠ s.adpcm.codec →
    i = .sysReset ∨ (∃ x b, i = .adpcmSetic x b) ∨ (∃ x, i = .adpcmStep x) ∨ (∃ x y, i = .adpcmPair x y) ∨
    (∃ l, i = .adpcmBody l) ∨ (∃ l, i = .adpcmEncode l) ∨ ∃ p ∈ codeRows, i = p.1

/-- R29, R213: the registers of R29 are written by the two top-level operations and `SYS.RESET`; any other operation
changes at most `STATUS`, and only to RESOURCE_EXHAUSTED, on returning that condition, which an oracle that refuses nothing
never makes it do (R203, R204). That one that succeeds leaves `STATUS` is log entry 10. -/
def Obligations.OnlyTopLevelOperationsWriteTheRegisters : Prop :=
  ∀ (i : Instr) (s t : State), exec i s = .next t → i ≠ .sysReset → (∀ w h f, i ≠ .dubEncode w h f) →
    t.stat = { s.stat with status := t.stat.status } ∧
    ((∀ l, i ≠ .adpcmEncode l) → t.stat.status = s.stat.status ∨
      t.stat.status = .resourceExhausted ∧ t.result = .condition .resourceExhausted ∧ ¬ s.Quiet)

/-- The invariant of the state (R21 to R29, R162, R182, R191, R189, R201) is kept by every step. -/
def Obligations.StepKeepsTheInvariant : Prop :=
  ∀ s t : State, s.Inv → step s = .next t → t.Inv

/-- The invariant holds after reset. -/
def Obligations.ResetMeetsTheInvariant : Prop := State.reset.Inv
end

