-- ==== Sys2Proof/Laws/State.lean ====
section
/-! SUPPORT. One lemma per field per update of the state. -/
namespace Sys2Proof.Machine

/-! ### `State.returning` -/
@[simp] theorem State.returning_adpcm (s : State) (r : Result) : (s.returning r).adpcm = s.adpcm := rfl
@[simp] theorem State.returning_opt (s : State) (r : Result) : (s.returning r).opt = s.opt := rfl
@[simp] theorem State.returning_blk (s : State) (r : Result) : (s.returning r).blk = s.blk := rfl
@[simp] theorem State.returning_asset (s : State) (r : Result) : (s.returning r).asset = s.asset := rfl
@[simp] theorem State.returning_stat (s : State) (r : Result) : (s.returning r).stat = s.stat := rfl
@[simp] theorem State.returning_in8 (s : State) (r : Result) : (s.returning r).in8 = s.in8 := rfl
@[simp] theorem State.returning_tiles (s : State) (r : Result) : (s.returning r).tiles = s.tiles := rfl
@[simp] theorem State.returning_out8 (s : State) (r : Result) : (s.returning r).out8 = s.out8 := rfl
@[simp] theorem State.returning_out16 (s : State) (r : Result) : (s.returning r).out16 = s.out16 := rfl
@[simp] theorem State.returning_cfg (s : State) (r : Result) : (s.returning r).cfg = s.cfg := rfl
@[simp] theorem State.returning_exhaust (s : State) (r : Result) : (s.returning r).exhaust = s.exhaust := rfl
@[simp] theorem State.returning_bus (s : State) (r : Result) : (s.returning r).bus = s.bus := rfl
@[simp] theorem State.returning_result (s : State) (r : Result) : (s.returning r).result = r := rfl

/-! ### `State.append8` -/
@[simp] theorem State.append8_adpcm (s : State) (bytes : List Byte) : (s.append8 bytes).adpcm = s.adpcm := rfl
@[simp] theorem State.append8_opt (s : State) (bytes : List Byte) : (s.append8 bytes).opt = s.opt := rfl
@[simp] theorem State.append8_blk (s : State) (bytes : List Byte) : (s.append8 bytes).blk = s.blk := rfl
@[simp] theorem State.append8_asset (s : State) (bytes : List Byte) : (s.append8 bytes).asset = s.asset := rfl
@[simp] theorem State.append8_stat (s : State) (bytes : List Byte) : (s.append8 bytes).stat = s.stat := rfl
@[simp] theorem State.append8_in8 (s : State) (bytes : List Byte) : (s.append8 bytes).in8 = s.in8 := rfl
@[simp] theorem State.append8_tiles (s : State) (bytes : List Byte) : (s.append8 bytes).tiles = s.tiles := rfl
@[simp] theorem State.append8_out8 (s : State) (bytes : List Byte) : (s.append8 bytes).out8 = s.out8 ++ bytes := rfl
@[simp] theorem State.append8_out16 (s : State) (bytes : List Byte) : (s.append8 bytes).out16 = s.out16 := rfl
@[simp] theorem State.append8_cfg (s : State) (bytes : List Byte) : (s.append8 bytes).cfg = s.cfg := rfl
@[simp] theorem State.append8_exhaust (s : State) (bytes : List Byte) : (s.append8 bytes).exhaust = s.exhaust := rfl
@[simp] theorem State.append8_bus (s : State) (bytes : List Byte) : (s.append8 bytes).bus = s.bus := rfl
@[simp] theorem State.append8_result (s : State) (bytes : List Byte) : (s.append8 bytes).result = s.result := rfl

/-! ### `State.append16` -/
@[simp] theorem State.append16_adpcm (s : State) (ws : List Word) : (s.append16 ws).adpcm = s.adpcm := rfl
@[simp] theorem State.append16_opt (s : State) (ws : List Word) : (s.append16 ws).opt = s.opt := rfl
@[simp] theorem State.append16_blk (s : State) (ws : List Word) : (s.append16 ws).blk = s.blk := rfl
@[simp] theorem State.append16_asset (s : State) (ws : List Word) : (s.append16 ws).asset = s.asset := rfl
@[simp] theorem State.append16_stat (s : State) (ws : List Word) : (s.append16 ws).stat = s.stat := rfl
@[simp] theorem State.append16_in8 (s : State) (ws : List Word) : (s.append16 ws).in8 = s.in8 := rfl
@[simp] theorem State.append16_tiles (s : State) (ws : List Word) : (s.append16 ws).tiles = s.tiles := rfl
@[simp] theorem State.append16_out8 (s : State) (ws : List Word) : (s.append16 ws).out8 = s.out8 := rfl
@[simp] theorem State.append16_out16 (s : State) (ws : List Word) : (s.append16 ws).out16 = s.out16 ++ ws := rfl
@[simp] theorem State.append16_cfg (s : State) (ws : List Word) : (s.append16 ws).cfg = s.cfg := rfl
@[simp] theorem State.append16_exhaust (s : State) (ws : List Word) : (s.append16 ws).exhaust = s.exhaust := rfl
@[simp] theorem State.append16_bus (s : State) (ws : List Word) : (s.append16 ws).bus = s.bus := rfl
@[simp] theorem State.append16_result (s : State) (ws : List Word) : (s.append16 ws).result = s.result := rfl

/-! ### `State.releaseDub` -/
@[simp] theorem State.releaseDub_adpcm (s : State) : (s.releaseDub).adpcm = s.adpcm := rfl
@[simp] theorem State.releaseDub_opt (s : State) : (s.releaseDub).opt = s.opt := rfl
@[simp] theorem State.releaseDub_blk (s : State) : (s.releaseDub).blk = Block.fresh := rfl
@[simp] theorem State.releaseDub_asset (s : State) : (s.releaseDub).asset = Asset.empty := rfl
@[simp] theorem State.releaseDub_stat (s : State) : (s.releaseDub).stat = s.stat := rfl
@[simp] theorem State.releaseDub_in8 (s : State) : (s.releaseDub).in8 = s.in8 := rfl
@[simp] theorem State.releaseDub_tiles (s : State) : (s.releaseDub).tiles = s.tiles := rfl
@[simp] theorem State.releaseDub_out8 (s : State) : (s.releaseDub).out8 = s.out8 := rfl
@[simp] theorem State.releaseDub_out16 (s : State) : (s.releaseDub).out16 = s.out16 := rfl
@[simp] theorem State.releaseDub_cfg (s : State) : (s.releaseDub).cfg = s.cfg := rfl
@[simp] theorem State.releaseDub_exhaust (s : State) : (s.releaseDub).exhaust = s.exhaust := rfl
@[simp] theorem State.releaseDub_bus (s : State) : (s.releaseDub).bus = s.bus := rfl
@[simp] theorem State.releaseDub_result (s : State) : (s.releaseDub).result = s.result := rfl

/-! ### `State.supplied` -/
@[simp] theorem State.supplied_adpcm (s : State) (u : Supply) : (s.supplied u).adpcm = s.adpcm := rfl
@[simp] theorem State.supplied_opt (s : State) (u : Supply) : (s.supplied u).opt = s.opt := rfl
@[simp] theorem State.supplied_blk (s : State) (u : Supply) : (s.supplied u).blk = s.blk := rfl
@[simp] theorem State.supplied_asset (s : State) (u : Supply) : (s.supplied u).asset = s.asset := rfl
@[simp] theorem State.supplied_stat (s : State) (u : Supply) : (s.supplied u).stat = s.stat := rfl
@[simp] theorem State.supplied_in8 (s : State) (u : Supply) : (s.supplied u).in8 = u.in8.getD s.in8 := rfl
@[simp] theorem State.supplied_tiles (s : State) (u : Supply) : (s.supplied u).tiles = u.tiles.getD s.tiles := rfl
@[simp] theorem State.supplied_out8 (s : State) (u : Supply) : (s.supplied u).out8 = u.out8.getD s.out8 := rfl
@[simp] theorem State.supplied_out16 (s : State) (u : Supply) : (s.supplied u).out16 = u.out16.getD s.out16 := rfl
@[simp] theorem State.supplied_cfg (s : State) (u : Supply) : (s.supplied u).cfg = s.cfg := rfl
@[simp] theorem State.supplied_exhaust (s : State) (u : Supply) : (s.supplied u).exhaust = s.exhaust := rfl
@[simp] theorem State.supplied_bus (s : State) (u : Supply) : (s.supplied u).bus = s.bus := rfl
@[simp] theorem State.supplied_result (s : State) (u : Supply) : (s.supplied u).result = s.result := rfl

/-! ### `State.withFetchWord` -/
@[simp] theorem State.withFetchWord_adpcm (s : State) (nbits w : Nat) : (s.withFetchWord nbits w).adpcm = s.adpcm := rfl
@[simp] theorem State.withFetchWord_opt (s : State) (nbits w : Nat) : (s.withFetchWord nbits w).opt = s.opt := rfl
@[simp] theorem State.withFetchWord_blk (s : State) (nbits w : Nat) : (s.withFetchWord nbits w).blk = s.blk := rfl
@[simp] theorem State.withFetchWord_asset (s : State) (nbits w : Nat) : (s.withFetchWord nbits w).asset = s.asset := rfl
@[simp] theorem State.withFetchWord_stat (s : State) (nbits w : Nat) : (s.withFetchWord nbits w).stat = s.stat := rfl
@[simp] theorem State.withFetchWord_in8 (s : State) (nbits w : Nat) : (s.withFetchWord nbits w).in8 = s.in8 := rfl
@[simp] theorem State.withFetchWord_tiles (s : State) (nbits w : Nat) : (s.withFetchWord nbits w).tiles = s.tiles := rfl
@[simp] theorem State.withFetchWord_out8 (s : State) (nbits w : Nat) : (s.withFetchWord nbits w).out8 = s.out8 := rfl
@[simp] theorem State.withFetchWord_out16 (s : State) (nbits w : Nat) : (s.withFetchWord nbits w).out16 = s.out16 := rfl
@[simp] theorem State.withFetchWord_cfg (s : State) (nbits w : Nat) : (s.withFetchWord nbits w).cfg = s.cfg := rfl
@[simp] theorem State.withFetchWord_exhaust (s : State) (nbits w : Nat) : (s.withFetchWord nbits w).exhaust = s.exhaust := rfl
@[simp] theorem State.withFetchWord_bus (s : State) (nbits w : Nat) : (s.withFetchWord nbits w).bus = { packet := tablePacket s.cfg nbits w } :: s.bus := rfl
@[simp] theorem State.withFetchWord_result (s : State) (nbits w : Nat) : (s.withFetchWord nbits w).result = s.result := rfl

/-! ### Condition entry -/
@[simp] theorem State.discardScoped_finer (s : State) : s.discardScoped .finer = s := rfl
@[simp] theorem State.discardScoped_adpcmEncode (s : State) : s.discardScoped .adpcmEncode = s := rfl
@[simp] theorem State.discardScoped_dubEncode (s : State) : s.discardScoped .dubEncode = s.releaseDub := rfl

@[simp] theorem raiseCondition_adpcm (scope : Scope) (c : Condition) (s : State) : (raiseCondition scope c s).adpcm = s.adpcm := by cases scope <;> rfl
@[simp] theorem raiseCondition_opt (scope : Scope) (c : Condition) (s : State) : (raiseCondition scope c s).opt = s.opt := by cases scope <;> rfl
@[simp] theorem raiseCondition_blk (scope : Scope) (c : Condition) (s : State) : (raiseCondition scope c s).blk = (s.discardScoped scope).blk := rfl
@[simp] theorem raiseCondition_asset (scope : Scope) (c : Condition) (s : State) : (raiseCondition scope c s).asset = (s.discardScoped scope).asset := rfl
@[simp] theorem raiseCondition_stat (scope : Scope) (c : Condition) (s : State) : (raiseCondition scope c s).stat = { s.stat with status := c } := by cases scope <;> rfl
@[simp] theorem raiseCondition_in8 (scope : Scope) (c : Condition) (s : State) : (raiseCondition scope c s).in8 = s.in8 := by cases scope <;> rfl
@[simp] theorem raiseCondition_tiles (scope : Scope) (c : Condition) (s : State) : (raiseCondition scope c s).tiles = s.tiles := by cases scope <;> rfl
@[simp] theorem raiseCondition_out8 (scope : Scope) (c : Condition) (s : State) : (raiseCondition scope c s).out8 = s.out8 := by cases scope <;> rfl
@[simp] theorem raiseCondition_out16 (scope : Scope) (c : Condition) (s : State) : (raiseCondition scope c s).out16 = s.out16 := by cases scope <;> rfl
@[simp] theorem raiseCondition_cfg (scope : Scope) (c : Condition) (s : State) : (raiseCondition scope c s).cfg = s.cfg := by cases scope <;> rfl
@[simp] theorem raiseCondition_exhaust (scope : Scope) (c : Condition) (s : State) : (raiseCondition scope c s).exhaust = s.exhaust := by cases scope <;> rfl
@[simp] theorem raiseCondition_bus (scope : Scope) (c : Condition) (s : State) : (raiseCondition scope c s).bus = s.bus := by cases scope <;> rfl
@[simp] theorem raiseCondition_result (scope : Scope) (c : Condition) (s : State) : (raiseCondition scope c s).result = .condition c := rfl

/-! ### The units -/
@[simp] theorem Adpcm.put_codec (a : Adpcm) (c : Nybble) : (a.put c).codec = a.codec := rfl
@[simp] theorem Adpcm.put_half (a : Adpcm) (c : Nybble) : (a.put c).half = !a.half := rfl
@[simp] theorem Adpcm.setIc_codec (a : Adpcm) (x : Sample) (i : Fin 89) : (a.setIc x i).codec = ⟨x, i⟩ := rfl
@[simp] theorem Adpcm.setIc_half (a : Adpcm) (x : Sample) (i : Fin 89) : (a.setIc x i).half = false := rfl
@[simp] theorem Adpcm.setIc_lowCode (a : Adpcm) (x : Sample) (i : Fin 89) : (a.setIc x i).lowCode = a.lowCode := rfl
@[simp] theorem Block.flush_acc (b : Block) : b.flush.acc = b.flushRest := rfl
@[simp] theorem Block.flush_payload (b : Block) : b.flush.payload = b.payload ++ b.flushWords := rfl
@[simp] theorem Block.flush_dict (b : Block) : b.flush.dict = b.dict := rfl
@[simp] theorem Block.flush_prevCode (b : Block) : b.flush.prevCode = b.prevCode := rfl
@[simp] theorem Block.flush_repeating (b : Block) : b.flush.repeating = b.repeating := rfl
@[simp] theorem Block.flush_repeatCount (b : Block) : b.flush.repeatCount = b.repeatCount := rfl
@[simp] theorem Block.flushFinal_acc (b : Block) : b.flushFinal.acc = [] := rfl
@[simp] theorem Block.flushFinal_payload (b : Block) : b.flushFinal.payload = b.payload ++ b.flushFinalWords := rfl
@[simp] theorem Block.flushFinal_dict (b : Block) : b.flushFinal.dict = b.dict := rfl
@[simp] theorem Block.flushFinal_prevCode (b : Block) : b.flushFinal.prevCode = b.prevCode := rfl
@[simp] theorem Block.flushFinal_repeating (b : Block) : b.flushFinal.repeating = b.repeating := rfl
@[simp] theorem Block.flushFinal_repeatCount (b : Block) : b.flushFinal.repeatCount = b.repeatCount := rfl
@[simp] theorem Asset.selectIndex_store (a : Asset) : a.selectIndex.store = a.store := rfl
@[simp] theorem Asset.selectIndex_blockData (a : Asset) : a.selectIndex.blockData = a.blockData := rfl
@[simp] theorem Asset.selectIndex_offsets (a : Asset) : a.selectIndex.offsets = a.offsets := rfl

end Sys2Proof.Machine
end

