-- ==== Sys2Proof/Laws/Ops.lean ====
section
/-! SUPPORT. What each shared operation can do, said once: the oracle, the bits of values and words, the flushes and the
emissions of a block. -/
namespace Sys2Proof.Machine

/-! ### The integer primitives -/

theorem clamp_eq_max_min (v lo hi : Int) (h : lo ≤ hi) : clamp v lo hi = max lo (min v hi) := by
  unfold clamp
  split <;> [skip; split] <;> omega

/-! ### The oracle -/

theorem askExhaust_of_grants : ∀ (n : Nat) (xs : List Bool), (∀ a ∈ xs.take n, a = false) →
    askExhaust n xs = (false, xs.drop n)
  | 0, _, _ => rfl
  | _ + 1, [], _ => rfl
  | n + 1, x :: xs, h => by
    have hx : x = false := h x (by simp)
    subst hx
    simpa [askExhaust] using askExhaust_of_grants n xs fun a ha => h a (by simp [ha])

theorem askExhaust_of_refuses : ∀ (n : Nat) (xs : List Bool), ¬ (∀ a ∈ xs.take n, a = false) →
    askExhaust n xs = (true, (xs.dropWhile (! ·)).tail)
  | 0, _, h => absurd (by simp) h
  | _ + 1, [], h => absurd (by simp) h
  | n + 1, x :: xs, h => by
    cases x with
    | true => simp [askExhaust]
    | false =>
      have h' : ¬ ∀ a ∈ xs.take n, a = false := fun hh => h (by simpa using hh)
      simpa [askExhaust] using askExhaust_of_refuses n xs h'

/-- An operation whose appends the oracle grants has its effects. -/
theorem withAppends_of_grants {scope : Scope} {n : Nat} {s : State} {after : State → State} (h : s.Grants n) :
    withAppends scope n s after = after { s with exhaust := s.exhaust.drop n } := by
  simp [withAppends, askExhaust_of_grants n s.exhaust h]

/-- An operation one of whose appends the oracle refuses enters the condition. -/
theorem withAppends_of_refuses {scope : Scope} {n : Nat} {s : State} {after : State → State} (h : ¬ s.Grants n) :
    withAppends scope n s after = raiseCondition scope .resourceExhausted { s with exhaust := s.afterRefusal } := by
  simp [withAppends, askExhaust_of_refuses n s.exhaust h, State.afterRefusal]

/-- An operation without a result whose appends the oracle grants has no step. -/
theorem stopAfterAppends_of_grants {scope : Scope} {n : Nat} {r : Refusal} {s : State} (h : s.Grants n) :
    stopAfterAppends scope n r s = .refused r := by
  simp [stopAfterAppends, askExhaust_of_grants n s.exhaust h]

/-- An operation without a result one of whose earlier appends the oracle refuses enters the condition. -/
theorem stopAfterAppends_of_refuses {scope : Scope} {n : Nat} {r : Refusal} {s : State} (h : ¬ s.Grants n) :
    stopAfterAppends scope n r s =
      .next (raiseCondition scope .resourceExhausted { s with exhaust := s.afterRefusal }) := by
  simp [stopAfterAppends, askExhaust_of_refuses n s.exhaust h, State.afterRefusal]

/-- Everything an operation with appends can do, and when. -/
theorem withAppends_cases (scope : Scope) (n : Nat) (s : State) (after : State → State) :
    (s.Grants n ∧ ∃ xs, withAppends scope n s after = after { s with exhaust := xs }) ∨
    (¬ s.Grants n ∧ ∃ xs, withAppends scope n s after =
      raiseCondition scope .resourceExhausted { s with exhaust := xs }) := by
  by_cases h : s.Grants n
  · exact .inl ⟨h, _, withAppends_of_grants h⟩
  · exact .inr ⟨h, _, withAppends_of_refuses h⟩

theorem State.grants_of_quiet {s : State} (h : s.Quiet) (n : Nat) : s.Grants n :=
  fun a ha => h a (List.mem_of_mem_take ha)

theorem State.Grants.mono {s : State} {m n : Nat} (h : s.Grants n) (hm : m ≤ n) : s.Grants m :=
  fun a ha => h a ((List.take_subset_take_left _ hm) ha)

@[simp] theorem State.grants_zero (s : State) : s.Grants 0 := by simp [State.Grants]

/-! ### The outcomes -/

theorem orRefuse_eq_next {α : Type} {x : Except Refusal α} {k : α → Out} {t : State} :
    orRefuse x k = .next t ↔ ∃ a, x = .ok a ∧ k a = .next t := by
  cases x <;> simp [orRefuse]

theorem require_eq_next {ok : Bool} {r : Refusal} {k : Out} {t : State} :
    require ok r k = .next t ↔ ok = true ∧ k = .next t := by
  cases ok <;> simp [require]

@[simp] theorem orRefuse_ok {α : Type} (a : α) (k : α → Out) : orRefuse (.ok a) k = k a := rfl
@[simp] theorem orRefuse_error {α : Type} (r : Refusal) (k : α → Out) : orRefuse (.error r) k = .refused r := rfl
@[simp] theorem require_true (r : Refusal) (k : Out) : require true r k = k := rfl
@[simp] theorem require_false (r : Refusal) (k : Out) : require false r k = .refused r := rfl

theorem done_eq_next {s t : State} {r : Result} : done s r = .next t ↔ s.returning r = t := by
  simp [done]

theorem indexOperand_ofNat (i : Fin 89) : indexOperand (BitVec.ofNat 8 i.val) = .ok i := by
  have hi := i.isLt
  have h : (BitVec.ofNat 8 i.val).toNat = i.val := by simp; omega
  unfold indexOperand
  rw [dif_pos (by omega)]
  congr 1
  exact Fin.ext h

theorem indexOperand_of_gt {b : BitVec 8} (h : 88 < b.toNat) : indexOperand b = .error .indexOutOfRange := by
  unfold indexOperand
  rw [dif_neg (by omega)]

/-! ### Bits of values -/

@[simp] theorem bitsOf_length (n v : Nat) : (bitsOf n v).length = n := by
  induction n <;> simp [bitsOf, *]

theorem bitsOf_eq_map (n v : Nat) : bitsOf n v = (List.range n).map fun j => v.testBit (n - 1 - j) := by
  induction n with
  | zero => rfl
  | succ n ih =>
    rw [bitsOf, ih, List.range_succ_eq_map]
    simp only [List.map_cons, List.map_map, Nat.sub_zero, Nat.add_sub_cancel]
    congr 1
    apply List.map_congr_left
    intro j hj
    have : n - (j + 1) = n - 1 - j := by omega
    simp [this]

theorem bitsValue_lt (bits : List Bool) : bitsValue bits < 2 ^ bits.length := by
  induction bits with
  | nil => simp [bitsValue]
  | cons b bs ih =>
    have : b.toNat ≤ 1 := by cases b <;> simp
    simp only [bitsValue, List.length_cons, pow_succ]
    omega

theorem testBit_bitsValue (bits : List Bool) (j : Nat) : (bitsValue bits).testBit j = bits.getD j false := by
  induction bits generalizing j with
  | nil => simp [bitsValue]
  | cons b bs ih =>
    cases j with
    | zero => cases b <;> simp [bitsValue, Nat.testBit_zero]
    | succ j =>
      have h : (b.toNat + 2 * bitsValue bs) / 2 = bitsValue bs := by
        have : b.toNat ≤ 1 := by cases b <;> simp
        omega
      simp [bitsValue, Nat.testBit_succ, h, ih]

/-- The bits of the word made of at most sixteen bits are those bits and zeros (R54, R135). -/
theorem wordBits_wordOfBits (bits : List Bool) (h : bits.length ≤ 16) :
    wordBits (wordOfBits bits) = bits ++ List.replicate (16 - bits.length) false := by
  apply List.ext_getElem
  · simp [wordBits]; omega
  · intro j h1 h2
    have hj : j < 16 := by simpa [wordBits] using h1
    simp only [wordBits, wordOfBits, List.getElem_map, List.getElem_range, BitVec.getLsbD_ofNat, testBit_bitsValue, hj,
      decide_true, Bool.true_and]
    by_cases hb : j < bits.length
    · simp [hb]
    · rw [List.getElem_append_right (by omega)]
      simp [hb]

@[simp] theorem wordBits_length (w : Word) : (wordBits w).length = 16 := by simp [wordBits]

/-! ### Flushes -/

@[simp] theorem takeWordsOfBits_length (n : Nat) (bits : List Bool) : (takeWordsOfBits n bits).length = n := by
  induction n generalizing bits <;> simp [takeWordsOfBits, *]

theorem takeWordsOfBits_bits (n : Nat) (bits : List Bool) (h : 16 * n ≤ bits.length) :
    (takeWordsOfBits n bits).flatMap wordBits = bits.take (16 * n) := by
  induction n generalizing bits with
  | zero => simp [takeWordsOfBits]
  | succ n ih =>
    have h1 : (bits.take 16).length = 16 := by simp; omega
    rw [takeWordsOfBits, List.flatMap_cons, wordBits_wordOfBits _ (by omega), h1, ih _ (by simp; omega)]
    have : 16 * (n + 1) = 16 + 16 * n := by omega
    rw [this, List.take_add]
    simp

@[simp] theorem Block.flushWords_length (b : Block) : b.flushWords.length = b.acc.length / 16 := by
  simp [Block.flushWords]

theorem Block.flushRest_length (b : Block) : b.flushRest.length = b.acc.length % 16 := by
  simp [Block.flushRest]; omega

/-- A flush moves bits from the accumulator to words and changes neither their order nor their value (R134, R227). -/
theorem Block.flush_bits (b : Block) : b.flushWords.flatMap wordBits ++ b.flushRest = b.acc := by
  rw [Block.flushWords, takeWordsOfBits_bits _ _ (by omega), Block.flushRest, List.take_append_drop]

theorem Block.flush_stream (b : Block) : b.flush.stream = b.stream := by
  simp only [Block.stream, flush_payload, flush_acc, List.flatMap_append, List.append_assoc, b.flush_bits]

@[simp] theorem Block.flushFinalWords_length (b : Block) : b.flushFinalWords.length = (b.acc.length + 15) / 16 := by
  have := b.flushRest_length
  unfold Block.flushFinalWords
  split <;> simp <;> omega

/-- A final flush adds only zeros, to the next whole word (R135). -/
theorem Block.flushFinal_bits (b : Block) :
    b.flushFinalWords.flatMap wordBits = b.acc ++ List.replicate ((16 - b.acc.length % 16) % 16) false := by
  have hl := b.flushRest_length
  unfold Block.flushFinalWords
  split
  · rename_i h
    have h0 : b.flushRest = [] := List.length_eq_zero_iff.mp h
    have hb := b.flush_bits
    rw [h0, List.append_nil] at hb
    have hm : b.acc.length % 16 = 0 := by omega
    simp [hb, hm]
  · rename_i h
    rw [List.flatMap_append, List.flatMap_singleton, wordBits_wordOfBits _ (by omega), ← List.append_assoc, b.flush_bits,
      hl]
    congr 2
    omega

/-! ### Emissions -/

theorem Block.appendBits_ok {cfg : Config.Params} {b b' : Block} {bits : List Bool} :
    b.appendBits cfg bits = .ok b' ↔ b.acc.length + bits.length ≤ cfg.accBits ∧ b' = { b with acc := b.acc ++ bits } := by
  unfold Block.appendBits
  split <;> simp [*, eq_comm]

theorem Block.appendBits_of_le {cfg : Config.Params} {b : Block} {bits : List Bool}
    (h : b.acc.length + bits.length ≤ cfg.accBits) : b.appendBits cfg bits = .ok { b with acc := b.acc ++ bits } :=
  Block.appendBits_ok.mpr ⟨h, rfl⟩

theorem Block.appendBits_of_gt {cfg : Config.Params} {b : Block} {bits : List Bool}
    (h : cfg.accBits < b.acc.length + bits.length) : b.appendBits cfg bits = .error .accumulatorFull := by
  unfold Block.appendBits
  rw [if_neg (by omega)]

/-- An emission, inverted: the accumulator had room, and the block is the flushed one. -/
theorem Block.emit_ok {cfg : Config.Params} {b b' : Block} {c : Code} :
    b.emit cfg c = .ok b' ↔ b.acc.length + (codeBits c).length ≤ cfg.accBits ∧
      b' = ({ b with acc := b.acc ++ codeBits c } : Block).flush := by
  unfold Block.emit
  by_cases h : b.acc.length + (codeBits c).length ≤ cfg.accBits
  · simp [Block.appendBits_of_le h, h, eq_comm]
  · simp [Block.appendBits_of_gt (Nat.lt_of_not_le h), h]

theorem Block.emit_of_le {cfg : Config.Params} {b : Block} {c : Code}
    (h : b.acc.length + (codeBits c).length ≤ cfg.accBits) :
    b.emit cfg c = .ok ({ b with acc := b.acc ++ codeBits c } : Block).flush := Block.emit_ok.mpr ⟨h, rfl⟩

theorem Block.emit_of_gt {cfg : Config.Params} {b : Block} {c : Code}
    (h : cfg.accBits < b.acc.length + (codeBits c).length) : b.emit cfg c = .error .accumulatorFull := by
  simp [Block.emit, Block.appendBits_of_gt h]

/-- The only reason an emission is refused (U6). -/
theorem Block.emitAll_error {cfg : Config.Params} {cs : List Code} {b : Block} {stop : Refusal × Block} :
    b.emitAll cfg cs = .error stop → stop.1 = .accumulatorFull := by
  induction cs generalizing b with
  | nil => simp [Block.emitAll]
  | cons c cs ih =>
    unfold Block.emitAll
    by_cases h : b.acc.length + (codeBits c).length ≤ cfg.accBits
    · rw [Block.emit_of_le h]; exact ih
    · rw [Block.emit_of_gt (by omega : cfg.accBits < _)]
      rintro e
      cases e
      rfl

/-! ### The answers asked for the accumulators (R63) -/

@[simp] theorem bitAsks_zero (cfg : Config.Params) : bitAsks cfg 0 = 0 := by simp [bitAsks]

theorem bitAsks_add (cfg : Config.Params) (m n : Nat) : bitAsks cfg (m + n) = bitAsks cfg m + bitAsks cfg n := by
  unfold bitAsks
  split <;> simp

theorem bitAsks_mono (cfg : Config.Params) {m n : Nat} (h : m ≤ n) : bitAsks cfg m ≤ bitAsks cfg n := by
  unfold bitAsks
  split <;> omega

/-- Bits that have room ask for one answer each. -/
theorem Block.appendAsks_of_le {cfg : Config.Params} {b : Block} {bits : List Bool}
    (h : b.acc.length + bits.length ≤ cfg.accBits) : b.appendAsks cfg bits = bitAsks cfg bits.length := by
  unfold Block.appendAsks
  congr 1
  omega

/-! ### How an operation on a block ends -/

/-- When the oracle grants every append, the result of the run stands. -/
theorem endRun_of_grants {n : Nat} {run : Except Refusal Block} {r : Block → Result} {s : State} (h : s.Grants n) :
    endRun n run r s =
      match run with
      | .ok b => .next { s with blk := b, exhaust := s.exhaust.drop n, result := r b }
      | .error e => .refused e := by
  unfold endRun
  cases run with
  | ok b => dsimp only; rw [withAppends_of_grants h]; rfl
  | error e => exact stopAfterAppends_of_grants h

/-- When the oracle refuses an append, the condition is entered, whether or not the run would have had a result. -/
theorem endRun_of_refuses {n : Nat} {run : Except Refusal Block} {r : Block → Result} {s : State} (h : ¬ s.Grants n) :
    endRun n run r s = .next (raiseCondition .finer .resourceExhausted { s with exhaust := s.afterRefusal }) := by
  unfold endRun
  cases run with
  | ok b => exact congrArg Host.Outcome.next (withAppends_of_refuses h)
  | error e => exact stopAfterAppends_of_refuses h

/-- Bits that have room and are granted are appended. -/
theorem extendAccumulator_of_grants {bits : List Bool} {s : State} (hl : s.blk.acc.length + bits.length ≤ s.cfg.accBits)
    (h : s.Grants (bitAsks s.cfg bits.length)) : extendAccumulator bits s = .next { s with
      blk := { s.blk with acc := s.blk.acc ++ bits }
      exhaust := s.exhaust.drop (bitAsks s.cfg bits.length)
      result := .none } := by
  unfold extendAccumulator
  rw [Block.appendAsks_of_le hl, endRun_of_grants h, Block.appendBits_of_le hl]

/-- Bits that have no room have no result, when the oracle grants the appends up to there. -/
theorem extendAccumulator_of_gt {bits : List Bool} {s : State} (hl : s.cfg.accBits < s.blk.acc.length + bits.length)
    (h : s.Grants (s.blk.appendAsks s.cfg bits)) : extendAccumulator bits s = .refused .accumulatorFull := by
  unfold extendAccumulator
  rw [endRun_of_grants h, Block.appendBits_of_gt hl]

theorem extendAccumulator_of_refuses {bits : List Bool} {s : State} (h : ¬ s.Grants (s.blk.appendAsks s.cfg bits)) :
    extendAccumulator bits s =
      .next (raiseCondition .finer .resourceExhausted { s with exhaust := s.afterRefusal }) := endRun_of_refuses h

/-! ### Runs of a block's operations -/

@[simp] theorem BlockRun.reached_ok (b : Block) : BlockRun.reached (.ok b) = b := rfl
@[simp] theorem BlockRun.reached_error (stop : Refusal × Block) : BlockRun.reached (.error stop) = stop.2 := rfl

/-- A block that another one only adds to has no more appends than it. -/
theorem Block.appendsSince_mono {b c before : Block} (hd : b.dict <+: c.dict) (hp : b.payload <+: c.payload) :
    b.appendsSince before ≤ c.appendsSince before := by
  have := hd.length_le
  have := hp.length_le
  unfold Block.appendsSince
  omega

@[simp] theorem Block.appendsSince_fresh (b : Block) :
    b.appendsSince Block.fresh = b.dict.length + b.payload.length := by simp [Block.appendsSince, Block.fresh]

end Sys2Proof.Machine
end

