-- ==== Sys2Proof/Laws/Adpcm.lean ====
section
/-! SUPPORT. The ADPCM functions: samples, the quantizer, the step, the packer, the passes and the searches. -/
namespace Sys2Proof.Machine

/-! ### Samples -/

@[simp] theorem samples_length (bs : List Byte) : (samples bs).length = bs.length / 2 := by
  induction bs using samples.induct with
  | case1 lo hi r ih => simp [samples, ih]; omega
  | case2 bs h =>
    match bs, h with
    | [], _ => simp [samples]
    | [_], _ => simp [samples]
    | lo :: hi :: r, h => exact absurd rfl (h lo hi r)

/-- Sample `k` is made of bytes `2k` and `2k+1` (R51). -/
theorem samples_getD (bs : List Byte) (k : Nat) (h : k < bs.length / 2) :
    (samples bs).getD k 0 = BitVec.ofNat 16 ((bs.getD (2 * k) 0).toNat + 256 * (bs.getD (2 * k + 1) 0).toNat) := by
  induction bs using samples.induct generalizing k with
  | case1 lo hi r ih =>
    cases k with
    | zero =>
      have := lo.isLt
      have := hi.isLt
      apply BitVec.eq_of_toNat_eq
      simp only [samples, List.getD_cons_zero, Nat.mul_zero, Nat.zero_add, List.getD_cons_succ, BitVec.toNat_ofNat,
        BitVec.toNat_append, Nat.shiftLeft_eq]
      rw [← Nat.shiftLeft_eq, ← Nat.shiftLeft_add_eq_or_of_lt (by omega), Nat.shiftLeft_eq]
      omega
    | succ k =>
      have := ih k (by simp at h; omega)
      simp only [samples, List.getD_cons_succ, this]
      have e1 : 2 * (k + 1) = 2 * k + 1 + 1 := by omega
      simp only [e1, List.getD_cons_succ]
  | case2 bs hb =>
    match bs, hb with
    | [], _ => simp at h
    | [_], _ => simp at h
    | lo :: hi :: r, hb => exact absurd rfl (hb lo hi r)

/-! ### The step -/

theorem toInt_ofInt_clamp (v : Int) :
    (BitVec.ofInt 16 (clamp v (-32768) 32767)).toInt = max (-32768) (min v 32767) := by
  rw [clamp_eq_max_min _ _ _ (by omega), BitVec.toInt_ofInt, Int.bmod_def]
  omega

/-- The clamped sum and the clamped index (R104). -/
theorem Codec.advance_sample (k : Codec) (d a : Int) :
    (k.advance d a).sample.toInt = max (-32768) (min (k.sample.toInt + d) 32767) := toInt_ofInt_clamp _

theorem Codec.advance_index (k : Codec) (d a : Int) :
    ((k.advance d a).index.val : Int) = max 0 (min (k.index.val + a) 88) := by
  have h : clamp ((k.index.val : Int) + a) 0 88 = max 0 (min (k.index.val + a) 88) :=
    clamp_eq_max_min _ _ _ (by omega)
  simp only [Codec.advance, Fin.ofNat, h]
  omega

/-! ### The quantizer -/

/-- A later candidate replaces the best one exactly when its error is not larger (R103). -/
theorem foldl_keepLater (f : Nybble → Candidate) (hf : ∀ c, (f c).code = c) (cs : List Nybble) (b : Candidate)
    (hs : cs.Pairwise (· < ·)) (hb : ∀ c ∈ cs, b.code < c) :
    let q := cs.foldl (fun best c => keepLater best (f c)) b
    (q = b ∨ ∃ c ∈ cs, q = f c) ∧ q.err ≤ b.err ∧ (q.err = b.err → b.code ≤ q.code) ∧
      ∀ c ∈ cs, q.err ≤ (f c).err ∧ (q.err = (f c).err → c ≤ q.code) := by
  induction cs generalizing b with
  | nil => simp
  | cons c cs ih =>
    rw [List.pairwise_cons] at hs
    simp only [List.foldl_cons]
    have hbc := hb c (by simp)
    by_cases h : (f c).err ≤ b.err
    · have e : keepLater b (f c) = f c := if_pos h
      rw [e]
      obtain ⟨h1, h2, h3, h4⟩ := ih (f c) hs.2 (fun c' hc' => by rw [hf]; exact hs.1 c' hc')
      rw [hf] at h3
      refine ⟨.inr ?_, by omega, fun heq => ?_, ?_⟩
      · rcases h1 with h1 | ⟨c', hc', h1⟩
        · exact ⟨c, by simp, h1⟩
        · exact ⟨c', by simp [hc'], h1⟩
      · have := h3 (by omega)
        exact BitVec.le_trans (BitVec.le_of_lt hbc) this
      · intro c' hc'
        rcases List.mem_cons.mp hc' with rfl | hc'
        · exact ⟨h2, h3⟩
        · exact h4 c' hc'
    · have e : keepLater b (f c) = b := if_neg h
      rw [e]
      obtain ⟨h1, h2, h3, h4⟩ := ih b hs.2 (fun c' hc' => hb c' (by simp [hc']))
      refine ⟨?_, h2, h3, ?_⟩
      · rcases h1 with h1 | ⟨c', hc', h1⟩
        · exact .inl h1
        · exact .inr ⟨c', by simp [hc'], h1⟩
      · intro c' hc'
        rcases List.mem_cons.mp hc' with rfl | hc'
        · exact ⟨by omega, fun heq => by omega⟩
        · exact h4 c' hc'

theorem quantize_eq_candidate (mode : Config.DeltaMode) (k : Codec) (x : Sample) :
    quantize mode k x = candidate mode (stepSize k.index) (x.toInt - k.sample.toInt) (quantize mode k x).code := by
  obtain ⟨h, _⟩ := foldl_keepLater (candidate mode (stepSize k.index) (x.toInt - k.sample.toInt)) (fun _ => rfl)
    laterCodes (candidate mode (stepSize k.index) (x.toInt - k.sample.toInt) 0) (by decide) (by simp [candidate, laterCodes])
  have e : quantize mode k x = List.foldl (fun best c => keepLater best
      (candidate mode (stepSize k.index) (x.toInt - k.sample.toInt) c))
      (candidate mode (stepSize k.index) (x.toInt - k.sample.toInt) 0) laterCodes := rfl
  rw [← e] at h
  rcases h with h | ⟨c, _, h⟩ <;> rw [h] <;> rfl

/-- The delta the quantizer returns is the delta of its code. -/
theorem quantize_delta (mode : Config.DeltaMode) (k : Codec) (x : Sample) :
    (quantize mode k x).delta = candDelta mode (quantize mode k x).code (stepSize k.index) := by
  conv_lhs => rw [quantize_eq_candidate]
  rfl

/-- The code of least error, the greatest of equals (R103). -/
theorem quantize_least (mode : Config.DeltaMode) (k : Codec) (x : Sample) (c : Nybble) :
    let f := candidate mode (stepSize k.index) (x.toInt - k.sample.toInt)
    (f (quantize mode k x).code).err ≤ (f c).err ∧
      ((f (quantize mode k x).code).err = (f c).err → c ≤ (quantize mode k x).code) := by
  intro f
  have hq : f (quantize mode k x).code = quantize mode k x := (quantize_eq_candidate mode k x).symm
  obtain ⟨_, h2, h3, h4⟩ := foldl_keepLater f (fun _ => rfl) laterCodes (f 0) (by decide)
    (by simp [f, candidate, laterCodes])
  rw [hq]
  have hc : c = 0 ∨ c ∈ laterCodes := by revert c; decide
  rcases hc with rfl | hc
  · exact ⟨h2, h3⟩
  · exact h4 c hc

/-! ### The packer -/

theorem Adpcm.putBytes_length (a : Adpcm) (c : Nybble) : (a.putBytes c).length = if a.half then 1 else 0 := by
  unfold Adpcm.putBytes
  split <;> rfl

theorem append_nybbles (h l : Nybble) : h ++ l = BitVec.ofNat 8 (l.toNat + 16 * h.toNat) := by
  revert h l; decide

theorem append_bytes (h l : Byte) : h ++ l = BitVec.ofNat 16 (l.toNat + 256 * h.toNat) := by
  have := h.isLt
  have := l.isLt
  apply BitVec.eq_of_toNat_eq
  simp only [BitVec.toNat_append, BitVec.toNat_ofNat]
  rw [← Nat.shiftLeft_add_eq_or_of_lt (by omega), Nat.shiftLeft_eq]
  omega

/-- The codes a pair chooses (R106). -/
def Adpcm.pairCodes (mode : Config.DeltaMode) (a : Adpcm) (x0 x1 : Sample) : Nybble × Nybble :=
  let c0 := (quantize mode a.codec x0).code
  (c0, (quantize mode (a.codec.afterCode mode c0) x1).code)

/-- A pair from `half = 0`: the state it leaves and the one byte it gives (R106). -/
theorem Adpcm.pair_of_even {mode : Config.DeltaMode} {a : Adpcm} (h : a.half = false) (x0 x1 : Sample) :
    a.pair mode x0 x1 =
      ({ codec := (a.codec.afterStep mode x0).afterStep mode x1, half := false, lowCode := (a.pairCodes mode x0 x1).1 },
       [(a.pairCodes mode x0 x1).2 ++ (a.pairCodes mode x0 x1).1]) := by
  simp [Adpcm.pair, Adpcm.stepPut, Adpcm.put, Adpcm.putBytes, h, halfAfterPut, Adpcm.pairCodes, Codec.afterStep]

/-- The number of pairs of `n` samples. -/
theorem Adpcm.body_length (mode : Config.DeltaMode) (a : Adpcm) (xs : List Sample) (h : a.half = false) :
    (a.body mode xs).2.length = (xs.length + 1) / 2 ∧ (a.body mode xs).1.half = false := by
  induction xs using List.twoStepInduction generalizing a with
  | nil => simp [Adpcm.body, h]
  | singleton x => simp [Adpcm.body, Adpcm.pair_of_even h]
  | cons_cons x y r ih _ =>
    have := ih (a.pair mode x y).1 (by rw [Adpcm.pair_of_even h])
    constructor
    · simp only [Adpcm.body, List.length_append, this.1]
      rw [Adpcm.pair_of_even h]; simp; omega
    · simpa [Adpcm.body] using this.2

/-- The bytes of a body, and the codec state it leaves, do not depend on the latch. -/
theorem Adpcm.body_congr (mode : Config.DeltaMode) (a b : Adpcm) (xs : List Sample) (ha : a.half = false)
    (hb : b.half = false) (hc : a.codec = b.codec) :
    (a.body mode xs).2 = (b.body mode xs).2 ∧ (a.body mode xs).1.codec = (b.body mode xs).1.codec := by
  induction xs using List.twoStepInduction generalizing a b with
  | nil => simp [Adpcm.body, hc]
  | singleton x => simp [Adpcm.body, Adpcm.pair_of_even ha, Adpcm.pair_of_even hb, Adpcm.pairCodes, hc]
  | cons_cons x y r ih _ =>
    have := ih (a.pair mode x y).1 (b.pair mode x y).1 (by rw [Adpcm.pair_of_even ha]) (by rw [Adpcm.pair_of_even hb])
      (by rw [Adpcm.pair_of_even ha, Adpcm.pair_of_even hb, hc])
    have hp : (a.pair mode x y).2 = (b.pair mode x y).2 := by
      rw [Adpcm.pair_of_even ha, Adpcm.pair_of_even hb]; simp [Adpcm.pairCodes, hc]
    simp only [Adpcm.body, this.1, hp]
    exact ⟨trivial, this.2⟩

/-! ### The optimiser -/

theorem squareError_le (k : Codec) (x : Sample) : squareError k x ≤ 65535 ^ 2 := by
  have h1 := k.sample.toInt_lt
  have h2 := k.sample.le_toInt
  have h3 := x.toInt_lt
  have h4 := x.le_toInt
  norm_num at h1 h2 h3 h4
  unfold squareError
  exact Nat.pow_le_pow_left (by omega) 2

/-- A pass adds at most two terms for each pair of samples (R108). -/
theorem evalPass_le (cfg : Config.Params) (k : Codec) (xs : List Sample) :
    evalPass cfg k xs ≤ (xs.length + 1) / 2 * (2 * 65535 ^ 2) := by
  induction xs using List.twoStepInduction generalizing k with
  | nil => simp [evalPass]
  | singleton x =>
    have h1 := squareError_le (k.afterStep cfg.deltaMode x) x
    have h2 := squareError_le ((k.afterStep cfg.deltaMode x).afterStep cfg.deltaMode x) x
    simp only [evalPass, List.length_singleton]
    split <;> omega
  | cons_cons x y r ih _ =>
    have h1 := squareError_le (k.afterStep cfg.deltaMode x) x
    have h2 := squareError_le ((k.afterStep cfg.deltaMode x).afterStep cfg.deltaMode y) y
    have h3 := ih ((k.afterStep cfg.deltaMode x).afterStep cfg.deltaMode y)
    have e : (r.length + 1 + 1 + 1) / 2 = (r.length + 1) / 2 + 1 := by omega
    simp only [evalPass, List.length_cons, e, Nat.add_mul]
    omega

/-- The scan keeps the earliest candidate of least error (R109). -/
theorem foldl_scanTrip (cfg : Config.Params) (pre : List Sample) (seed : Sample) (is : List (Fin 89)) (b : Search)
    (hs : is.Pairwise (· < ·)) (hi : ∀ i ∈ is, b.ic.index < i) (hb : b.bestErr = evalPass cfg b.ic pre)
    (hseed : b.ic.sample = seed) :
    let q := is.foldl (scanTrip cfg pre seed) b
    q.ic.sample = seed ∧ q.bestErr = evalPass cfg q.ic pre ∧ q.bestErr ≤ b.bestErr ∧ b.ic.index ≤ q.ic.index ∧
      (q.ic = b.ic ∨ q.bestErr < b.bestErr) ∧
      ∀ i ∈ is, q.bestErr ≤ evalPass cfg ⟨seed, i⟩ pre ∧ (i < q.ic.index → q.bestErr < evalPass cfg ⟨seed, i⟩ pre) := by
  induction is generalizing b with
  | nil => simp [hb, hseed]
  | cons i is ih =>
    rw [List.pairwise_cons] at hs
    have hbi := hi i (by simp)
    simp only [List.foldl_cons]
    by_cases h : evalPass cfg ⟨seed, i⟩ pre < b.bestErr
    · have e : scanTrip cfg pre seed b i = ⟨evalPass cfg ⟨seed, i⟩ pre, evalPass cfg ⟨seed, i⟩ pre, ⟨seed, i⟩⟩ := by
        simp [scanTrip, h]
      rw [e]
      obtain ⟨h1, h2, h3, h4, h5, h6⟩ :=
        ih ⟨evalPass cfg ⟨seed, i⟩ pre, evalPass cfg ⟨seed, i⟩ pre, ⟨seed, i⟩⟩ hs.2 hs.1 rfl rfl
      refine ⟨h1, h2, by dsimp only at h3; omega, le_trans (le_of_lt hbi) h4, .inr (by dsimp only at h3; omega), ?_⟩
      intro j hj
      rcases List.mem_cons.mp hj with rfl | hj
      · refine ⟨h3, fun hlt => ?_⟩
        rcases h5 with h5 | h5
        · rw [h5] at hlt; exact absurd hlt (lt_irrefl _)
        · exact h5
      · exact h6 j hj
    · have e : scanTrip cfg pre seed b i = { b with err := evalPass cfg ⟨seed, i⟩ pre } := by simp [scanTrip, h]
      rw [e]
      obtain ⟨h1, h2, h3, h4, h5, h6⟩ := ih { b with err := evalPass cfg ⟨seed, i⟩ pre } hs.2
        (fun j hj => hi j (by simp [hj])) hb hseed
      dsimp only at h3 h4 h5
      refine ⟨h1, h2, h3, h4, h5, ?_⟩
      intro j hj
      rcases List.mem_cons.mp hj with rfl | hj
      · refine ⟨by omega, fun hlt => ?_⟩
        rcases h5 with h5 | h5
        · rw [h5] at hlt; exact absurd hlt (by simpa using le_of_lt hbi)
        · omega
      · exact h6 j hj

/-- Everything the scan finds (R109). -/
theorem scan_spec (cfg : Config.Params) (pre : List Sample) (seed : Sample) :
    (scan cfg pre seed).ic.sample = seed ∧
    (scan cfg pre seed).bestErr = evalPass cfg (scan cfg pre seed).ic pre ∧
    ∀ i : Fin 89, (scan cfg pre seed).bestErr ≤ evalPass cfg ⟨seed, i⟩ pre ∧
      (i < (scan cfg pre seed).ic.index → (scan cfg pre seed).bestErr < evalPass cfg ⟨seed, i⟩ pre) := by
  have hc : (0 : Fin 89) :: laterIndices = List.finRange 89 := rfl
  have hp : ((0 : Fin 89) :: laterIndices).Pairwise (· < ·) := hc ▸ List.pairwise_lt_finRange 89
  have hm : ∀ i : Fin 89, i = 0 ∨ i ∈ laterIndices := fun i => List.mem_cons.mp (hc ▸ List.mem_finRange i)
  rw [List.pairwise_cons] at hp
  obtain ⟨hz, hp⟩ := hp
  have h := foldl_scanTrip cfg pre seed laterIndices ⟨evalPass cfg ⟨seed, 0⟩ pre, evalPass cfg ⟨seed, 0⟩ pre, ⟨seed, 0⟩⟩ hp
    hz rfl rfl
  unfold scan
  generalize laterIndices.foldl _ _ = q at h ⊢
  obtain ⟨h1, h2, h3, _, h5, h6⟩ := h
  refine ⟨h1, h2, fun i => ?_⟩
  rcases hm i with rfl | hi
  · refine ⟨h3, fun hlt => ?_⟩
    rcases h5 with h5 | h5
    · rw [h5] at hlt; exact absurd hlt (lt_irrefl _)
    · exact h5
  · exact h6 i hi

/-- A round of the climb either takes the first better move or finds none (R110). -/
theorem tryMoves_cases (cfg : Config.Params) (pre : List Sample) (b : Search) (ks : List Codec) :
    (∃ b', tryMoves cfg pre b ks = (b', true) ∧ b'.ic ∈ ks ∧ b'.bestErr = evalPass cfg b'.ic pre ∧ b'.bestErr < b.bestErr) ∨
    (∃ e, tryMoves cfg pre b ks = ({ b with err := e }, false) ∧ ∀ k ∈ ks, b.bestErr ≤ evalPass cfg k pre) := by
  induction ks generalizing b with
  | nil => exact .inr ⟨b.err, rfl, by simp⟩
  | cons k ks ih =>
    by_cases h : evalPass cfg k pre < b.bestErr
    · exact .inl ⟨⟨evalPass cfg k pre, evalPass cfg k pre, k⟩, by simp [tryMoves, h], by simp, rfl, h⟩
    · rcases ih { b with err := evalPass cfg k pre } with ⟨b', h1, h2, h3, h4⟩ | ⟨e, h1, h2⟩
      · exact .inl ⟨b', by simp [tryMoves, h, h1], by simp [h2], h3, h4⟩
      · refine .inr ⟨e, by simp [tryMoves, h, h1], ?_⟩
        intro k' hk'
        rcases List.mem_cons.mp hk' with rfl | hk'
        · omega
        · exact h2 k' hk'

/-- The moves are tried in order and the first better one is taken (R110). -/
theorem tryMoves_find (cfg : Config.Params) (pre : List Sample) (b : Search) (ks : List Codec) :
    match ks.find? fun k => decide (evalPass cfg k pre < b.bestErr) with
    | some k => tryMoves cfg pre b ks = (⟨evalPass cfg k pre, evalPass cfg k pre, k⟩, true)
    | none => ∃ e, tryMoves cfg pre b ks = ({ b with err := e }, false) := by
  induction ks generalizing b with
  | nil => exact ⟨b.err, rfl⟩
  | cons k ks ih =>
    by_cases h : evalPass cfg k pre < b.bestErr
    · simp [tryMoves, h]
    · simpa [tryMoves, h] using ih { b with err := evalPass cfg k pre }

/-- Everything the climb finds (R110): the start or a strictly better point with its own error, and no better move. -/
theorem climbRounds_spec (cfg : Config.Params) (pre : List Sample) (fuel : Nat) (b : Search) (h : b.bestErr < fuel) :
    let q := climbRounds cfg pre fuel b
    ((q.ic = b.ic ∧ q.bestErr = b.bestErr) ∨ (q.bestErr < b.bestErr ∧ q.bestErr = evalPass cfg q.ic pre)) ∧
      ∀ k ∈ climbMoves q.ic, q.bestErr ≤ evalPass cfg k pre := by
  induction fuel generalizing b with
  | zero => omega
  | succ fuel ih =>
    rcases tryMoves_cases cfg pre b (climbMoves b.ic) with ⟨b', h1, h2, h3, h4⟩ | ⟨e, h1, h2⟩
    · have := ih b' (by omega)
      simp only [climbRounds, h1]
      refine ⟨.inr ?_, this.2⟩
      rcases this.1 with ⟨e1, e2⟩ | ⟨e1, e2⟩
      · exact ⟨by omega, by rw [e2, e1, h3]⟩
      · exact ⟨by omega, e2⟩
    · simp only [climbRounds, h1]
      exact ⟨.inl ⟨trivial, trivial⟩, h2⟩

/-- The result of the climb does not depend on the register `err`. -/
theorem tryMoves_congr (cfg : Config.Params) (pre : List Sample) (b c : Search) (ks : List Codec)
    (h1 : b.bestErr = c.bestErr) (h2 : b.ic = c.ic) :
    (tryMoves cfg pre b ks).1.bestErr = (tryMoves cfg pre c ks).1.bestErr ∧
    (tryMoves cfg pre b ks).1.ic = (tryMoves cfg pre c ks).1.ic ∧
    (tryMoves cfg pre b ks).2 = (tryMoves cfg pre c ks).2 := by
  induction ks generalizing b c with
  | nil => simp [tryMoves, h1, h2]
  | cons k ks ih =>
    by_cases h : evalPass cfg k pre < c.bestErr
    · simp [tryMoves, h1, h]
    · simp only [tryMoves, h1, h, if_false]
      exact ih { err := evalPass cfg k pre, bestErr := c.bestErr, ic := b.ic }
        { err := evalPass cfg k pre, bestErr := c.bestErr, ic := c.ic } rfl h2

theorem climbRounds_congr (cfg : Config.Params) (pre : List Sample) (fuel : Nat) (b c : Search)
    (h1 : b.bestErr = c.bestErr) (h2 : b.ic = c.ic) :
    (climbRounds cfg pre fuel b).bestErr = (climbRounds cfg pre fuel c).bestErr ∧
    (climbRounds cfg pre fuel b).ic = (climbRounds cfg pre fuel c).ic := by
  induction fuel generalizing b c with
  | zero => exact ⟨h1, h2⟩
  | succ fuel ih =>
    obtain ⟨e1, e2, e3⟩ := tryMoves_congr cfg pre b c (climbMoves c.ic) h1 h2
    simp only [climbRounds, h2]
    generalize tryMoves cfg pre b (climbMoves c.ic) = x at e1 e2 e3
    generalize tryMoves cfg pre c (climbMoves c.ic) = y at e1 e2 e3
    obtain ⟨x, fx⟩ := x
    obtain ⟨y, fy⟩ := y
    dsimp only at e1 e2 e3
    subst e3
    cases fx
    · exact ⟨e1, e2⟩
    · exact ih x y e1 e2

/-- More rounds than the error allows change nothing. -/
theorem climbRounds_fuel (cfg : Config.Params) (pre : List Sample) (f g : Nat) (b : Search) (hf : b.bestErr < f)
    (hg : b.bestErr < g) : climbRounds cfg pre f b = climbRounds cfg pre g b := by
  induction f generalizing g b with
  | zero => omega
  | succ f ih =>
    cases g with
    | zero => omega
    | succ g =>
      rcases tryMoves_cases cfg pre b (climbMoves b.ic) with ⟨b', h1, _, _, h4⟩ | ⟨e, h1, _⟩
      · simp only [climbRounds, h1]
        exact ih g b' (by omega) (by omega)
      · simp only [climbRounds, h1]

theorem evalPass_prefix_lt (cfg : Config.Params) (k : Codec) (xs : List Sample) : evalPass cfg k (prefixOf xs) < 2 ^ 39 := by
  have h := evalPass_le cfg k (prefixOf xs)
  have hl : (prefixOf xs).length ≤ 100 := by simp [prefixOf, Config.icPrefixSamples]
  have : ((prefixOf xs).length + 1) / 2 ≤ 50 := by omega
  calc evalPass cfg k (prefixOf xs) ≤ ((prefixOf xs).length + 1) / 2 * (2 * 65535 ^ 2) := h
    _ ≤ 50 * (2 * 65535 ^ 2) := Nat.mul_le_mul_right _ this
    _ < 2 ^ 39 := by norm_num

end Sys2Proof.Machine
end

