-- ==== Sys2Proof/Laws/Codes.lean ====
section
/-! SUPPORT. The variable-length fields and the codes: their closed forms, their lengths, and what the matcher can
choose. -/
namespace Sys2Proof.Machine

/-! ### Bit lengths and group counts -/

theorem bitLength_le {v n : Nat} : bitLength v ≤ n ↔ v < 2 ^ n := by
  unfold bitLength
  split
  · rename_i h; subst h; simp
  · rename_i h; rw [Nat.succ_le_iff, Nat.log2_lt h]

theorem bitLength_div (v c : Nat) : bitLength (v / 2 ^ c) = bitLength v - c := by
  apply Nat.le_antisymm
  · rw [bitLength_le, Nat.div_lt_iff_lt_mul (by positivity), ← pow_add, ← bitLength_le]; omega
  · have h : v / 2 ^ c < 2 ^ bitLength (v / 2 ^ c) := bitLength_le.mp le_rfl
    rw [Nat.div_lt_iff_lt_mul (by positivity), ← pow_add, ← bitLength_le] at h
    omega

/-- The number of groups of `chunk` bits (R78). -/
def fieldGroups (chunk v : Nat) : Nat := max 1 ((bitLength v + chunk - 1) / chunk)

theorem fieldGroups_of_div_zero {chunk v : Nat} (hc : 1 ≤ chunk) (h : v / 2 ^ chunk = 0) : fieldGroups chunk v = 1 := by
  have hv : v < 2 ^ chunk := by
    rcases Nat.div_eq_zero_iff.mp h with h | h
    · exact absurd h (by positivity)
    · exact h
  have hb := bitLength_le.mpr hv
  have : (bitLength v + chunk - 1) / chunk < 2 := by
    rw [Nat.div_lt_iff_lt_mul hc]; omega
  unfold fieldGroups
  omega

theorem fieldGroups_of_div_pos {chunk v : Nat} (hc : 1 ≤ chunk) (h : v / 2 ^ chunk ≠ 0) :
    fieldGroups chunk v = fieldGroups chunk (v / 2 ^ chunk) + 1 := by
  have hb : 1 ≤ bitLength (v / 2 ^ chunk) := by
    by_contra hh
    have : bitLength (v / 2 ^ chunk) ≤ 0 := by omega
    have := bitLength_le.mp this
    rw [pow_zero] at this
    exact h (Nat.lt_one_iff.mp this)
  have hd := bitLength_div v chunk
  unfold fieldGroups
  have e : bitLength v + chunk - 1 = (bitLength (v / 2 ^ chunk) + chunk - 1) + chunk := by omega
  have p : 1 ≤ (bitLength (v / 2 ^ chunk) + chunk - 1) / chunk := by
    rw [Nat.le_div_iff_mul_le hc]; omega
  rw [e, Nat.add_div_right _ hc]
  omega

theorem fieldGroups_three (v : Nat) : fieldGroups 3 v = groupCount v := rfl

/-- `varField` with its group count named. -/
theorem varField_eq (chunk v : Nat) : varField chunk v = (List.range (fieldGroups chunk v)).flatMap fun g =>
    decide (g + 1 < fieldGroups chunk v) :: (List.range chunk).map fun j =>
      (v / 2 ^ (chunk * g)).testBit (chunk - 1 - j) := rfl

theorem varField_length (chunk v : Nat) : (varField chunk v).length = (chunk + 1) * fieldGroups chunk v := by
  rw [varField_eq]
  simp only [List.length_flatMap, List.length_cons, List.length_map, List.length_range]
  simp [Nat.mul_comm]

theorem bitsOf_mod (n v : Nat) : bitsOf n (v % 2 ^ n) = bitsOf n v := by
  rw [bitsOf_eq_map, bitsOf_eq_map]
  apply List.map_congr_left
  intro j hj
  have : j < n := by simpa using hj
  rw [Nat.testBit_mod_two_pow]
  simp; omega

/-- The loop of `BB.APPENDVAR` is the closed form of R78. -/
theorem varBitsLoop_eq_varField {chunk : Nat} (hc : 1 ≤ chunk) (fuel v : Nat) (hv : v < 2 ^ (chunk * fuel)) (hf : 1 ≤ fuel) :
    varBitsLoop chunk fuel v = varField chunk v := by
  induction fuel generalizing v with
  | zero => omega
  | succ fuel ih =>
    unfold varBitsLoop
    by_cases h : v / 2 ^ chunk = 0
    · rw [varField_eq, fieldGroups_of_div_zero hc h]
      rw [bitsOf_mod, bitsOf_eq_map]
      simp [h]
    · have hlt : v / 2 ^ chunk < 2 ^ (chunk * fuel) := by
        rw [Nat.div_lt_iff_lt_mul (by positivity), ← pow_add]
        rw [Nat.mul_succ] at hv; exact hv
      have hf' : 1 ≤ fuel := by
        by_contra hh
        have : fuel = 0 := by omega
        subst this
        rw [Nat.mul_zero, pow_zero] at hlt
        exact h (Nat.lt_one_iff.mp hlt)
      rw [varField_eq, fieldGroups_of_div_pos hc h, List.range_succ_eq_map, List.flatMap_cons, List.flatMap_map]
      rw [bitsOf_mod, bitsOf_eq_map]
      simp only [h, if_false, ih _ hlt hf', varField_eq chunk (v / 2 ^ chunk)]
      have hg : 1 ≤ fieldGroups chunk (v / 2 ^ chunk) := by unfold fieldGroups; omega
      have e0 : decide (0 < v / 2 ^ chunk) = true := by simpa using Nat.pos_of_ne_zero h
      have e1 : decide (0 + 1 < fieldGroups chunk (v / 2 ^ chunk) + 1) = true := by simp; omega
      rw [e0, e1]
      simp only [Nat.mul_zero, pow_zero, Nat.div_one, List.cons_append]
      congr 2
      apply List.flatMap_congr
      intro g _
      have e2 : 2 ^ (chunk * g.succ) = 2 ^ chunk * 2 ^ (chunk * g) := by rw [← pow_add, Nat.mul_succ, Nat.add_comm]
      simp only [e2, Nat.div_div_eq_div_mul, Nat.succ_eq_add_one, Nat.add_lt_add_iff_right]

theorem varBits_eq_varField {chunk v : Nat} (hc : 1 ≤ chunk) (hv : v < 2 ^ 32) : varBits chunk v = varField chunk v :=
  varBitsLoop_eq_varField hc 32 v (lt_of_lt_of_le hv (Nat.pow_le_pow_right (by omega) (by omega))) (by omega)

theorem groupCount_le_iff {v n : Nat} (hn : 1 ≤ n) : groupCount v ≤ n ↔ v < 2 ^ (3 * n) := by
  rw [← bitLength_le]
  unfold groupCount
  omega

theorem one_le_groupCount (v : Nat) : 1 ≤ groupCount v := by unfold groupCount; omega

theorem varBits_length {v : Nat} (hv : v < 2 ^ 32) : (varBits 3 v).length = 4 * groupCount v := by
  rw [varBits_eq_varField (by omega) hv, varField_length, fieldGroups_three]

/-- The length of the loop's bits for any value: one flag and `chunk` bits for each group, at most `fuel` groups. -/
theorem varBitsLoop_length {chunk : Nat} (hc : 1 ≤ chunk) (fuel v : Nat) :
    (varBitsLoop chunk fuel v).length = (chunk + 1) * min fuel (fieldGroups chunk v) := by
  induction fuel generalizing v with
  | zero => simp [varBitsLoop]
  | succ fuel ih =>
    unfold varBitsLoop
    by_cases h : v / 2 ^ chunk = 0
    · simp [h, fieldGroups_of_div_zero hc h]
    · simp only [h, if_false, List.length_cons, List.length_append, bitsOf_length, ih, fieldGroups_of_div_pos hc h]
      rw [Nat.add_min_add_right, Nat.mul_succ]
      omega

/-! ### Code lengths (R152) -/

/-- The length of a REF into a dictionary of any size. -/
theorem codeLen_ref_nat (i : Nat) : codeLen ⟨.ref, (i : Nat)⟩ = 1 + 4 * min 32 (groupCount i) := by
  simp [codeLen, codeBits, Config.varChunk, varBits, varBitsLoop_length, fieldGroups_three]
  omega

theorem codeLen_delta {v : Int} (hv : v.natAbs < 2 ^ 32) : codeLen ⟨.delta, v⟩ = 2 + 4 * groupCount v.natAbs := by
  simp [codeLen, codeBits, Config.varChunk, varBits_length hv]; omega

theorem codeLen_ref {v : Int} (hv : v.natAbs < 2 ^ 32) : codeLen ⟨.ref, v⟩ = 1 + 4 * groupCount v.natAbs := by
  simp [codeLen, codeBits, Config.varChunk, varBits_length hv]; omega

theorem codeLen_rept {v : Int} (hv : v.natAbs < 2 ^ 32) : codeLen ⟨.rept, v⟩ = 4 * groupCount v.natAbs := by
  simp [codeLen, codeBits, Config.varChunk, varBits_length hv]

/-! ### The matcher (R153) -/

theorem matchDistance_none {tile : Tile} {ds : List Tile} : matchDistance tile ds = none ↔ tile ∉ ds := by
  induction ds with
  | nil => simp [matchDistance]
  | cons d ds ih =>
    unfold matchDistance
    split
    · simp [*]
    · rename_i h; simp [ih, Ne.symm h]

theorem matchDistance_some {tile : Tile} {ds : List Tile} {i : Nat} :
    matchDistance tile ds = some i ↔ ds[i]? = some tile ∧ ∀ j < i, ds[j]? ≠ some tile := by
  induction ds generalizing i with
  | nil => simp [matchDistance]
  | cons d ds ih =>
    unfold matchDistance
    by_cases h : d = tile
    · subst h
      simp only [if_true, Option.some.injEq]
      constructor
      · rintro rfl; simp
      · rintro ⟨_, h2⟩
        by_contra hne
        exact h2 0 (by omega) (by simp)
    · simp only [h, if_false, Option.map_eq_some_iff, ih]
      constructor
      · rintro ⟨k, ⟨h1, h2⟩, rfl⟩
        refine ⟨by simpa using h1, fun j hj => ?_⟩
        cases j with
        | zero => simpa using h
        | succ j => simpa using h2 j (by omega)
      · rintro ⟨h1, h2⟩
        cases i with
        | zero => simp at h1; exact absurd h1 h
        | succ k =>
          exact ⟨k, ⟨by simpa using h1, fun j hj => by simpa using h2 (j + 1) (by omega)⟩, rfl⟩

/-- Everything the matcher can choose (R153): the tile as the first DELTA, a difference of two tiles, or a REF into the
dictionary. -/
theorem choose_cases (dict : List Tile) (tile : Tile) :
    (dict = [] ∧ choose dict tile = ⟨.delta, tile.toNat⟩) ∨
    (∃ last, dict.getLast? = some last ∧ choose dict tile = ⟨.delta, (tile.toNat : Int) - last.toNat⟩) ∨
    (∃ i, matchDistance tile dict.reverse = some i ∧ i < dict.length ∧ choose dict tile = ⟨.ref, (i : Nat)⟩) := by
  unfold choose
  split
  · rename_i h
    exact .inl ⟨by simpa using h, rfl⟩
  · rename_i last earlier h
    have hl : dict.getLast? = some last := by rw [← List.head?_reverse, h]; rfl
    split
    · exact .inr (.inl ⟨last, hl, rfl⟩)
    · rename_i i hi
      rw [← h] at hi
      dsimp only
      split
      · refine .inr (.inr ⟨i, hi, ?_, rfl⟩)
        have := (matchDistance_some.mp hi).1
        have := (List.getElem?_eq_some_iff.mp this).1
        simpa using this
      · exact .inr (.inl ⟨last, hl, rfl⟩)

/-- A chosen code can be the previous code of the next tile (R26): never REPEAT, its value in range. -/
theorem choose_isPrev (dict : List Tile) (tile : Tile) (h : dict.length ≤ 63) : (choose dict tile).isPrev := by
  have ht := tile.isLt
  rcases choose_cases dict tile with ⟨_, e⟩ | ⟨last, _, e⟩ | ⟨i, _, hi, e⟩ <;> rw [e]
  · simp only [Code.isPrev]; omega
  · have := last.isLt
    simp only [Code.isPrev]; omega
  · simp only [Code.isPrev]; omega

theorem choose_ne_invalid (dict : List Tile) (tile : Tile) : (choose dict tile).ty ≠ .invalid := by
  rcases choose_cases dict tile with ⟨_, e⟩ | ⟨last, _, e⟩ | ⟨i, _, hi, e⟩ <;> rw [e] <;> simp

/-- The longest chosen code is 26 bits (R137). -/
theorem codeLen_le_of_isPrev {c : Code} (h : c.isPrev) : (codeBits c).length ≤ 26 := by
  rcases c with ⟨ty, v⟩
  cases ty
  · simp only [Code.isPrev] at h
    have hv : v.natAbs < 2 ^ (3 * 6) := by omega
    have hg := (groupCount_le_iff (by omega)).mpr hv
    have := codeLen_delta (v := v) (by omega)
    unfold codeLen at this
    omega
  · simp only [Code.isPrev] at h
    have hv : v.natAbs < 2 ^ (3 * 2) := by omega
    have hg := (groupCount_le_iff (by omega)).mpr hv
    have := codeLen_ref (v := v) (by omega)
    unfold codeLen at this
    omega
  · simp [Code.isPrev] at h
  · simp [codeBits]

/-- The bits `DUB.CHOOSE` measures, case by case (R153). -/
theorem chooseBits_cases (dict : List Tile) (tile : Tile) :
    (dict = [] ∧ chooseBits dict tile = 0) ∨
    (∃ last, dict.getLast? = some last ∧ tile ∉ dict ∧
      chooseBits dict tile = codeLen ⟨.delta, (tile.toNat : Int) - last.toNat⟩) ∨
    (∃ last i, dict.getLast? = some last ∧ matchDistance tile dict.reverse = some i ∧
      chooseBits dict tile = codeLen ⟨.delta, (tile.toNat : Int) - last.toNat⟩ + codeLen ⟨.ref, (i : Nat)⟩) := by
  unfold chooseBits
  split
  · rename_i h
    exact .inl ⟨by simpa using h, rfl⟩
  · rename_i last earlier h
    have hl : dict.getLast? = some last := by rw [← List.head?_reverse, h]; rfl
    split
    · rename_i hn
      rw [← h, matchDistance_none, List.mem_reverse] at hn
      exact .inr (.inl ⟨last, hl, hn, rfl⟩)
    · rename_i i hi
      rw [← h] at hi
      exact .inr (.inr ⟨last, i, hl, hi, rfl⟩)

/-- At most a DELTA of 26 bits and a REF of 9 are measured for a tile (R137). -/
theorem chooseBits_le (dict : List Tile) (tile : Tile) (h : dict.length ≤ 63) : chooseBits dict tile ≤ 35 := by
  have hd : ∀ last : Tile, codeLen ⟨.delta, (tile.toNat : Int) - last.toNat⟩ ≤ 26 := fun last =>
    codeLen_le_of_isPrev (c := ⟨.delta, (tile.toNat : Int) - last.toNat⟩) (by
      have := tile.isLt
      have := last.isLt
      simp only [Code.isPrev]; omega)
  rcases chooseBits_cases dict tile with ⟨_, e⟩ | ⟨last, _, _, e⟩ | ⟨last, i, _, hi, e⟩
  · omega
  · have := hd last; omega
  · have := hd last
    have hl : i < dict.length := by
      simpa using (List.getElem?_eq_some_iff.mp (matchDistance_some.mp hi).1).1
    have hg : groupCount i ≤ 2 := (groupCount_le_iff (by omega)).mpr (by omega)
    have := codeLen_ref_nat i
    omega

/-- The REPEAT of a run is at most 8 bits (R137, R162). -/
theorem repeat_length_le {n : Nat} (h : n ≤ 63) : (codeBits ⟨.rept, (n : Nat)⟩).length ≤ 8 := by
  have hg : groupCount n ≤ 2 := (groupCount_le_iff (by omega)).mpr (by omega)
  have := codeLen_rept (v := (n : Int)) (by simp; omega)
  unfold codeLen at this
  simp at this
  omega

end Sys2Proof.Machine
end

