-- ==== Sys2Proof/Laws/Block.lean ====
section
/-! SUPPORT. What the block operations can do: emissions and the bit stream, one tile, the end of a block, and the
invariants they keep. -/
namespace Sys2Proof.Machine

/-! ### The bit stream -/

theorem Block.emit_stream {cfg : Config.Params} {b b' : Block} {c : Code} (h : b.emit cfg c = .ok b') :
    b'.stream = b.stream ++ codeBits c := by
  obtain ⟨_, rfl⟩ := Block.emit_ok.mp h
  rw [Block.flush_stream]
  simp [Block.stream, List.append_assoc]

/-- Emitting codes adds their bits, in order, to the stream and touches nothing but the accumulator and the payload. -/
theorem Block.emitAll_stream {cfg : Config.Params} {cs : List Code} {b b' : Block} (h : b.emitAll cfg cs = .ok b') :
    b'.stream = b.stream ++ cs.flatMap codeBits := by
  induction cs generalizing b with
  | nil =>
    simp only [Block.emitAll, Except.ok.injEq] at h
    simp [h]
  | cons c cs ih =>
    simp only [Block.emitAll] at h
    split at h
    · rename_i b1 h1
      rw [ih h, Block.emit_stream h1]
      simp
    · cases h

theorem Block.emitAll_frame {cfg : Config.Params} {cs : List Code} {b b' : Block} (h : b.emitAll cfg cs = .ok b') :
    b' = { b with acc := b'.acc, payload := b'.payload } ∧ b.payload <+: b'.payload := by
  induction cs generalizing b with
  | nil =>
    simp only [Block.emitAll, Except.ok.injEq] at h
    simp [h]
  | cons c cs ih =>
    simp only [Block.emitAll] at h
    split at h
    · rename_i b1 h1
      obtain ⟨_, rfl⟩ := Block.emit_ok.mp h1
      obtain ⟨e, p⟩ := ih h
      exact ⟨e, (List.prefix_append _ _).trans p⟩
    · cases h

/-- After an emission fewer than sixteen bits are buffered (R157). -/
theorem Block.emitAll_acc {cfg : Config.Params} {cs : List Code} {b b' : Block} (h : b.emitAll cfg cs = .ok b')
    (hb : b.acc.length ≤ 15) : b'.acc.length ≤ 15 := by
  induction cs generalizing b with
  | nil =>
    simp only [Block.emitAll, Except.ok.injEq] at h
    rwa [← h]
  | cons c cs ih =>
    simp only [Block.emitAll] at h
    split at h
    · rename_i b1 h1
      obtain ⟨_, rfl⟩ := Block.emit_ok.mp h1
      refine ih h ?_
      rw [Block.flush_acc, Block.flushRest_length]
      omega
    · cases h

/-- An emission leaves no more bits than the accumulator holds. -/
theorem Block.emitAll_acc_le {cfg : Config.Params} {cs : List Code} {b b' : Block} (h : b.emitAll cfg cs = .ok b')
    (hb : b.acc.length ≤ cfg.accBits) : b'.acc.length ≤ cfg.accBits := by
  induction cs generalizing b with
  | nil =>
    simp only [Block.emitAll, Except.ok.injEq] at h
    rwa [← h]
  | cons c cs ih =>
    simp only [Block.emitAll] at h
    split at h
    · rename_i b1 h1
      obtain ⟨hl, rfl⟩ := Block.emit_ok.mp h1
      refine ih h ?_
      rw [Block.flush_acc, Block.flushRest_length]
      simp only [List.length_append]
      exact le_trans (Nat.mod_le _ _) hl
    · cases h

/-- From fewer than sixteen buffered bits, codes of at most 26 bits never fill an accumulator of 41 bits (R137). -/
theorem Block.emitAll_completes {cfg : Config.Params} {cs : List Code} {b : Block} (hb : b.acc.length ≤ 15)
    (ha : 41 ≤ cfg.accBits) (hc : ∀ c ∈ cs, (codeBits c).length ≤ 26) : ∃ b', b.emitAll cfg cs = .ok b' := by
  induction cs generalizing b with
  | nil => exact ⟨b, rfl⟩
  | cons c cs ih =>
    have h1 := hc c (by simp)
    obtain ⟨b', h⟩ := ih (b := ({ b with acc := b.acc ++ codeBits c } : Block).flush)
      (by rw [Block.flush_acc, Block.flushRest_length]; omega) (fun c hc' => hc c (by simp [hc']))
    have h2 : b.acc.length + (codeBits c).length ≤ cfg.accBits := by omega
    exact ⟨b', by simp only [Block.emitAll, Block.emit_of_le h2, h]⟩

theorem Block.stream_length (b : Block) : b.stream.length = 16 * b.payload.length + b.acc.length := by
  have : ∀ ws : List Word, (ws.flatMap wordBits).length = 16 * ws.length := by
    intro ws
    induction ws <;> simp [*]; omega
  simp [Block.stream, this]

/-! ### One tile -/

theorem sameCode_iff {c d : Code} : sameCode c d = true ↔ c = d := by simp [sameCode]

theorem Block.tile_of_lt {cfg : Config.Params} {b : Block} {tile : Tile} (h : b.dict.length < 64) :
    b.tile cfg tile = b.addTile cfg tile := if_pos h

theorem Block.tile_of_ge {cfg : Config.Params} {b : Block} {tile : Tile} (h : 64 ≤ b.dict.length) :
    b.tile cfg tile = .error (.dictionaryFull, b) := if_neg (Nat.not_lt.mpr h)

/-- Everything `DUB.TILE` can do to a block (R158): it emits the codes of its case, then writes the four registers. -/
theorem Block.tile_ok {cfg : Config.Params} {b b' : Block} {tile : Tile} :
    b.tile cfg tile = .ok b' ↔ b.dict.length < 64 ∧
      ∃ b1, b.emitAll cfg (tileEmits cfg b (choose b.dict tile)) = .ok b1 ∧ b' = { b1 with
        prevCode := choose b.dict tile
        repeating := sameCode (choose b.dict tile) b.prevCode
        repeatCount := repeatCountAfterTile b.repeating (sameCode (choose b.dict tile) b.prevCode) b.repeatCount
        dict := b.dict ++ [tile] } := by
  by_cases hd : b.dict.length < 64
  · rw [Block.tile_of_lt hd]
    unfold Block.addTile
    simp only [hd, true_and]
    split
    · rename_i b1 h1
      simp [h1, repeatingAfterTile, eq_comm]
    · rename_i r h1
      simp [h1]
  · rw [Block.tile_of_ge (by omega)]
    simp [hd]

/-- Why a tile is refused: the dictionary (U7) or the accumulator (U6) is full. -/
theorem Block.tile_error {cfg : Config.Params} {b : Block} {tile : Tile} {stop : Refusal × Block}
    (h : b.tile cfg tile = .error stop) :
    (64 ≤ b.dict.length ∧ stop.1 = .dictionaryFull) ∨ (b.dict.length < 64 ∧ stop.1 = .accumulatorFull) := by
  by_cases hd : b.dict.length < 64
  · rw [Block.tile_of_lt hd] at h
    unfold Block.addTile at h
    dsimp only at h
    split at h
    · cases h
    · rename_i r' h1
      cases h
      exact .inr ⟨hd, Block.emitAll_error h1⟩
  · rw [Block.tile_of_ge (by omega)] at h
    cases h
    exact .inl ⟨by omega, rfl⟩

/-- Everything `DUB.BLOCKEND` can do to a block (R160). -/
theorem Block.finish_ok {cfg : Config.Params} {b b' : Block} :
    b.finish cfg = .ok b' ↔
      ∃ b1, b.emitAll cfg (if b.repeating then [⟨.rept, b.repeatCount⟩] else []) = .ok b1 ∧
        b' = ({ b1 with repeating := false } : Block).flushFinal := by
  unfold Block.finish
  split
  · rename_i b1 h1
    rw [h1]
    simp only [Except.ok.injEq, exists_eq_left']
    exact eq_comm
  · rename_i r h1
    rw [h1]
    simp only [reduceCtorEq, false_and, exists_false]

/-! ### A run only adds to the dictionary and the payload, also where it has no result -/

theorem Block.emitAll_grows {cfg : Config.Params} {cs : List Code} {b : Block} :
    (b.emitAll cfg cs).reached.dict = b.dict ∧ b.payload <+: (b.emitAll cfg cs).reached.payload := by
  induction cs generalizing b with
  | nil => exact ⟨rfl, List.prefix_refl _⟩
  | cons c cs ih =>
    by_cases h : b.acc.length + (codeBits c).length ≤ cfg.accBits
    · simp only [Block.emitAll, Block.emit_of_le h]
      have h1 := ih (b := ({ b with acc := b.acc ++ codeBits c } : Block).flush)
      exact ⟨h1.1, List.IsPrefix.trans (List.prefix_append _ _) h1.2⟩
    · simp only [Block.emitAll, Block.emit_of_gt (Nat.lt_of_not_le h)]
      exact ⟨rfl, List.prefix_refl _⟩

theorem Block.tile_grows {cfg : Config.Params} {b : Block} {tile : Tile} :
    b.dict <+: (b.tile cfg tile).reached.dict ∧ b.payload <+: (b.tile cfg tile).reached.payload := by
  by_cases hd : b.dict.length < 64
  · rw [Block.tile_of_lt hd]
    have hg := Block.emitAll_grows (cfg := cfg) (cs := tileEmits cfg b (choose b.dict tile)) (b := b)
    unfold Block.addTile
    dsimp only
    split <;> rename_i h <;> rw [h] at hg
    · exact ⟨List.prefix_append _ _, hg.2⟩
    · exact ⟨by simp only [BlockRun.reached_error] at hg ⊢; rw [hg.1], hg.2⟩
  · rw [Block.tile_of_ge (by omega)]
    exact ⟨List.prefix_refl _, List.prefix_refl _⟩

theorem Block.finish_grows {cfg : Config.Params} {b : Block} :
    (b.finish cfg).reached.dict = b.dict ∧ b.payload <+: (b.finish cfg).reached.payload := by
  have hg := Block.emitAll_grows (cfg := cfg) (cs := if b.repeating then [⟨.rept, b.repeatCount⟩] else []) (b := b)
  unfold Block.finish
  split <;> rename_i h <;> rw [h] at hg
  · exact ⟨hg.1, hg.2.trans (List.prefix_append _ _)⟩
  · exact hg

theorem Block.addTiles_grows {cfg : Config.Params} {ts : List Tile} {b : Block} :
    b.dict <+: (b.addTiles cfg ts).reached.dict ∧ b.payload <+: (b.addTiles cfg ts).reached.payload := by
  induction ts generalizing b with
  | nil => exact ⟨List.prefix_refl _, List.prefix_refl _⟩
  | cons t ts ih =>
    have hg := Block.tile_grows (cfg := cfg) (b := b) (tile := t)
    unfold Block.addTiles
    split <;> rename_i h <;> rw [h] at hg
    · exact ⟨hg.1.trans ih.1, hg.2.trans ih.2⟩
    · exact hg

theorem Block.addTiles_append {cfg : Config.Params} {ts us : List Tile} {b : Block} :
    b.addTiles cfg (ts ++ us) = match b.addTiles cfg ts with
      | .ok b' => b'.addTiles cfg us
      | .error stop => .error stop := by
  induction ts generalizing b with
  | nil => rfl
  | cons t ts ih =>
    simp only [List.cons_append, Block.addTiles]
    cases b.tile cfg t with
    | ok b' => exact ih
    | error stop => rfl

/-- A block run gets at least as far as any of its first tiles. -/
theorem runBlock_grows {cfg : Config.Params} {ts us : List Tile} {b : Block} (h : Block.fresh.addTiles cfg ts = .ok b) :
    b.dict <+: (runBlock cfg (ts ++ us)).reached.dict ∧ b.payload <+: (runBlock cfg (ts ++ us)).reached.payload := by
  have hg := Block.addTiles_grows (cfg := cfg) (ts := us) (b := b)
  unfold runBlock
  rw [Block.addTiles_append, h]
  dsimp only
  cases hu : b.addTiles cfg us with
  | error stop => rw [hu] at hg; exact hg
  | ok b' =>
    rw [hu] at hg
    have hf := Block.finish_grows (cfg := cfg) (b := b')
    exact ⟨by rw [hf.1]; exact hg.1, hg.2.trans hf.2⟩

/-! ### The invariant -/

/-- The whole-machine invariant of a block is kept by a tile. -/
theorem Block.Inv.tile {cfg : Config.Params} {b b' : Block} {tile : Tile} (hi : b.Inv cfg)
    (h : b.tile cfg tile = .ok b') : b'.Inv cfg := by
  obtain ⟨hd, b1, h1, rfl⟩ := Block.tile_ok.mp h
  have hb1 := (Block.emitAll_frame h1).1
  have ha := Block.emitAll_acc_le h1 hi.acc_le
  refine ⟨by simp; omega, ha, choose_isPrev _ _ (by omega), by simp, fun hr => ?_⟩
  dsimp only at hr ⊢
  have hs := sameCode_iff.mp hr
  have hne : b.dict ≠ [] := by
    intro he
    have := hi.prev_invalid he
    rw [← hs] at this
    exact choose_ne_invalid _ _ this
  have hlen : 0 < b.dict.length := List.length_pos_iff.mpr hne
  rw [hr]
  by_cases hrep : b.repeating = true
  · have := hi.run_le hrep
    simp [repeatCountAfterTile, hrep]; omega
  · simp [repeatCountAfterTile, hrep]; omega

theorem Block.Inv.finish {cfg : Config.Params} {b b' : Block} (hi : b.Inv cfg) (h : b.finish cfg = .ok b') :
    b'.Inv cfg := by
  obtain ⟨b1, h1, rfl⟩ := Block.finish_ok.mp h
  have hb1 := (Block.emitAll_frame h1).1
  rw [hb1]
  exact ⟨hi.dict_le, by simp, hi.prev, hi.prev_invalid, by simp⟩

theorem Block.Inv.fresh (cfg : Config.Params) : Block.fresh.Inv cfg :=
  ⟨by simp [Block.fresh], by simp [Block.fresh], by simp [Block.fresh, Code.isPrev], fun _ => rfl, by simp [Block.fresh]⟩

theorem Block.Inv.addTiles {cfg : Config.Params} {ts : List Tile} {b b' : Block} (hi : b.Inv cfg)
    (h : b.addTiles cfg ts = .ok b') : b'.Inv cfg := by
  induction ts generalizing b with
  | nil =>
    simp only [Block.addTiles, Except.ok.injEq] at h
    rwa [← h]
  | cons t ts ih =>
    simp only [Block.addTiles] at h
    split at h
    · rename_i b1 h1
      exact ih (hi.tile h1) h
    · cases h

theorem runBlock_ok {cfg : Config.Params} {ts : List Tile} {b : Block} :
    runBlock cfg ts = .ok b ↔ ∃ b1, Block.fresh.addTiles cfg ts = .ok b1 ∧ b1.finish cfg = .ok b := by
  unfold runBlock
  split
  · rename_i b1 h1; simp [h1]
  · rename_i r h1; simp [h1]

theorem Block.addTiles_dict {cfg : Config.Params} {ts : List Tile} {b b' : Block} (h : b.addTiles cfg ts = .ok b') :
    b'.dict = b.dict ++ ts := by
  induction ts generalizing b with
  | nil =>
    simp only [Block.addTiles, Except.ok.injEq] at h
    simp [h]
  | cons t ts ih =>
    simp only [Block.addTiles] at h
    split at h
    · rename_i b1 h1
      obtain ⟨_, b2, _, rfl⟩ := Block.tile_ok.mp h1
      simpa using ih h
    · cases h

/-- The dictionary of a finished block is its tiles (R159). -/
theorem runBlock_dict {cfg : Config.Params} {ts : List Tile} {b : Block} (h : runBlock cfg ts = .ok b) : b.dict = ts := by
  obtain ⟨b1, h1, h2⟩ := runBlock_ok.mp h
  have hf := (Block.finish_grows (cfg := cfg) (b := b1)).1
  rw [h2, BlockRun.reached_ok] at hf
  simpa [Block.fresh] using hf.trans (Block.addTiles_dict h1)

theorem runBlock_inv {cfg : Config.Params} {ts : List Tile} {b : Block} (h : runBlock cfg ts = .ok b) : b.Inv cfg := by
  obtain ⟨b1, h1, h2⟩ := runBlock_ok.mp h
  exact ((Block.Inv.fresh cfg).addTiles h1).finish h2

/-! ### The room a block needs -/

/-- What holds of a block between tiles (R137, R162): fewer than sixteen bits are buffered; the stream, with the REPEAT
still owed by an open run, has at most 26 bits for each tile; and a DELTA before the last tile was a tile value. -/
structure Block.Fits (b : Block) : Prop where
  acc : b.acc.length ≤ 15
  prev : b.prevCode.isPrev
  prev_invalid : b.dict = [] → b.prevCode.ty = .invalid
  bits : b.stream.length + (if b.repeating then 4 * groupCount b.repeatCount else 0) ≤ 26 * b.dict.length
  some_bits : b.dict ≠ [] → 1 ≤ b.stream.length
  run_le : b.repeating = true → b.repeatCount + 2 ≤ b.dict.length
  before : b.prevCode.ty = .delta → ∀ last, b.dict.getLast? = some last →
    0 ≤ (last.toNat : Int) - b.prevCode.value ∧ (last.toNat : Int) - b.prevCode.value ≤ 65535

theorem Block.Fits.fresh : Block.fresh.Fits :=
  ⟨by simp [Block.fresh], by simp [Block.fresh, Code.isPrev], fun _ => rfl, by simp [Block.fresh, Block.stream],
    by simp [Block.fresh], by simp [Block.fresh], by simp [Block.fresh]⟩

/-- A chosen DELTA leads from a tile value (or from zero) to the tile. -/
theorem choose_before (dict : List Tile) (tile : Tile) (h : (choose dict tile).ty = .delta) :
    0 ≤ (tile.toNat : Int) - (choose dict tile).value ∧ (tile.toNat : Int) - (choose dict tile).value ≤ 65535 := by
  have ht := tile.isLt
  rcases choose_cases dict tile with ⟨_, e⟩ | ⟨last, _, e⟩ | ⟨i, _, hi, e⟩
  · simp [e]
  · have := last.isLt
    simp [e]; omega
  · simp [e] at h

/-- A DELTA chosen twice in a row has at most 22 bits. -/
theorem repeated_length {b : Block} (hf : b.Fits) {tile : Tile} (hd : b.dict.length ≤ 63)
    (hs : choose b.dict tile = b.prevCode) : (codeBits b.prevCode).length ≤ 22 := by
  have ht := tile.isLt
  have hp := choose_isPrev b.dict tile hd
  rcases choose_cases b.dict tile with ⟨hn, e⟩ | ⟨last, hl, e⟩ | ⟨i, _, hi, e⟩
  · have := hf.prev_invalid hn
    rw [← hs, e] at this
    simp at this
  · have hb := hf.before (by rw [← hs, e]) last hl
    rw [← hs, e] at hb ⊢
    have hla := last.isLt
    dsimp only at hb
    have hv : ((tile.toNat : Int) - last.toNat).natAbs < 2 ^ (3 * 5) := by omega
    have hg := (groupCount_le_iff (by omega)).mpr hv
    have := codeLen_delta (v := (tile.toNat : Int) - last.toNat) (by omega)
    unfold codeLen at this
    omega
  · rw [← hs, e]
    have := codeLen_ref_nat i
    have hg : groupCount i ≤ 2 := (groupCount_le_iff (by omega)).mpr (by omega)
    unfold codeLen at this
    omega

theorem rept_length {n : Nat} (h : n < 2 ^ 32) : (codeBits ⟨.rept, (n : Nat)⟩).length = 4 * groupCount n := by
  have := codeLen_rept (v := (n : Int)) (by simpa using h)
  simpa [codeLen] using this

theorem groupCount_succ_le {n : Nat} : groupCount (n + 1) ≤ groupCount n + 1 := by
  have hn := one_le_groupCount n
  rw [groupCount_le_iff (by omega)]
  have h := (groupCount_le_iff hn).mp le_rfl
  have : (2 : Nat) ^ (3 * (groupCount n + 1)) = 8 * 2 ^ (3 * groupCount n) := by rw [Nat.mul_succ, pow_add]; ring
  omega

/-- Every tile up to the 64th completes in an accumulator of 41 bits, and leaves a block that fits (R137, R162). -/
theorem Block.Fits.tile {cfg : Config.Params} {b : Block} (hf : b.Fits) (ha : 41 ≤ cfg.accBits)
    (hd : b.dict.length ≤ 63) (tile : Tile) : ∃ b', b.tile cfg tile = .ok b' ∧ b'.Fits ∧ b'.dict = b.dict ++ [tile] := by
  have hcode : (codeBits (choose b.dict tile)).length ≤ 26 := codeLen_le_of_isPrev (choose_isPrev _ _ hd)
  have hrl : b.repeating = true → (codeBits ⟨.rept, (b.repeatCount : Nat)⟩).length = 4 * groupCount b.repeatCount :=
    fun hr => rept_length (by have := hf.run_le hr; omega)
  have hrs : b.repeating = true → 4 * groupCount b.repeatCount ≤ 8 := by
    intro hr
    have := hf.run_le hr
    have hg : groupCount b.repeatCount ≤ 2 := (groupCount_le_iff (by omega)).mpr (by omega)
    omega
  have hne : sameCode (choose b.dict tile) b.prevCode = true → 0 < b.dict.length := by
    intro hs
    rw [List.length_pos_iff]
    intro he
    have := hf.prev_invalid he
    rw [← sameCode_iff.mp hs] at this
    exact choose_ne_invalid _ _ this
  have hone : 1 ≤ (codeBits (choose b.dict tile)).length := by
    rcases choose_cases b.dict tile with ⟨_, e⟩ | ⟨last, _, e⟩ | ⟨i, _, hi, e⟩ <;> rw [e] <;> simp [codeBits]
  have hem : ∀ c ∈ tileEmits cfg b (choose b.dict tile), (codeBits c).length ≤ 26 := by
    intro c hc
    unfold tileEmits at hc
    dsimp only at hc
    split at hc
    · simp at hc
    · rename_i hr _
      simp only [List.mem_cons, List.not_mem_nil, or_false] at hc
      rcases hc with rfl | rfl
      · have := hrl hr; have := hrs hr; omega
      · exact hcode
    · split at hc
      · simp only [List.mem_singleton] at hc; rw [hc]; exact hcode
      · simp at hc
    · simp only [List.mem_singleton] at hc; rw [hc]; exact hcode
  obtain ⟨b1, h1⟩ := Block.emitAll_completes hf.acc ha hem
  refine ⟨_, Block.tile_ok.mpr ⟨by omega, b1, h1, rfl⟩, ?_, rfl⟩
  have hst := Block.emitAll_stream h1
  have hbits := hf.bits
  have hstl : b1.stream.length = b.stream.length +
      ((tileEmits cfg b (choose b.dict tile)).flatMap codeBits).length := by rw [hst]; simp
  have hacc := Block.emitAll_acc h1 hf.acc
  refine ⟨hacc, choose_isPrev _ _ hd, by simp, ?_, fun _ => ?_, fun hr => ?_, ?_⟩
  · show b1.stream.length + (if sameCode (choose b.dict tile) b.prevCode then
      4 * groupCount (repeatCountAfterTile b.repeating (sameCode (choose b.dict tile) b.prevCode) b.repeatCount) else 0) ≤
      26 * (b.dict ++ [tile]).length
    rw [hstl]
    simp only [List.length_append, List.length_singleton]
    by_cases hr : b.repeating = true <;> by_cases hs : sameCode (choose b.dict tile) b.prevCode = true
    · have := groupCount_succ_le (n := b.repeatCount)
      simp [tileEmits, hr, hs, repeatCountAfterTile] at hbits ⊢
      omega
    · have := hrl hr
      simp [tileEmits, hr, hs] at hbits ⊢
      omega
    · have h0 : groupCount 0 = 1 := by decide
      have h22 := repeated_length hf hd (sameCode_iff.mp hs)
      rw [← sameCode_iff.mp hs] at h22
      by_cases he : cfg.dubRunStartEmit = true
      · simp [tileEmits, hr, hs, he, repeatCountAfterTile, h0] at hbits ⊢
        omega
      · simp [tileEmits, hr, hs, he, repeatCountAfterTile, h0] at hbits ⊢
        omega
    · simp [tileEmits, hr, hs] at hbits ⊢
      omega
  · show 1 ≤ b1.stream.length
    rw [hstl]
    by_cases hn : b.dict = []
    · have hs : sameCode (choose b.dict tile) b.prevCode = false := by
        by_contra hh
        have := hne (by simpa using hh)
        rw [hn] at this
        simp at this
      by_cases hr : b.repeating = true
      · simp [tileEmits, hr, hs]; omega
      · simp [tileEmits, hr, hs]; omega
    · have := hf.some_bits hn
      omega
  · dsimp only at hr ⊢
    have hpos := hne hr
    rw [hr]
    by_cases hrep : b.repeating = true
    · have := hf.run_le hrep
      simp [repeatCountAfterTile, hrep]; omega
    · simp [repeatCountAfterTile, hrep]; omega
  · intro hty last hl
    simp only [List.getLast?_append, List.getLast?_singleton, Option.some_or, Option.some.injEq] at hl
    subst hl
    exact choose_before _ _ hty

/-- The end of a block that fits: it completes, with no bit left and at most 104 words for 64 tiles (R162). -/
theorem Block.Fits.finish {cfg : Config.Params} {b : Block} (hf : b.Fits) (ha : 41 ≤ cfg.accBits)
    (hd : b.dict.length ≤ 64) (hne : b.dict ≠ []) :
    ∃ b', b.finish cfg = .ok b' ∧ 1 ≤ b'.payload.length ∧ b'.payload.length ≤ 104 ∧ b'.acc = [] ∧ b'.dict = b.dict ∧
      b'.repeating = false := by
  have hrl : b.repeating = true → (codeBits ⟨.rept, (b.repeatCount : Nat)⟩).length = 4 * groupCount b.repeatCount :=
    fun hr => rept_length (by have := hf.run_le hr; omega)
  have hrs : b.repeating = true → 4 * groupCount b.repeatCount ≤ 8 := by
    intro hr
    have := hf.run_le hr
    have hg : groupCount b.repeatCount ≤ 2 := (groupCount_le_iff (by omega)).mpr (by omega)
    omega
  obtain ⟨b1, h1⟩ := Block.emitAll_completes (cs := if b.repeating then [⟨.rept, b.repeatCount⟩] else []) hf.acc ha (by
    intro c hc
    by_cases hr : b.repeating = true
    · simp only [hr, if_true, List.mem_singleton] at hc
      have := hrl hr
      have := hrs hr
      rw [hc]; omega
    · simp [hr] at hc)
  have hst := Block.emitAll_stream h1
  have hfr := (Block.emitAll_frame h1).1
  have hbits := hf.bits
  have hsome := hf.some_bits hne
  have hlen : b1.stream.length ≤ 26 * b.dict.length ∧ 1 ≤ b1.stream.length := by
    rw [hst]
    by_cases hr : b.repeating = true
    · have := hrl hr
      simp [hr] at hbits ⊢
      omega
    · simp [hr] at hbits ⊢
      omega
  rw [Block.stream_length] at hlen
  refine ⟨_, Block.finish_ok.mpr ⟨b1, h1, rfl⟩, ?_, ?_, rfl, by rw [hfr]; rfl, rfl⟩ <;>
    simp only [Block.flushFinal_payload, List.length_append, Block.flushFinalWords_length] <;> omega

/-! ### Sequences of tiles -/

/-- Tiles up to the 64th complete in an accumulator of 41 bits (R137, R162). -/
theorem Block.Fits.addTiles {cfg : Config.Params} (ha : 41 ≤ cfg.accBits) {ts : List Tile} {b : Block} (hf : b.Fits)
    (hl : b.dict.length + ts.length ≤ 64) : ∃ b', b.addTiles cfg ts = .ok b' ∧ b'.Fits ∧ b'.dict = b.dict ++ ts := by
  induction ts generalizing b with
  | nil => exact ⟨b, rfl, hf, by simp⟩
  | cons t ts ih =>
    simp only [List.length_cons] at hl
    obtain ⟨b1, h1, h2, h3⟩ := hf.tile ha (by omega) t
    obtain ⟨b', h4, h5, h6⟩ := ih h2 (by rw [h3]; simp; omega)
    exact ⟨b', by simp [Block.addTiles, h1, h4], h5, by rw [h6, h3]; simp⟩

/-! ### The answers asked for the accumulators (R63) -/

/-- Codes that are all emitted ask for one answer a bit. -/
theorem Block.emitAsks_of_ok {cfg : Config.Params} {cs : List Code} {b b' : Block} (h : b.emitAll cfg cs = .ok b') :
    b.emitAsks cfg cs = bitAsks cfg (cs.flatMap codeBits).length := by
  induction cs generalizing b with
  | nil => simp [Block.emitAsks]
  | cons c cs ih =>
    simp only [Block.emitAll] at h
    split at h
    · rename_i b1 h1
      simp only [Block.emitAsks, h1, Block.appendAsks_of_le (Block.emit_ok.mp h1).1, ih h, List.flatMap_cons,
        List.length_append, bitAsks_add]
    · cases h

/-- A code that has no room is the last for which an answer is asked. -/
theorem Block.emitAsks_of_gt {cfg : Config.Params} {c : Code} {cs : List Code} {b : Block}
    (h : cfg.accBits < b.acc.length + (codeBits c).length) : b.emitAsks cfg (c :: cs) = b.appendAsks cfg (codeBits c) := by
  simp [Block.emitAsks, Block.emit_of_gt h]

theorem Block.tileAsks_of_lt {cfg : Config.Params} {b : Block} {tile : Tile} (h : b.dict.length < 64) :
    b.tileAsks cfg tile =
      bitAsks cfg (chooseBits b.dict tile) + b.emitAsks cfg (tileEmits cfg b (choose b.dict tile)) := if_pos h

theorem Block.tileAsks_of_ge {cfg : Config.Params} {b : Block} {tile : Tile} (h : 64 ≤ b.dict.length) :
    b.tileAsks cfg tile = 0 := if_neg (Nat.not_lt.mpr h)

/-- A tile that completes asks for the bits it measured and those it added to the stream. -/
theorem Block.tileAsks_of_ok {cfg : Config.Params} {b b' : Block} {tile : Tile} (h : b.tile cfg tile = .ok b') :
    b.stream.length ≤ b'.stream.length ∧
    b.tileAsks cfg tile = bitAsks cfg (chooseBits b.dict tile + (b'.stream.length - b.stream.length)) := by
  obtain ⟨hd, b1, h1, rfl⟩ := Block.tile_ok.mp h
  have hs : b1.stream.length = b.stream.length + ((tileEmits cfg b (choose b.dict tile)).flatMap codeBits).length := by
    rw [Block.emitAll_stream h1, List.length_append]
  refine ⟨hs ▸ Nat.le_add_right _ _, ?_⟩
  rw [Block.tileAsks_of_lt hd, Block.emitAsks_of_ok h1, ← bitAsks_add]
  congr 2
  exact (Nat.sub_eq_of_eq_add (by rw [Nat.add_comm]; exact hs)).symm

/-- The REPEAT of an open run is all that the end of a block asks for. -/
theorem Block.finishAsks_of_ok {cfg : Config.Params} {b b' : Block} (h : b.finish cfg = .ok b') :
    b.finishAsks cfg = bitAsks cfg (if b.repeating then (codeBits ⟨.rept, b.repeatCount⟩).length else 0) := by
  obtain ⟨b1, h1, -⟩ := Block.finish_ok.mp h
  unfold Block.finishAsks
  rw [Block.emitAsks_of_ok h1]
  split <;> simp

/-- Tiles that complete ask for at most 35 measured bits each, and for those they added to the stream. -/
theorem Block.addTilesAsks_of_ok {cfg : Config.Params} {ts : List Tile} {b b' : Block} (h : b.addTiles cfg ts = .ok b') :
    b.stream.length ≤ b'.stream.length ∧ ∃ m ≤ 35 * ts.length,
      b.addTilesAsks cfg ts = bitAsks cfg (m + (b'.stream.length - b.stream.length)) := by
  induction ts generalizing b with
  | nil =>
    simp only [Block.addTiles, Except.ok.injEq] at h
    subst h
    exact ⟨le_rfl, 0, by simp, by simp [Block.addTilesAsks]⟩
  | cons t ts ih =>
    simp only [Block.addTiles] at h
    split at h
    · rename_i b1 h1
      obtain ⟨l1, e1⟩ := Block.tileAsks_of_ok h1
      obtain ⟨l2, m, hm, e2⟩ := ih h
      have hc := chooseBits_le b.dict t (by have := (Block.tile_ok.mp h1).1; omega)
      refine ⟨l1.trans l2, chooseBits b.dict t + m, by simp only [List.length_cons]; omega, ?_⟩
      simp only [Block.addTilesAsks, h1]
      rw [e1, e2, ← bitAsks_add]
      congr 1
      omega
    · cases h

theorem Block.addTilesAsks_append {cfg : Config.Params} {ts us : List Tile} {b : Block} :
    b.addTilesAsks cfg (ts ++ us) = b.addTilesAsks cfg ts +
      match b.addTiles cfg ts with
      | .ok b' => b'.addTilesAsks cfg us
      | .error _ => 0 := by
  induction ts generalizing b with
  | nil => simp [Block.addTilesAsks, Block.addTiles]
  | cons t ts ih =>
    simp only [List.cons_append, Block.addTilesAsks, Block.addTiles]
    cases b.tile cfg t with
    | ok b' => simp only [ih, Nat.add_assoc]
    | error stop => rfl

/-- A block run asks for at least the answers of any of its first tiles. -/
theorem addTilesAsks_le_runBlockAsks {cfg : Config.Params} (ts us : List Tile) :
    Block.fresh.addTilesAsks cfg ts ≤ runBlockAsks cfg (ts ++ us) := by
  unfold runBlockAsks
  rw [Block.addTilesAsks_append]
  omega

/-- The asks of a finished block run. -/
theorem runBlockAsks_of_ok {cfg : Config.Params} {ts : List Tile} {b : Block} (h : Block.fresh.addTiles cfg ts = .ok b) :
    runBlockAsks cfg ts = Block.fresh.addTilesAsks cfg ts + b.finishAsks cfg := by
  unfold runBlockAsks
  rw [h]

/-! ### How a block operation ends -/

/-- A measurement whose bits are granted returns its value. -/
theorem measured_of_grants {n : Nat} {r : Result} {s : State} (h : s.Grants (bitAsks s.cfg n)) :
    measured n r s = .next { s with exhaust := s.exhaust.drop (bitAsks s.cfg n), result := r } := by
  unfold measured
  rw [withAppends_of_grants h]
  rfl

theorem measured_of_refuses {n : Nat} {r : Result} {s : State} (h : ¬ s.Grants (bitAsks s.cfg n)) :
    measured n r s = .next (raiseCondition .finer .resourceExhausted { s with exhaust := s.afterRefusal }) := by
  unfold measured
  rw [withAppends_of_refuses h]

/-- When the oracle grants every append of the run, its result stands. -/
theorem endBlock_of_grants {before : Block} {run : BlockRun} {asks : Nat} {r : Block → Result} {s : State}
    (h : s.Grants (run.reached.appendsSince before + asks)) : endBlock before run asks r s =
      match run with
      | .ok b => .next { s with blk := b, exhaust := s.exhaust.drop (b.appendsSince before + asks), result := r b }
      | .error stop => .refused stop.1 := by
  unfold endBlock
  rw [endRun_of_grants h]
  cases run <;> rfl

/-- When the oracle refuses one of the appends of the run, the condition is entered, whether or not the run would have
had a result. -/
theorem endBlock_of_refuses {before : Block} {run : BlockRun} {asks : Nat} {r : Block → Result} {s : State}
    (h : ¬ s.Grants (run.reached.appendsSince before + asks)) : endBlock before run asks r s =
      .next (raiseCondition .finer .resourceExhausted { s with exhaust := s.afterRefusal }) := endRun_of_refuses h

end Sys2Proof.Machine
end

