-- ==== Sys2Proof/Laws/Asset.lean ====
section
/-! SUPPORT. What the asset operations can do: the store, the index values, the blocks of a frame, and the loop of
`DUB.ENCODE`. -/
namespace Sys2Proof.Machine

/-! ### The store (R182) -/

theorem storeLookup_none {p : List Word} {st : List (List Word × Nat)} :
    storeLookup p st = none ↔ ∀ e ∈ st, e.1 ≠ p := by
  induction st with
  | nil => simp [storeLookup]
  | cons e st ih =>
    obtain ⟨k, o⟩ := e
    unfold storeLookup
    by_cases h : k = p
    · simp [h]
    · simp [h, ih]

theorem storeLookup_mem {p : List Word} {st : List (List Word × Nat)} {o : Nat} (h : storeLookup p st = some o) :
    (p, o) ∈ st := by
  induction st with
  | nil => simp [storeLookup] at h
  | cons e st ih =>
    obtain ⟨k, o'⟩ := e
    unfold storeLookup at h
    by_cases hk : k = p
    · simp only [hk, if_true, Option.some.injEq] at h
      simp [hk, h]
    · simp only [hk, if_false] at h
      simp [ih h]

/-- In a store of distinct payloads the lookup finds the entry (R182). -/
theorem storeLookup_of_mem {p : List Word} {st : List (List Word × Nat)} {o : Nat} (hn : (st.map (·.1)).Nodup)
    (h : (p, o) ∈ st) : storeLookup p st = some o := by
  induction st with
  | nil => simp at h
  | cons e st ih =>
    obtain ⟨k, o'⟩ := e
    simp only [List.map_cons, List.nodup_cons] at hn
    unfold storeLookup
    rcases List.mem_cons.mp h with h | h
    · simp only [Prod.mk.injEq] at h
      simp [h.1, h.2]
    · have hk : k ≠ p := by
        rintro rfl
        exact hn.1 (List.mem_map.mpr ⟨(k, o), h, rfl⟩)
      simp [hk, ih hn.2 h]

theorem storePlaced_append {st : List (List Word × Nat)} {start : Nat} {p : List Word} {o : Nat} :
    storePlaced start (st ++ [(p, o)]) ↔
      storePlaced start st ∧ o = start + (st.map (·.1)).flatten.length := by
  induction st generalizing start with
  | nil => simp [storePlaced]
  | cons e st ih =>
    obtain ⟨k, o'⟩ := e
    simp only [List.cons_append, storePlaced, ih, List.map_cons, List.flatten_cons, List.length_append, Nat.add_assoc,
      and_assoc]

/-- `DUB.DEDUP` keeps the invariant of the asset. -/
theorem Asset.Inv.dedup {a : Asset} (h : a.Inv) (p : List Word) : (a.dedup p).Inv := by
  unfold Asset.dedup
  split
  · rename_i o ho
    refine ⟨h.data, h.distinct, h.placed, ?_⟩
    intro x hx
    rcases List.mem_append.mp hx with hx | hx
    · exact h.pointed x hx
    · rw [List.mem_singleton.mp hx]
      exact List.mem_map.mpr ⟨_, storeLookup_mem ho, rfl⟩
  · rename_i hn
    rw [storeLookup_none] at hn
    refine ⟨by simp [h.data], ?_, ?_, ?_⟩
    · simp only [List.map_append, List.map_cons, List.map_nil]
      rw [List.nodup_append]
      refine ⟨h.distinct, by simp, ?_⟩
      intro x hx y hy
      rw [List.mem_singleton.mp hy]
      obtain ⟨e, he, rfl⟩ := List.mem_map.mp hx
      exact hn e he
    · rw [storePlaced_append]
      exact ⟨h.placed, by rw [h.data]; simp⟩
    · intro x hx
      simp only [List.map_append, List.map_cons, List.map_nil, List.mem_append, List.mem_singleton] at hx ⊢
      rcases hx with hx | hx
      · exact .inl (h.pointed x hx)
      · exact .inr hx

theorem Asset.Inv.selectIndex {a : Asset} (h : a.Inv) : a.selectIndex.Inv := ⟨h.data, h.distinct, h.placed, h.pointed⟩

theorem Asset.Inv.empty : Asset.empty.Inv := ⟨rfl, by simp [Asset.empty], trivial, by simp [Asset.empty]⟩

/-- A stored payload stands in the block data at its offset (R182, R191). -/
theorem stored_at {st : List (List Word × Nat)} {start : Nat} (hp : storePlaced start st) {p : List Word} {o : Nat}
    (h : (p, o) ∈ st) :
    start ≤ o ∧ o + p.length ≤ start + (st.map (·.1)).flatten.length ∧
      ((st.map (·.1)).flatten.drop (o - start)).take p.length = p := by
  induction st generalizing start with
  | nil => simp at h
  | cons e st ih =>
    obtain ⟨k, o'⟩ := e
    simp only [storePlaced] at hp
    obtain ⟨rfl, hp⟩ := hp
    simp only [List.map_cons, List.flatten_cons, List.length_append]
    rcases List.mem_cons.mp h with h | h
    · simp only [Prod.mk.injEq] at h
      obtain ⟨rfl, rfl⟩ := h
      refine ⟨le_rfl, by omega, by simp⟩
    · obtain ⟨h1, h2, h3⟩ := ih hp h
      refine ⟨by omega, by omega, ?_⟩
      have e1 : o - o' = k.length + (o - (o' + k.length)) := by omega
      rw [e1, ← List.drop_drop, List.drop_left]
      exact h3

theorem Asset.Inv.payload_at {a : Asset} (h : a.Inv) {p : List Word} {o : Nat} (hm : (p, o) ∈ a.store) :
    o + p.length ≤ a.blockData.length ∧ (a.blockData.drop o).take p.length = p := by
  obtain ⟨_, h2, h3⟩ := stored_at h.placed hm
  rw [h.data]
  simpa using And.intro h2 h3

/-! ### The index (R184, R185, R186) -/

theorem nextWord_le_indexWords {wide : Bool} {i n : Nat} (h : i < n) : nextWord wide i ≤ indexWords wide n := by
  unfold nextWord indexWords
  split <;> omega

theorem packedFrom_getElem? (wide : Bool) (size k : Nat) (os : List Nat) (i : Nat) :
    (packedFrom wide size k os)[i]? = os[i]?.map fun o => size + o - nextWord wide (k + i) := by
  induction os generalizing k i with
  | nil => simp [packedFrom]
  | cons o os ih =>
    cases i with
    | zero => simp [packedFrom]
    | succ i =>
      have : k + 1 + i = k + (i + 1) := by omega
      simp [packedFrom, ih, this]

theorem packedFrom_length (wide : Bool) (size k : Nat) (os : List Nat) :
    (packedFrom wide size k os).length = os.length := by
  induction os generalizing k <;> simp [packedFrom, *]

@[simp] theorem packedIndex_length (wide : Bool) (os : List Nat) : (packedIndex wide os).length = os.length :=
  packedFrom_length _ _ _ _

/-- Every packed value is the size plus the offset less the next word (R184). -/
theorem packedIndex_getElem? (wide : Bool) (os : List Nat) (i : Nat) :
    (packedIndex wide os)[i]? = os[i]?.map fun o => indexWords wide os.length + o - nextWord wide i := by
  rw [packedIndex, packedFrom_getElem?, Nat.zero_add]

/-- The 16-bit form is taken exactly when some value of the 8-bit form is 256 or more (R185). -/
theorem needsIndex16_iff (os : List Nat) :
    needsIndex16 os = true ↔ ∃ i o, os[i]? = some o ∧ 256 ≤ indexWords false os.length + o - nextWord false i := by
  simp only [needsIndex16, List.any_eq_true, Config.index8Limit]
  constructor
  · rintro ⟨p, hp, h⟩
    obtain ⟨i, hi⟩ := List.mem_iff_getElem?.mp hp
    rw [packedIndex_getElem?, Option.map_eq_some_iff] at hi
    obtain ⟨o, ho, rfl⟩ := hi
    exact ⟨i, o, ho, of_decide_eq_true h⟩
  · rintro ⟨i, o, ho, h⟩
    exact ⟨_, List.mem_iff_getElem?.mpr ⟨i, by rw [packedIndex_getElem?, ho]; rfl⟩, decide_eq_true h⟩

theorem wordsOfBytes_length (bs : List (BitVec 8)) : (wordsOfBytes bs).length = (bs.length + 1) / 2 := by
  induction bs using wordsOfBytes.induct with
  | case1 => simp [wordsOfBytes]
  | case2 b => simp [wordsOfBytes]
  | case3 l h r ih => simp [wordsOfBytes, ih]; omega

/-- Byte `i` of the regrouped words is byte `i` of the list (R55, R85). -/
theorem wordsOfBytes_byte (bs : List (BitVec 8)) (i : Nat) (h : i < bs.length) :
    ((wordsOfBytes bs).getD (i / 2) 0).toNat / 256 ^ (i % 2) % 256 = (bs.getD i 0).toNat := by
  induction bs using wordsOfBytes.induct generalizing i with
  | case1 => simp at h
  | case2 b =>
    have hi : i = 0 := by simpa using h
    subst hi
    have := b.isLt
    have hw : ((0 : BitVec 8) ++ b : BitVec 16).toNat = b.toNat := by
      rw [BitVec.toNat_append, ← Nat.shiftLeft_add_eq_or_of_lt (by omega), Nat.shiftLeft_eq]; simp
    simp only [wordsOfBytes, Nat.zero_div, List.getD_cons_zero]
    rw [hw]; simp; omega
  | case3 lo hi r ih =>
    have hlo := lo.isLt
    have hhi := hi.isLt
    have hw : (hi ++ lo : BitVec 16).toNat = lo.toNat + 256 * hi.toNat := by
      rw [BitVec.toNat_append, ← Nat.shiftLeft_add_eq_or_of_lt (by omega), Nat.shiftLeft_eq]; omega
    rcases i with _ | _ | i
    · simp only [wordsOfBytes, Nat.zero_div, List.getD_cons_zero]
      rw [hw]; simp; omega
    · simp only [wordsOfBytes]
      show (hi ++ lo : BitVec 16).toNat / 256 ^ 1 % 256 = hi.toNat
      rw [hw]; omega
    · have h2 := ih i (by simp at h; omega)
      have e1 : (i + 1 + 1) / 2 = i / 2 + 1 := by omega
      have e2 : (i + 1 + 1) % 2 = i % 2 := by omega
      simp only [wordsOfBytes, e1, e2, List.getD_cons_succ]
      exact h2

/-- Word `k` of regrouped bytes, a byte past the end being zero (R186). -/
theorem wordsOfBytes_word (bs : List (BitVec 8)) (k : Nat) :
    ((wordsOfBytes bs).getD k 0).toNat = (bs.getD (2 * k) 0).toNat + 256 * (bs.getD (2 * k + 1) 0).toNat := by
  have join : ∀ hi lo : BitVec 8, (hi ++ lo : BitVec 16).toNat = lo.toNat + 256 * hi.toNat := by
    intro hi lo
    have := lo.isLt
    rw [BitVec.toNat_append, ← Nat.shiftLeft_add_eq_or_of_lt (by omega), Nat.shiftLeft_eq]
    omega
  induction bs using wordsOfBytes.induct generalizing k with
  | case1 => simp [wordsOfBytes]
  | case2 b =>
    cases k with
    | zero => simpa [wordsOfBytes] using join 0 b
    | succ k => simp [wordsOfBytes, Nat.mul_succ]
  | case3 lo hi r ih =>
    cases k with
    | zero => simpa [wordsOfBytes] using join hi lo
    | succ k => simpa [wordsOfBytes, Nat.mul_succ] using ih k

/-- The index region (R186): a 16-bit entry a word, or two bytes a word, the odd one beside a zero byte. -/
theorem Asset.indexRegion_word (a : Asset) (k : Nat) : (a.indexRegion.getD k 0).toNat =
    if a.isIndex16 then a.packed.getD k 0 % 65536
    else a.packed.getD (2 * k) 0 % 256 + 256 * (a.packed.getD (2 * k + 1) 0 % 256) := by
  have entry : ∀ n i, ((a.packed.map (BitVec.ofNat n)).getD i 0).toNat = a.packed.getD i 0 % 2 ^ n := by
    intro n i
    simp only [List.getD, List.getElem?_map]
    cases a.packed[i]? <;> simp
  unfold Asset.indexRegion
  split
  · exact entry 16 k
  · rw [wordsOfBytes_word, entry, entry]
    rfl

/-- An asset after `DUB.INDEXSEL` (R185). -/
structure Asset.Selected (a : Asset) : Prop where
  wide : a.isIndex16 = needsIndex16 a.offsets
  size : a.indexSize = indexWords a.isIndex16 a.offsets.length
  packed : a.packed = packedIndex a.isIndex16 a.offsets

theorem Asset.selectIndex_selected (a : Asset) : a.selectIndex.Selected := ⟨rfl, rfl, rfl⟩

theorem Asset.Selected.indexRegion_length {a : Asset} (h : a.Selected) : a.indexRegion.length = a.indexSize := by
  unfold Asset.indexRegion
  rw [h.size, h.packed]
  by_cases hw : a.isIndex16 = true
  · simp [hw, indexWords]
  · simp [hw, indexWords, wordsOfBytes_length]

theorem overflows_iff {i d : Nat} : overflows i d = true ↔ 65536 ≤ i + d :=
  ⟨fun h => of_decide_eq_true h, fun h => decide_eq_true h⟩

theorem overflows_eq_false_iff {i d : Nat} : overflows i d = false ↔ i + d < 65536 := by
  rw [← Nat.not_le, ← overflows_iff, Bool.not_eq_true]

/-! ### The blocks of a frame (R181) -/

/-- The rows or columns of a block are those of the frame that lie in its eight. -/
theorem blockSpan_eq_filter (k limit : Nat) :
    blockSpan k limit = (List.range limit).filter fun y => decide (8 * k ≤ y) && decide (y < 8 * k + 8) := by
  have hs : (blockSpan k limit).Pairwise (· < ·) := by
    unfold blockSpan
    rw [List.pairwise_map]
    exact List.pairwise_lt_range.imp (by intro a b h; omega)
  have hf : ((List.range limit).filter fun y => decide (8 * k ≤ y) && decide (y < 8 * k + 8)).Pairwise (· < ·) :=
    List.pairwise_lt_range.filter _
  refine List.Perm.eq_of_pairwise' hs hf ?_
  rw [List.perm_ext_iff_of_nodup (hs.imp (by intro a b h; omega)) (hf.imp (by intro a b h; omega))]
  intro y
  simp only [blockSpan, Config.blockSide, List.mem_map, List.mem_range, List.mem_filter, Bool.and_eq_true,
    decide_eq_true_eq]
  constructor
  · rintro ⟨j, hj, rfl⟩
    omega
  · rintro ⟨h1, h2, h3⟩
    exact ⟨y - 8 * k, by omega, by omega⟩

theorem blockSpan_length (k limit : Nat) : (blockSpan k limit).length = min 8 (limit - 8 * k) := by
  simp [blockSpan, Config.blockSide]

theorem blockTiles_length (tiles : List Tile) (w h f y x : Nat) :
    (blockTiles tiles w h f y x).length = min 8 (h - 8 * y) * min 8 (w - 8 * x) := by
  simp only [blockTiles, List.length_flatMap, List.length_map, blockSpan_length]
  simp [blockSpan_length]

theorem assetBlocks_length (tiles : List Tile) (w h f : Nat) :
    (assetBlocks tiles w h f).length = ceil8 w * ceil8 h * f := by simp [assetBlocks]

/-- Every block of an asset has 1 to 64 tiles. -/
theorem assetBlocks_sizes {tiles : List Tile} {w h f : Nat} {ts : List Tile} (hm : ts ∈ assetBlocks tiles w h f) :
    1 ≤ ts.length ∧ ts.length ≤ 64 := by
  simp only [assetBlocks, List.mem_map, List.mem_range] at hm
  obtain ⟨i, hi, rfl⟩ := hm
  rw [blockTiles_length]
  have hw : 0 < ceil8 w := by
    by_contra hh
    have : ceil8 w = 0 := by omega
    simp [this] at hi
  have hh : 0 < ceil8 h := by
    by_contra hh
    have : ceil8 h = 0 := by omega
    simp [this] at hi
  have h1 : i % ceil8 w < ceil8 w := Nat.mod_lt _ hw
  have h2 : i / ceil8 w % ceil8 h < ceil8 h := Nat.mod_lt _ hh
  have e1 : 1 ≤ min 8 (w - 8 * (i % ceil8 w)) := by
    generalize i % ceil8 w = x at h1
    unfold ceil8 at h1; omega
  have e2 : 1 ≤ min 8 (h - 8 * (i / ceil8 w % ceil8 h)) := by
    generalize i / ceil8 w % ceil8 h = y at h2
    unfold ceil8 at h2; omega
  exact ⟨Nat.mul_pos e2 e1, Nat.mul_le_mul (min_le_left _ _) (min_le_left _ _)⟩

/-! ### The loop of `DUB.ENCODE` (R188) -/

theorem Asset.dedup_offsets (a : Asset) (p : List Word) : (a.dedup p).offsets = a.offsets ++ [a.offsetOf p] := by
  unfold Asset.dedup Asset.offsetOf
  split <;> rename_i h <;> simp [h]

/-- `DUB.DEDUP` only adds to the store. -/
theorem Asset.dedup_store (a : Asset) (p : List Word) :
    a.store <+: (a.dedup p).store ∧ (p, a.offsetOf p) ∈ (a.dedup p).store := by
  unfold Asset.dedup Asset.offsetOf
  split <;> rename_i h
  · exact ⟨List.prefix_refl _, by simpa [h] using storeLookup_mem h⟩
  · exact ⟨List.prefix_append _ _, by simp [h]⟩

theorem Asset.dedup_blockData_length (a : Asset) (p : List Word) :
    (a.dedup p).blockData.length ≤ a.blockData.length + p.length := by
  unfold Asset.dedup
  split <;> simp

/-- What the loop leaves (R188, R182): one index entry for each block, which is the offset of that block's payload in the
store; entries and stored payloads of before stay. -/
theorem encodeBlocks_ok {cfg : Config.Params} {bs : List (List Tile)} {a a' : Asset} {n n' : Nat}
    (h : encodeBlocks cfg bs a n = .ok (a', n')) (hi : a.Inv) :
    a'.Inv ∧ a.store <+: a'.store ∧ a'.offsets.length = a.offsets.length + bs.length ∧ a.offsets <+: a'.offsets ∧
      ∀ (i : Nat) (ts : List Tile), bs[i]? = some ts → ∃ b o, runBlock cfg ts = .ok b ∧
        a'.offsets[a.offsets.length + i]? = some o ∧ (b.payload, o) ∈ a'.store := by
  induction bs generalizing a n with
  | nil =>
    simp only [encodeBlocks, Except.ok.injEq, Prod.mk.injEq] at h
    obtain ⟨rfl, rfl⟩ := h
    exact ⟨hi, List.prefix_refl _, rfl, List.prefix_refl _, by simp⟩
  | cons ts bs ih =>
    simp only [encodeBlocks] at h
    split at h
    · rename_i b hb
      obtain ⟨h1, h2, h3, h4, h5⟩ := ih h (hi.dedup b.payload)
      have hs := a.dedup_store b.payload
      have ho := a.dedup_offsets b.payload
      rw [ho] at h3 h4 h5
      refine ⟨h1, hs.1.trans h2, by rw [h3]; simp; omega, (List.prefix_append _ _).trans h4, ?_⟩
      intro i ts' hi'
      cases i with
      | zero =>
        simp only [List.getElem?_cons_zero, Option.some.injEq] at hi'
        subst hi'
        refine ⟨b, a.offsetOf b.payload, hb, ?_, h2.subset hs.2⟩
        obtain ⟨r, hr⟩ := h4
        rw [← hr]
        simp
      | succ i =>
        simp only [List.getElem?_cons_succ] at hi'
        obtain ⟨b', o, e1, e2, e3⟩ := h5 i ts' hi'
        refine ⟨b', o, e1, ?_, e3⟩
        rw [← e2]
        congr 1
        simp
        omega
    · cases h

end Sys2Proof.Machine
end

