-- ==== Sys2Proof/Laws/Decode.lean ====
section
/-! SUPPORT. What the readers of bytes, words and bits read from what the encoder writes, and the other way round. -/
namespace Sys2Proof

/-! ### Bytes -/

@[simp] theorem leBytes_length (n v : Nat) : (leBytes n v).length = n := by
  induction n generalizing v <;> simp [leBytes, *]

theorem takeLe_leBytes {n v : Nat} (h : v < 256 ^ n) (r : List Byte) : takeLe n (leBytes n v ++ r) = .ok (v, r) := by
  induction n generalizing v with
  | zero => simp at h; simp [takeLe, leBytes, h]
  | succ n ih =>
    have h' : v / 256 < 256 ^ n := by rw [Nat.div_lt_iff_lt_mul (by omega), ← pow_succ]; exact h
    simp only [leBytes, List.cons_append, takeLe, ih h', BitVec.toNat_ofNat]
    congr 2
    omega

theorem takeLe_leBytes_nil {n v : Nat} (h : v < 256 ^ n) : takeLe n (leBytes n v) = .ok (v, []) := by
  simpa using takeLe_leBytes h []

/-- What a number reader takes off is exactly the bytes of its value. -/
theorem takeLe_ok {n v : Nat} {r r' : List Byte} (h : takeLe n r = .ok (v, r')) :
    v < 256 ^ n ∧ r = leBytes n v ++ r' := by
  induction n generalizing v r r' with
  | zero => simp [takeLe] at h; simp [leBytes, ← h.1, h.2]
  | succ n ih =>
    cases r with
    | nil => simp [takeLe] at h
    | cons b r =>
      simp only [takeLe] at h
      split at h
      · rename_i v1 r1 h1
        obtain ⟨hv, hr⟩ := ih h1
        simp only [Except.ok.injEq, Prod.mk.injEq] at h
        obtain ⟨rfl, rfl⟩ := h
        have hb := b.isLt
        refine ⟨by rw [pow_succ]; omega, ?_⟩
        have e1 : (b.toNat + 256 * v1) / 256 = v1 := by omega
        have e2 : BitVec.ofNat 8 (b.toNat + 256 * v1) = b := by
          apply BitVec.eq_of_toNat_eq; simp; omega
        simp [leBytes, e1, e2, hr]
      · cases h

theorem takeWords_leWords (ws : List Word) (r : List Byte) : takeWords ws.length (leWords ws ++ r) = .ok (ws, r) := by
  induction ws with
  | nil => simp [takeWords, leWords]
  | cons w ws ih =>
    have := takeLe_leBytes (n := 2) (v := w.toNat) (by simpa using w.isLt) (leWords ws ++ r)
    simp [takeWords, leWords, this, ih]

theorem takeWords_ok {n : Nat} {ws : List Word} {r r' : List Byte} (h : takeWords n r = .ok (ws, r')) :
    ws.length = n ∧ r = leWords ws ++ r' := by
  induction n generalizing ws r r' with
  | zero =>
    simp only [takeWords, Except.ok.injEq, Prod.mk.injEq] at h
    obtain ⟨rfl, rfl⟩ := h
    simp [leWords]
  | succ n ih =>
    simp only [takeWords] at h
    split at h
    · cases h
    · rename_i w r1 h1
      split at h
      · cases h
      · rename_i ws1 r2 h2
        obtain ⟨hl, hr⟩ := ih h2
        obtain ⟨hw, hr1⟩ := takeLe_ok h1
        simp only [Except.ok.injEq, Prod.mk.injEq] at h
        obtain ⟨rfl, rfl⟩ := h
        have : w % 65536 = w := Nat.mod_eq_of_lt (by simpa using hw)
        simp [hl, leWords, hr1, hr, this]

/-- A dimension fits the bytes of its operand. -/
theorem lt_of_dimension {cfg : Config.Params} {v : Nat} (h : v < 2 ^ cfg.dimBits) : v < 256 ^ dimBytes cfg := by
  have : (256 : Nat) = 2 ^ 8 := rfl
  rw [this, ← pow_mul]
  exact lt_of_lt_of_le h (Nat.pow_le_pow_right (by omega) (by unfold dimBytes ceil8; omega))

theorem takeDim_leBytes {cfg : Config.Params} {v : Nat} (h : v < 2 ^ cfg.dimBits) (r : List Byte) :
    takeDim cfg (leBytes (dimBytes cfg) v ++ r) = .ok (v, r) := by
  simp [takeDim, takeLe_leBytes (lt_of_dimension h), h]

theorem takeDim_ok {cfg : Config.Params} {v : Nat} {r r' : List Byte} (h : takeDim cfg r = .ok (v, r')) :
    v < 2 ^ cfg.dimBits ∧ r = leBytes (dimBytes cfg) v ++ r' := by
  unfold takeDim at h
  split at h
  · cases h
  · rename_i v1 r1 h1
    split at h
    · rename_i hv
      simp only [Except.ok.injEq, Prod.mk.injEq] at h
      obtain ⟨rfl, rfl⟩ := h
      exact ⟨hv, (takeLe_ok h1).2⟩
    · cases h

/-! ### Operands -/

theorem withNum_leBytes {n w v : Nat} {r : List Byte} {k : BitVec w → List Byte → Except DecodeError (Instr × List Byte)}
    (h : v < 256 ^ n) : withNum n w (leBytes n v ++ r) k = k (BitVec.ofNat w v) r := by
  simp [withNum, takeLe_leBytes h]

theorem withNum_ok {n w : Nat} {r : List Byte} {k : BitVec w → List Byte → Except DecodeError (Instr × List Byte)}
    {x : Instr × List Byte} (h : withNum n w r k = .ok x) :
    ∃ v r', v < 256 ^ n ∧ r = leBytes n v ++ r' ∧ k (BitVec.ofNat w v) r' = .ok x := by
  unfold withNum at h
  split at h
  · cases h
  · rename_i v r' h1
    obtain ⟨hv, hr⟩ := takeLe_ok h1
    exact ⟨v, r', hv, hr, h⟩

@[simp] theorem codeTypeOf_codeTypeByte (ty : CodeType) : codeTypeOf (codeTypeByte ty) = .ok ty := by cases ty <;> rfl

theorem codeTypeOf_ok {b : Byte} {ty : CodeType} (h : codeTypeOf b = .ok ty) : codeTypeByte ty = b := by
  unfold codeTypeOf at h
  split at h <;> simp at h <;> subst h <;> apply BitVec.eq_of_toNat_eq <;> simp_all [codeTypeByte]

/-! ### Joined fields -/

theorem extract_high {m n : Nat} (a : BitVec m) (b : BitVec n) : (a ++ b).extractLsb' n m = a := by
  ext j hj
  simp [BitVec.getLsbD_append, BitVec.getLsbD_eq_getElem hj]

theorem extract_low {m n : Nat} (a : BitVec m) (b : BitVec n) : (a ++ b).extractLsb' 0 n = b := by
  ext j hj
  simp [BitVec.getLsbD_append, hj]

theorem extract_join {m n : Nat} (w : BitVec (m + n)) : w.extractLsb' n m ++ w.extractLsb' 0 n = w := by
  ext j hj
  simp only [BitVec.getElem_append, BitVec.getElem_extractLsb', Nat.zero_add]
  split
  · exact BitVec.getLsbD_eq_getElem _
  · rw [Nat.add_sub_cancel' (by omega)]
    exact BitVec.getLsbD_eq_getElem _

/-! ### Fields of three-bit groups -/

theorem bits3_testBit (v : Nat) : bits3 (v.testBit 2) (v.testBit 1) (v.testBit 0) = v % 8 := by
  simp only [bits3, Nat.testBit_eq_decide_div_mod_eq]
  have : v % 8 = 4 * (v / 4 % 2) + 2 * (v / 2 % 2) + v % 2 := by omega
  rcases Nat.mod_two_eq_zero_or_one v with h0 | h0 <;> rcases Nat.mod_two_eq_zero_or_one (v / 2) with h1 | h1 <;>
    rcases Nat.mod_two_eq_zero_or_one (v / 4) with h2 | h2 <;> simp [h0, h1, h2, this]

theorem readGroups_groupBits {n v : Nat} (hn : 1 ≤ n) (hv : v < 8 ^ n) : readGroups (groupBits n v) = some (n, v) := by
  induction n generalizing v with
  | zero => omega
  | succ n ih =>
    cases n with
    | zero =>
      simp only [groupBits, readGroups, bits3_testBit, bne_self_eq_false]
      congr 2
      exact Nat.mod_eq_of_lt (by simpa using hv)
    | succ n =>
      have h' : v / 8 < 8 ^ (n + 1) := by rw [Nat.div_lt_iff_lt_mul (by omega), ← pow_succ]; exact hv
      have := bits3_testBit v
      rw [groupBits]
      have e : (n + 1 != 0) = true := by simp
      simp only [e, readGroups, ih (by omega) h', this]
      congr 2
      omega

theorem groupBits_cons {x y z : Bool} {n v : Nat} :
    groupBits (n + 1) (bits3 x y z + 8 * v) = (n != 0) :: x :: y :: z :: groupBits n v := by
  have h3 : bits3 x y z < 8 := by cases x <;> cases y <;> cases z <;> decide
  have e : (bits3 x y z + 8 * v) / 8 = v := by omega
  have t0 : (bits3 x y z + 8 * v).testBit 0 = z := by
    rw [Nat.testBit_eq_decide_div_mod_eq]; cases x <;> cases y <;> cases z <;> simp [bits3] <;> omega
  have t1 : (bits3 x y z + 8 * v).testBit 1 = y := by
    rw [Nat.testBit_eq_decide_div_mod_eq]; cases x <;> cases y <;> cases z <;> simp [bits3] <;> omega
  have t2 : (bits3 x y z + 8 * v).testBit 2 = x := by
    rw [Nat.testBit_eq_decide_div_mod_eq]; cases x <;> cases y <;> cases z <;> simp [bits3] <;> omega
  rw [groupBits, e, t0, t1, t2]

/-- What the group reader reads is written back as the same bits. -/
theorem readGroups_some {bits : List Bool} {n v : Nat} (h : readGroups bits = some (n, v)) :
    1 ≤ n ∧ v < 8 ^ n ∧ groupBits n v = bits := by
  induction bits using readGroups.induct generalizing n v with
  | case1 x y z =>
    simp only [readGroups, Option.some.injEq, Prod.mk.injEq] at h
    obtain ⟨rfl, rfl⟩ := h
    refine ⟨le_rfl, by cases x <;> cases y <;> cases z <;> decide, ?_⟩
    simpa [groupBits] using groupBits_cons (x := x) (y := y) (z := z) (n := 0) (v := 0)
  | case2 x y z r n1 v1 h1 ih =>
      simp only [readGroups, h1] at h
      obtain ⟨hn, hv, hb⟩ := ih h1
      simp only [Option.some.injEq, Prod.mk.injEq] at h
      obtain ⟨rfl, rfl⟩ := h
      have h3 : bits3 x y z < 8 := by cases x <;> cases y <;> cases z <;> decide
      refine ⟨by omega, by rw [pow_succ]; omega, ?_⟩
      rw [groupBits_cons, hb]
      have : (n1 != 0) = true := by simp; omega
      rw [this]
  | case3 x y z r h1 => simp [readGroups, h1] at h
  | case4 bits h1 h2 =>
    unfold readGroups at h
    split at h
    · exact absurd rfl (h1 _ _ _)
    · exact absurd rfl (h2 _ _ _ _)
    · cases h

/-! ### The outputs read with another width (R55, R56) -/

@[simp] theorem leWords_length (ws : List Word) : (leWords ws).length = 2 * ws.length := by
  induction ws with
  | nil => rfl
  | cons w ws ih => simp [leWords, leBytes, ih]; omega

/-- Bytes `2a` and `2a + 1` of a word list are the low and the high byte of word `a` (R55). -/
theorem leWords_bytes (ws : List Word) (a : Nat) :
    (leWords ws)[2 * a]? = ws[a]?.map (·.extractLsb' 0 8) ∧
    (leWords ws)[2 * a + 1]? = ws[a]?.map (·.extractLsb' 8 8) := by
  have low : ∀ w : Word, BitVec.ofNat 8 w.toNat = w.extractLsb' 0 8 := by
    intro w
    apply BitVec.eq_of_toNat_eq
    simp
  have high : ∀ w : Word, BitVec.ofNat 8 (w.toNat / 256) = w.extractLsb' 8 8 := by
    intro w
    apply BitVec.eq_of_toNat_eq
    simp [Nat.shiftRight_eq_div_pow]
  induction ws generalizing a with
  | nil => simp [leWords]
  | cons w ws ih =>
    cases a with
    | zero => simp [leWords, leBytes, low, high]
    | succ a => simpa [leWords, leBytes, Nat.mul_succ] using ih a

/-- A reader of bytes gives their little-endian number, when they are there (R12). -/
theorem takeLe_eq_sum {n : Nat} {r : List Byte} (h : n ≤ r.length) :
    takeLe n r = .ok (((List.range n).map fun i => (r.getD i 0).toNat * 256 ^ i).sum, r.drop n) := by
  induction n generalizing r with
  | zero => rfl
  | succ n ih =>
    cases r with
    | nil => simp at h
    | cons b r =>
      have hs : ∀ i, (r.getD i 0).toNat * 256 ^ (i + 1) = 256 * ((r.getD i 0).toNat * 256 ^ i) := by
        intro i; rw [pow_succ]; ring
      simp only [takeLe, ih (by simpa using h), List.range_succ_eq_map, List.map_cons, List.map_map, List.sum_cons,
        Function.comp_def, List.getD_cons_succ, List.getD_cons_zero, List.drop_succ_cons, hs, List.sum_map_mul_left]
      simp

theorem memRead_eq_sum {bytes : List Byte} {addr n : Nat} (h : addr + n ≤ bytes.length) :
    Machine.memRead bytes addr n =
      some ((List.range n).map fun i => (bytes.getD (addr + i) 0).toNat * 256 ^ i).sum := by
  unfold Machine.memRead
  rw [takeLe_eq_sum (by simp; omega)]
  simp [List.getD]

end Sys2Proof
end

