-- ==== Sys2Proof/Laws/Exec.lean ====
section
/-! SUPPORT. What an instruction can do when it ends with a next state, said once for each unit: an effect that writes
only that unit's state and the buffer it appends to, or the entry of a condition. -/
namespace Sys2Proof.Machine

/-! ### Ends -/

/-- Whenever the outcome is a next state, that state has the property. -/
def Ends (o : Out) (P : State → Prop) : Prop := ∀ t, o = .next t → P t

theorem Ends.done {P : State → Prop} {s : State} {r : Result} (h : P (s.returning r)) : Ends (Machine.done s r) P := by
  rintro t ht
  rw [done_eq_next] at ht
  rwa [← ht]

theorem Ends.refused {P : State → Prop} (r : Refusal) : Ends (.refused r) P := by
  rintro t ht
  cases ht

theorem Ends.require {P : State → Prop} {ok : Bool} {r : Refusal} {k : Out} (h : Ends k P) :
    Ends (Machine.require ok r k) P := fun t ht => h t (require_eq_next.mp ht).2

theorem Ends.orRefuse {α : Type} {P : State → Prop} {x : Except Refusal α} {k : α → Out}
    (h : ∀ a, x = .ok a → Ends (k a) P) : Ends (Machine.orRefuse x k) P := by
  rintro t ht
  obtain ⟨a, ha, hk⟩ := orRefuse_eq_next.mp ht
  exact h a ha t hk

theorem Ends.appends {P : State → Prop} {scope : Scope} {n : Nat} {s : State} {after : State → State}
    (h1 : ∀ xs, P (after { s with exhaust := xs }))
    (h2 : ¬ s.Quiet → ∀ xs, P (raiseCondition scope .resourceExhausted { s with exhaust := xs })) :
    Ends (.next (withAppends scope n s after)) P := by
  rintro t ht
  simp only [Host.Outcome.next.injEq] at ht
  subst ht
  rcases withAppends_cases scope n s after with ⟨-, xs, e⟩ | ⟨hg, xs, e⟩ <;> rw [e]
  · exact h1 xs
  · exact h2 (fun hq => hg (State.grants_of_quiet hq n)) xs

theorem Ends.stops {P : State → Prop} {scope : Scope} {n : Nat} {r : Refusal} {s : State}
    (h : ¬ s.Quiet → ∀ xs, P (raiseCondition scope .resourceExhausted { s with exhaust := xs })) :
    Ends (stopAfterAppends scope n r s) P := by
  rintro t ht
  by_cases hg : s.Grants n
  · rw [stopAfterAppends_of_grants hg] at ht
    cases ht
  · rw [stopAfterAppends_of_refuses hg] at ht
    cases ht
    exact h (fun hq => hg (State.grants_of_quiet hq n)) _

/-! ### The units -/

/-- The units of R20, with the system operations and the three kinds of `DUB` operation told apart. -/
inductive UnitKind where
  | sys
  | adpcm
  | block
  | asset
  | index
  | encode
  deriving DecidableEq, Repr

/-- The unit whose state an instruction writes. -/
def unitOf : Instr → UnitKind
  | .sysReset | .sysStatus => .sys
  | .bbReset | .bbAppend _ _ | .bbAppendVar _ _ | .bbFlush | .bbFlushFinal | .bbGetCount | .dubPack _ _ | .dubCodeLen _ _
  | .dubChoose _ | .dubBlockBegin | .dubTile _ | .dubBlockEnd | .dubBlock _ | .dubDeltaG1 _ _ | .dubDeltaG2 _ _
  | .dubDeltaG3 _ _ | .dubDeltaG4 _ _ | .dubDeltaG5 _ _ | .dubDeltaG6 _ _ | .dubRefG1 _ | .dubRefG2 _ | .dubRepeatG1 _
  | .dubRepeatG2 _ => .block
  | .dubDedup _ | .dubIndexSel => .asset
  | .dubIndex8 _ _ | .dubIndex16 _ => .index
  | .dubEncode _ _ _ => .encode
  | .adpcmSetic _ _ | .adpcmQuant _ | .adpcmStep _ | .adpcmPut _ | .adpcmPair _ _ | .adpcmBody _ | .adpcmEval _ _ _
  | .adpcmScan _ | .adpcmClimb _ _ _ _ | .adpcmOptic _ | .adpcmEncode _ | .adpcmHeader | .adpcmCode0 | .adpcmCode1
  | .adpcmCode2 | .adpcmCode3 | .adpcmCode4 | .adpcmCode5 | .adpcmCode6 | .adpcmCode7 | .adpcmCode8 | .adpcmCode9
  | .adpcmCode10 | .adpcmCode11 | .adpcmCode12 | .adpcmCode13 | .adpcmCode14 | .adpcmCode15 | .codeTableWord _ _
  | .adpcmBodyByte _ _ | .adpcmHeaderBytes _ _ => .adpcm

/-- The operations that write the codec state (R21). -/
def writesCodec : Instr → Bool
  | .adpcmSetic _ _ | .adpcmStep _ | .adpcmPair _ _ | .adpcmBody _ | .adpcmEncode _ | .adpcmCode0 | .adpcmCode1
  | .adpcmCode2 | .adpcmCode3 | .adpcmCode4 | .adpcmCode5 | .adpcmCode6 | .adpcmCode7 | .adpcmCode8 | .adpcmCode9
  | .adpcmCode10 | .adpcmCode11 | .adpcmCode12 | .adpcmCode13 | .adpcmCode14 | .adpcmCode15 => true
  | _ => false

/-- The operation whose success writes `STATUS` in unit ADPCM (R112). -/
def isAdpcmEncode : Instr → Bool
  | .adpcmEncode _ => true
  | _ => false

/-- The returned value is no condition. -/
def Result.isValue : Result → Prop
  | .condition _ => False
  | _ => True

/-! ### What an instruction of each unit can do -/

/-- A refused append of an operation other than `DUB.ENCODE` (R203, R204): an oracle that refuses nothing has none. -/
def ExhaustedAt (s t : State) : Prop := ¬ s.Quiet ∧ ∃ xs, t = { s with
  exhaust := xs, stat := { s.stat with status := .resourceExhausted }, result := .condition .resourceExhausted }

theorem exhaustedAt_finer {s : State} (hq : ¬ s.Quiet) (xs : List Bool) :
    ExhaustedAt s (raiseCondition .finer .resourceExhausted { s with exhaust := xs }) := ⟨hq, xs, rfl⟩

theorem exhaustedAt_adpcmEncode {s : State} (hq : ¬ s.Quiet) (xs : List Bool) :
    ExhaustedAt s (raiseCondition .adpcmEncode .resourceExhausted { s with exhaust := xs }) := ⟨hq, xs, rfl⟩

/-- Unit ADPCM. -/
def AdpcmEffect (i : Instr) (s t : State) : Prop := ExhaustedAt s t ∨
  ∃ (a : Adpcm) (o : Optimiser) (bytes : List Byte) (c : Condition) (xs : List Bool) (r : Result),
    (writesCodec i = false → a.codec = s.adpcm.codec) ∧ (isAdpcmEncode i = false → c = s.stat.status) ∧
    (isAdpcmEncode i = true → c = .ok) ∧ r.isValue ∧
    t = { s with adpcm := a, opt := o, out8 := s.out8 ++ bytes, stat := { s.stat with status := c }, exhaust := xs,
                 result := r }

/-- The bit buffer and the block. -/
def BlockEffect (s t : State) : Prop := ExhaustedAt s t ∨
  ∃ (b : Block) (xs : List Bool) (r : Result), (s.blk.Inv s.cfg → b.Inv s.cfg) ∧ r.isValue ∧
    t = { s with blk := b, exhaust := xs, result := r }

/-- The finer operations on the asset. -/
def AssetEffect (s t : State) : Prop := ExhaustedAt s t ∨
  ∃ (a : Asset) (xs : List Bool) (r : Result), (s.asset.Inv → a.Inv) ∧ r.isValue ∧
    t = { s with asset := a, exhaust := xs, result := r }

/-- The index word objects. -/
def IndexEffect (s t : State) : Prop := ExhaustedAt s t ∨
  ∃ (ws : List Word) (xs : List Bool), t = { s with out16 := s.out16 ++ ws, exhaust := xs, result := .none }

/-- An ADPCM operation that only returns a value. -/
theorem AdpcmEffect.value {i : Instr} {s : State} {r : Result} (he : isAdpcmEncode i = false) (hr : r.isValue) :
    AdpcmEffect i s (s.returning r) :=
  .inr ⟨s.adpcm, s.opt, [], s.stat.status, s.exhaust, r, fun _ => rfl, fun _ => rfl, fun h => absurd (he.symm.trans h) (by decide), hr, by
    simp [State.returning]⟩

/-- An ADPCM operation that appends nothing. -/
theorem AdpcmEffect.state {i : Instr} {s : State} {r : Result} (a : Adpcm) (o : Optimiser) (he : isAdpcmEncode i = false)
    (ha : writesCodec i = false → a.codec = s.adpcm.codec) (hr : r.isValue) :
    AdpcmEffect i s (({ s with adpcm := a, opt := o } : State).returning r) :=
  .inr ⟨a, o, [], s.stat.status, s.exhaust, r, ha, fun _ => rfl, fun h => absurd (he.symm.trans h) (by decide), hr, by
    simp [State.returning]⟩

/-- An ADPCM operation that appends bytes. -/
theorem AdpcmEffect.bytes {i : Instr} {s : State} {r : Result} (a : Adpcm) (bytes : List Byte) (n : Nat)
    (he : isAdpcmEncode i = false) (ha : writesCodec i = false → a.codec = s.adpcm.codec) (hr : r.isValue) :
    Ends (.next (withAppends .finer n s fun s => (({ s with adpcm := a } : State).append8 bytes).returning r))
      (AdpcmEffect i s) :=
  .appends
    (fun xs => .inr ⟨a, s.opt, bytes, s.stat.status, xs, r, ha, fun _ => rfl, fun h => absurd (he.symm.trans h) (by decide), hr, rfl⟩)
    (fun hq xs => .inl (exhaustedAt_finer hq xs))

/-- The code rows. -/
theorem emitCode_effect {i : Instr} (c : Nybble) (s : State) (he : isAdpcmEncode i = false) (hw : writesCodec i = true) :
    Ends (emitCode c s) (AdpcmEffect i s) :=
  .done (.state _ s.opt he (fun h => absurd (hw.symm.trans h) (by decide)) trivial)

theorem exec_adpcm {i : Instr} {s : State} (hu : unitOf i = .adpcm) : Ends (exec i s) (AdpcmEffect i s) := by
  cases i
  case adpcmSetic x b => exact .orRefuse fun i _ => .done (.state _ s.opt rfl (fun h => nomatch h) trivial)
  case adpcmQuant x => exact .done (.value rfl trivial)
  case adpcmStep x => exact .done (.state _ s.opt rfl (fun h => nomatch h) trivial)
  case adpcmPut c =>
    exact .require (.appends
      (fun xs => .inr ⟨s.adpcm.put (c.setWidth 4), s.opt, s.adpcm.putBytes (c.setWidth 4), s.stat.status, xs, .none,
        fun _ => rfl, fun _ => rfl, (fun h => nomatch h), trivial, rfl⟩)
      (fun hq xs => .inl (exhaustedAt_finer hq xs)))
  case adpcmPair x y => exact .require (.bytes _ _ _ rfl (fun h => nomatch h) trivial)
  case adpcmBody l => exact .require (.require (.bytes _ _ _ rfl (fun h => nomatch h) trivial))
  case adpcmEval x b l => exact .orRefuse fun i _ => .require (.done (.value rfl trivial))
  case adpcmScan l => exact .require (.require (.done (.value rfl trivial)))
  case adpcmClimb x b e l => exact .orRefuse fun i _ => .require (.done (.value rfl trivial))
  case adpcmOptic l => exact .require (.require (.done (.state s.adpcm _ rfl (fun _ => rfl) trivial)))
  case adpcmEncode l =>
    exact .require (.appends
      (fun xs => .inr ⟨_, _, _, _, xs, _, (fun h => nomatch h), (fun h => nomatch h), fun _ => rfl, by trivial, rfl⟩)
      (fun hq xs => .inl (exhaustedAt_adpcmEncode hq xs)))
  case adpcmHeader => exact .bytes s.adpcm _ _ rfl (fun _ => rfl) trivial
  case codeTableWord a m => exact .done (.value rfl trivial)
  case adpcmBodyByte h l => exact .bytes s.adpcm _ _ rfl (fun _ => rfl) trivial
  case adpcmHeaderBytes x b => exact .orRefuse fun i _ => .bytes s.adpcm _ _ rfl (fun _ => rfl) trivial
  case adpcmCode0 => exact emitCode_effect 0 s rfl rfl
  case adpcmCode1 => exact emitCode_effect 1 s rfl rfl
  case adpcmCode2 => exact emitCode_effect 2 s rfl rfl
  case adpcmCode3 => exact emitCode_effect 3 s rfl rfl
  case adpcmCode4 => exact emitCode_effect 4 s rfl rfl
  case adpcmCode5 => exact emitCode_effect 5 s rfl rfl
  case adpcmCode6 => exact emitCode_effect 6 s rfl rfl
  case adpcmCode7 => exact emitCode_effect 7 s rfl rfl
  case adpcmCode8 => exact emitCode_effect 8 s rfl rfl
  case adpcmCode9 => exact emitCode_effect 9 s rfl rfl
  case adpcmCode10 => exact emitCode_effect 10 s rfl rfl
  case adpcmCode11 => exact emitCode_effect 11 s rfl rfl
  case adpcmCode12 => exact emitCode_effect 12 s rfl rfl
  case adpcmCode13 => exact emitCode_effect 13 s rfl rfl
  case adpcmCode14 => exact emitCode_effect 14 s rfl rfl
  case adpcmCode15 => exact emitCode_effect 15 s rfl rfl
  all_goals cases hu

/-- A block operation that only returns a value. -/
theorem BlockEffect.value {s : State} {r : Result} (hr : r.isValue) : BlockEffect s (s.returning r) :=
  .inr ⟨s.blk, s.exhaust, r, id, hr, rfl⟩

/-- A block operation that appends no words. -/
theorem BlockEffect.state {s : State} {b : Block} {r : Result} (hb : s.blk.Inv s.cfg → b.Inv s.cfg) (hr : r.isValue) :
    BlockEffect s (({ s with blk := b } : State).returning r) := .inr ⟨b, s.exhaust, r, hb, hr, rfl⟩

theorem endRun_effect {s : State} {n : Nat} {run : Except Refusal Block} {r : Block → Result}
    (hb : ∀ b, run = .ok b → s.blk.Inv s.cfg → b.Inv s.cfg) (hr : ∀ b, (r b).isValue) :
    Ends (endRun n run r s) (BlockEffect s) := by
  unfold endRun
  split
  · rename_i b
    exact .appends (fun xs => .inr ⟨b, xs, r b, hb b rfl, hr b, rfl⟩) (fun hq xs => .inl (exhaustedAt_finer hq xs))
  · exact .stops fun hq xs => .inl (exhaustedAt_finer hq xs)

theorem endBlock_effect {s : State} {before : Block} {run : BlockRun} {asks : Nat} {r : Block → Result}
    (hb : ∀ b, run = .ok b → s.blk.Inv s.cfg → b.Inv s.cfg) (hr : ∀ b, (r b).isValue) :
    Ends (endBlock before run asks r s) (BlockEffect s) :=
  endRun_effect (fun b h => hb b (by cases run <;> cases h; rfl)) hr

theorem measured_effect {s : State} {n : Nat} {r : Result} (hr : r.isValue) : Ends (measured n r s) (BlockEffect s) :=
  .appends (fun xs => .inr ⟨s.blk, xs, r, id, hr, rfl⟩) (fun hq xs => .inl (exhaustedAt_finer hq xs))

theorem Block.Inv.appendBits {cfg : Config.Params} {b b' : Block} {bits : List Bool} (h : b.Inv cfg)
    (e : b.appendBits cfg bits = .ok b') : b'.Inv cfg := by
  obtain ⟨hl, rfl⟩ := Block.appendBits_ok.mp e
  exact ⟨h.dict_le, by simpa using hl, h.prev, h.prev_invalid, h.run_le⟩

theorem Block.Inv.flush {cfg : Config.Params} {b : Block} (h : b.Inv cfg) : b.flush.Inv cfg :=
  ⟨h.dict_le, by rw [Block.flush_acc, Block.flushRest_length]; exact le_trans (Nat.mod_le _ _) h.acc_le, h.prev,
    h.prev_invalid, h.run_le⟩

theorem Block.Inv.flushFinal {cfg : Config.Params} {b : Block} (h : b.Inv cfg) : b.flushFinal.Inv cfg :=
  ⟨h.dict_le, by simp, h.prev, h.prev_invalid, h.run_le⟩

theorem extendAccumulator_effect {s : State} (bits : List Bool) : Ends (extendAccumulator bits s) (BlockEffect s) :=
  endRun_effect (fun _ hb h => h.appendBits hb) fun _ => trivial

theorem packForm_effect {s : State} (produced : Bool) (bits : List Bool) :
    Ends (packForm produced bits s) (BlockEffect s) := .require (extendAccumulator_effect bits)

theorem exec_block {i : Instr} {s : State} (hu : unitOf i = .block) : Ends (exec i s) (BlockEffect s) := by
  cases i
  case bbReset => exact .done (.state (fun h => ⟨h.dict_le, by simp, h.prev, h.prev_invalid, h.run_le⟩) trivial)
  case bbAppend v n => exact .require (extendAccumulator_effect _)
  case bbAppendVar v c => exact .require (.require (extendAccumulator_effect _))
  case bbFlush =>
    exact .appends (fun xs => .inr ⟨_, xs, _, fun h => h.flush, by trivial, rfl⟩) (fun hq xs => .inl (exhaustedAt_finer hq xs))
  case bbFlushFinal =>
    exact .appends (fun xs => .inr ⟨_, xs, _, fun h => h.flushFinal, by trivial, rfl⟩)
      (fun hq xs => .inl (exhaustedAt_finer hq xs))
  case bbGetCount => exact .done (.value trivial)
  case dubPack ty v =>
    simp only [exec, execDubPack, packCode]
    split
    · exact .refused _
    · exact extendAccumulator_effect _
  case dubCodeLen ty v =>
    simp only [exec, execDubCodeLen]
    split
    · exact .refused _
    · exact measured_effect trivial
  case dubChoose t => exact measured_effect trivial
  case dubBlockBegin => exact .done (.state (fun _ => .fresh _) trivial)
  case dubTile t => exact endBlock_effect (fun _ hb h => h.tile hb) fun _ => trivial
  case dubBlockEnd => exact endBlock_effect (fun _ hb h => h.finish hb) fun _ => trivial
  case dubBlock ts => exact .require (endBlock_effect (fun _ hb _ => runBlock_inv hb) fun _ => trivial)
  case dubDeltaG1 n m => exact packForm_effect _ _
  case dubDeltaG2 n m => exact packForm_effect _ _
  case dubDeltaG3 n m => exact packForm_effect _ _
  case dubDeltaG4 n m => exact packForm_effect _ _
  case dubDeltaG5 n m => exact packForm_effect _ _
  case dubDeltaG6 n m => exact packForm_effect _ _
  case dubRefG1 v => exact packForm_effect _ _
  case dubRefG2 v => exact packForm_effect _ _
  case dubRepeatG1 v => exact packForm_effect _ _
  case dubRepeatG2 v => exact packForm_effect _ _
  all_goals cases hu

theorem exec_asset {i : Instr} {s : State} (hu : unitOf i = .asset) : Ends (exec i s) (AssetEffect s) := by
  cases i
  case dubDedup p =>
    exact .appends (fun xs => .inr ⟨_, xs, _, fun h => h.dedup p, by trivial, rfl⟩)
      (fun hq xs => .inl (exhaustedAt_finer hq xs))
  case dubIndexSel => exact .done (.inr ⟨_, s.exhaust, _, fun h => h.selectIndex, by trivial, rfl⟩)
  all_goals cases hu

theorem exec_index {i : Instr} {s : State} (hu : unitOf i = .index) : Ends (exec i s) (IndexEffect s) := by
  cases i
  case dubIndex8 h l => exact .appends (fun xs => .inr ⟨_, xs, rfl⟩) (fun hq xs => .inl (exhaustedAt_finer hq xs))
  case dubIndex16 p => exact .appends (fun xs => .inr ⟨_, xs, rfl⟩) (fun hq xs => .inl (exhaustedAt_finer hq xs))
  all_goals cases hu

/-- A condition in `DUB.ENCODE` (R204): the scoped state is released and `STATUS` has the code. -/
def EncodeCondition (c : Condition) (s t : State) : Prop := ∃ xs, t = { s with
  blk := Block.fresh, asset := Asset.empty, exhaust := xs, stat := { s.stat with status := c }, result := .condition c }

/-- How `DUB.ENCODE` ends once its blocks are encoded into `a` (R187, R188). -/
def EncodeEffect (a : Asset) (tileCount : Nat) (s t : State) : Prop :=
  EncodeCondition .resourceExhausted s t ∨
  (65536 ≤ a.indexSize + a.blockData.length ∧ EncodeCondition .tooLarge s t) ∨
  (a.indexSize + a.blockData.length < 65536 ∧ ∃ xs, t = { s with
    blk := Block.fresh, asset := Asset.empty, exhaust := xs, out16 := s.out16 ++ (a.indexRegion ++ a.blockData),
    stat := reportRegisters a tileCount, result := .out16 (a.indexRegion ++ a.blockData) })

theorem commitAsset_effect (a : Asset) (tileCount : Nat) (s : State) (xs : List Bool) :
    EncodeEffect a tileCount s (commitAsset a tileCount { s with exhaust := xs }) := by
  unfold commitAsset
  split
  · rename_i ho
    exact .inr (.inl ⟨overflows_iff.mp ho, xs, rfl⟩)
  · rename_i ho
    rw [Bool.not_eq_true, overflows_eq_false_iff] at ho
    rcases withAppends_cases .dubEncode (a.indexRegion ++ a.blockData).length { s with exhaust := xs } (fun s =>
      (({ s with stat := reportRegisters a tileCount } : State).releaseDub.append16 (a.indexRegion ++ a.blockData)).returning
        (.out16 (a.indexRegion ++ a.blockData))) with ⟨-, ys, e⟩ | ⟨-, ys, e⟩
    · exact .inr (.inr ⟨ho, ys, e⟩)
    · exact .inl ⟨ys, e⟩

/-- Everything `DUB.ENCODE` can do when it ends (R188). When a block has no result, only the condition of an append before
it can end the operation. -/
theorem exec_dubEncode {w h f : Nat} {s : State} : Ends (exec (.dubEncode w h f) s) fun t =>
    (w < 2 ^ s.cfg.dimBits ∧ h < 2 ^ s.cfg.dimBits ∧ f < 2 ^ s.cfg.dimBits) ∧ s.tiles.length = w * h * f ∧
    (EncodeCondition .resourceExhausted s t ∨
      ∃ a n, encodeBlocks s.cfg (assetBlocks s.tiles w h f) Asset.empty 0 = .ok (a, n) ∧
        EncodeEffect a.selectIndex (w * h * f) s t) := by
  intro t ht
  simp only [exec, execDubEncode, require_eq_next, Bool.and_eq_true, beq_iff_eq, dimensionFits,
    decide_eq_true_eq] at ht
  obtain ⟨⟨⟨h1, h2⟩, h3⟩, h4, ht⟩ := ht
  refine ⟨⟨h1, h2, h3⟩, h4, ?_⟩
  split at ht
  · rename_i a n he
    exact .inr ⟨a, n, he, Ends.appends (P := EncodeEffect a.selectIndex (w * h * f) s)
      (fun xs => commitAsset_effect _ _ _ xs) (fun _ xs => .inl ⟨xs, rfl⟩) t ht⟩
  · exact .inl (Ends.stops (P := EncodeCondition .resourceExhausted s) (fun _ xs => ⟨xs, rfl⟩) t ht)

/-- The three ways `DUB.ENCODE` can end, for claims that need nothing of the asset. -/
theorem exec_dubEncode_effect {w h f : Nat} {s : State} :
    Ends (exec (.dubEncode w h f) s) fun t => ∃ a, EncodeEffect a (w * h * f) s t := by
  intro t ht
  obtain ⟨-, -, e | ⟨a, n, -, e⟩⟩ := exec_dubEncode t ht
  · exact ⟨Asset.empty, .inl e⟩
  · exact ⟨_, e⟩

/-! ### Every instruction -/

theorem unitOf_sys {i : Instr} (h : unitOf i = .sys) : i = .sysReset ∨ i = .sysStatus := by
  cases i <;> simp [unitOf] at h ⊢

theorem unitOf_encode {i : Instr} (h : unitOf i = .encode) : ∃ w h f, i = .dubEncode w h f := by
  cases i <;> simp [unitOf] at h ⊢

/-- Everything an instruction can do that is no system operation and not `DUB.ENCODE`. -/
theorem exec_finer {i : Instr} {s t : State} (h : exec i s = .next t) (hs : unitOf i ≠ .sys) (he : unitOf i ≠ .encode) :
    (unitOf i = .adpcm ∧ AdpcmEffect i s t) ∨ (unitOf i = .block ∧ BlockEffect s t) ∨
    (unitOf i = .asset ∧ AssetEffect s t) ∨ (unitOf i = .index ∧ IndexEffect s t) := by
  cases hu : unitOf i
  · exact absurd hu hs
  · exact .inl ⟨rfl, exec_adpcm hu t h⟩
  · exact .inr (.inl ⟨rfl, exec_block hu t h⟩)
  · exact .inr (.inr (.inl ⟨rfl, exec_asset hu t h⟩))
  · exact .inr (.inr (.inr ⟨rfl, exec_index hu t h⟩))
  · exact absurd hu he

/-- Running two lists of operations one after the other. -/
theorem runAll_append (is js : List Instr) (s : State) : runAll (is ++ js) s =
    match runAll is s with
    | .next t => runAll js t
    | .fault r => .fault r
    | .refused r => .refused r := by
  induction is generalizing s with
  | nil => simp [runAll]
  | cons i is ih =>
    simp only [List.cons_append, runAll]
    cases exec i s <;> simp [ih]

end Sys2Proof.Machine
end

