-- ==== Sys2Proof/Laws/Encode.lean ====
section
/-! SUPPORT. `DUB.BLOCK` and `DUB.ENCODE` when the oracle grants every append: what they end with, that blocks and assets
complete with an accumulator of 41 bits (R137, R162), and that the operations issued one by one (R188) build the asset
`DUB.ENCODE` builds. -/
namespace Sys2Proof.Machine

theorem State.Quiet.drop {s t : State} (h : s.Quiet) (n : Nat) (ht : t.exhaust = s.exhaust.drop n) : t.Quiet := by
  intro a ha
  rw [ht] at ha
  exact h a (List.drop_subset _ _ ha)

/-- R137, R162: with 41 bits of accumulator every block of 1 to 64 tiles is encoded, in 1 to 104 words, and asks for the
answers of at most 61 bits a tile. -/
theorem runBlock_fits {cfg : Config.Params} (ha : 41 ≤ cfg.accBits) {ts : List Tile} (h1 : 1 ≤ ts.length)
    (h2 : ts.length ≤ 64) : ∃ b, runBlock cfg ts = .ok b ∧ 1 ≤ b.payload.length ∧ b.payload.length ≤ 104 ∧
      b.acc = [] ∧ b.dict = ts ∧ b.repeating = false ∧ ∃ n ≤ 61 * ts.length, runBlockAsks cfg ts = bitAsks cfg n := by
  obtain ⟨b1, e1, f1, d1⟩ := Block.Fits.addTiles ha (ts := ts) Block.Fits.fresh (by simpa [Block.fresh] using h2)
  have d2 : b1.dict = ts := by simpa [Block.fresh] using d1
  obtain ⟨b, e2, r1, r2, r3, r4, r5⟩ := f1.finish ha (by rw [d2]; exact h2) (by rw [d2]; intro h; simp [h] at h1)
  rw [d2] at r4
  obtain ⟨-, m, hm, e3⟩ := Block.addTilesAsks_of_ok e1
  have hbits := f1.bits
  rw [d2] at hbits
  have hf : Block.fresh.stream.length = 0 := rfl
  have hrl : b1.repeating = true → (codeBits ⟨.rept, (b1.repeatCount : Nat)⟩).length = 4 * groupCount b1.repeatCount :=
    fun hr => rept_length (by have := f1.run_le hr; rw [d2] at this; omega)
  refine ⟨b, runBlock_ok.mpr ⟨b1, e1, e2⟩, r1, r2, r3, r4, r5, _, ?_, by
    rw [runBlockAsks_of_ok e1, e3, Block.finishAsks_of_ok e2, ← bitAsks_add]⟩
  split
  · rename_i hr
    rw [if_pos hr, ← hrl hr] at hbits
    omega
  · rename_i hr
    rw [if_neg hr] at hbits
    omega

/-- R161 when nothing is refused by the oracle. -/
theorem exec_dubBlock_of_quiet {s : State} {ts : List Tile} (hs : 1 ≤ ts.length ∧ ts.length ≤ 64) (hq : s.Quiet) :
    exec (.dubBlock ts) s =
      match runBlock s.cfg ts with
      | .ok b => .next { s with
          blk := b, exhaust := s.exhaust.drop (ts.length + b.payload.length + runBlockAsks s.cfg ts),
          result := .payload b.payload }
      | .error stop => .refused stop.1 := by
  have hc : (decide (1 ≤ ts.length) && decide (ts.length ≤ 64)) = true := by simp [hs]
  simp only [exec, execDubBlock]
  rw [hc, require_true]
  rw [endBlock_of_grants (State.grants_of_quiet hq _)]
  cases hr : runBlock s.cfg ts with
  | error stop => rfl
  | ok b => simp [runBlock_dict hr]

/-- R182 when nothing is refused by the oracle. -/
theorem exec_dubDedup_of_quiet {s : State} {p : List Word} (hq : s.Quiet) :
    exec (.dubDedup p) s = .next { s with
      asset := s.asset.dedup p
      exhaust := s.exhaust.drop (s.asset.dedupAppends p)
      result := .offset (s.asset.offsetOf p) } := by
  simp only [exec, execDubDedup]
  rw [withAppends_of_grants (State.grants_of_quiet hq _)]
  rfl

/-- R188: the operations issued one by one build the asset of the loop of `DUB.ENCODE`. -/
theorem assetByOperations_eq {bs : List (List Tile)} {s : State} (hq : s.Quiet)
    (hb : ∀ ts ∈ bs, 1 ≤ ts.length ∧ ts.length ≤ 64) (n : Nat) {t : State} (h : assetByOperations bs s = some t) :
    ∃ a' n', encodeBlocks s.cfg bs s.asset n = .ok (a', n') ∧ t.asset = a'.selectIndex := by
  induction bs generalizing s n with
  | nil =>
    simp only [assetByOperations, exec, execDubIndexSel, done] at h
    cases h
    exact ⟨s.asset, n, rfl, rfl⟩
  | cons ts bs ih =>
    unfold assetByOperations at h
    rw [exec_dubBlock_of_quiet (hb ts (by simp)) hq] at h
    cases hr : runBlock s.cfg ts with
    | error r => rw [hr] at h; simp at h
    | ok b =>
      rw [hr] at h
      dsimp only at h
      rw [exec_dubDedup_of_quiet (hq.drop _ rfl)] at h
      dsimp only at h
      obtain ⟨a', n', e1, e2⟩ := ih
        (hq.drop (ts.length + b.payload.length + runBlockAsks s.cfg ts + s.asset.dedupAppends b.payload)
          (by simp [List.drop_drop])) (fun t ht => hb t (by simp [ht]))
        (n + (b.appendsSince Block.fresh + runBlockAsks s.cfg ts) + s.asset.dedupAppends b.payload) h
      exact ⟨a', n', by simp only [encodeBlocks, hr]; exact e1, e2⟩

/-- The operations issued one by one leave the configuration alone and keep an oracle that grants everything so. -/
theorem assetByOperations_frame {bs : List (List Tile)} {s : State} (hq : s.Quiet)
    (hb : ∀ ts ∈ bs, 1 ≤ ts.length ∧ ts.length ≤ 64) {t : State} (h : assetByOperations bs s = some t) :
    t.Quiet ∧ t.cfg = s.cfg := by
  induction bs generalizing s with
  | nil =>
    simp only [assetByOperations, exec, execDubIndexSel, done] at h
    cases h
    exact ⟨hq, rfl⟩
  | cons ts bs ih =>
    unfold assetByOperations at h
    rw [exec_dubBlock_of_quiet (hb ts (by simp)) hq] at h
    cases hr : runBlock s.cfg ts with
    | error r => rw [hr] at h; simp at h
    | ok b =>
      rw [hr] at h
      dsimp only at h
      rw [exec_dubDedup_of_quiet (hq.drop _ rfl)] at h
      have r := ih
        (hq.drop (ts.length + b.payload.length + runBlockAsks s.cfg ts + s.asset.dedupAppends b.payload)
          (by simp [List.drop_drop])) (fun t ht => hb t (by simp [ht])) h
      exact r

/-- R188, R137: the operations issued one by one complete. -/
theorem assetByOperations_isSome {bs : List (List Tile)} {s : State} (ha : 41 ≤ s.cfg.accBits) (hq : s.Quiet)
    (hb : ∀ ts ∈ bs, 1 ≤ ts.length ∧ ts.length ≤ 64) : (assetByOperations bs s).isSome := by
  induction bs generalizing s with
  | nil => rfl
  | cons ts bs ih =>
    unfold assetByOperations
    rw [exec_dubBlock_of_quiet (hb ts (by simp)) hq]
    obtain ⟨b, hr, -⟩ := runBlock_fits ha (hb ts (by simp)).1 (hb ts (by simp)).2
    rw [hr]
    dsimp only
    rw [exec_dubDedup_of_quiet (hq.drop _ rfl)]
    dsimp only
    exact ih ha (hq.drop (ts.length + b.payload.length + runBlockAsks s.cfg ts + s.asset.dedupAppends b.payload) (by simp [List.drop_drop]))
      (fun t ht => hb t (by simp [ht]))

/-- R189 with the division written out. -/
theorem statRatio_eq (n w : Nat) :
    statRatio n w = if n = 0 then none else some (100 - (w : Rat) * 100 / (n : Nat)) := by
  unfold statRatio
  split
  · rfl
  · rename_i h
    congr 1
    rw [Rat.mkRat_eq_div]
    have : (n : Rat) ≠ 0 := by exact_mod_cast h
    field_simp
    push_cast
    ring

/-- R188 when nothing is refused by the oracle, from what the loop left. -/
theorem exec_dubEncode_of_quiet {s : State} {w h f : Nat} (hq : s.Quiet) (hw : w < 2 ^ s.cfg.dimBits)
    (hh : h < 2 ^ s.cfg.dimBits) (hf : f < 2 ^ s.cfg.dimBits) (ht : s.tiles.length = w * h * f) {a : Asset} {n : Nat}
    (he : encodeBlocks s.cfg (assetBlocks s.tiles w h f) Asset.empty 0 = .ok (a, n)) :
    exec (.dubEncode w h f) s =
      if overflows a.selectIndex.indexSize a.selectIndex.blockData.length then
        .next (raiseCondition .dubEncode .tooLarge { s with exhaust := s.exhaust.drop n })
      else .next { s with
        blk := Block.fresh
        asset := Asset.empty
        exhaust := (s.exhaust.drop n).drop (a.selectIndex.indexRegion ++ a.selectIndex.blockData).length
        out16 := s.out16 ++ (a.selectIndex.indexRegion ++ a.selectIndex.blockData)
        stat := reportRegisters a.selectIndex (w * h * f)
        result := .out16 (a.selectIndex.indexRegion ++ a.selectIndex.blockData) } := by
  have hd : (dimensionFits s w && dimensionFits s h && dimensionFits s f) = true := by simp [dimensionFits, hw, hh, hf]
  simp only [exec, execDubEncode]
  rw [hd, require_true, show (s.tiles.length == w * h * f) = true by simpa using ht, require_true, he]
  dsimp only
  rw [withAppends_of_grants (State.grants_of_quiet hq _)]
  simp only [commitAsset]
  split
  · rfl
  · rw [withAppends_of_grants (State.grants_of_quiet (hq.drop n rfl) _)]
    rfl

/-- R188, R162: the loop completes, with at most 104 words a block and one index entry each. -/
theorem encodeBlocks_completes {cfg : Config.Params} (ha : 41 ≤ cfg.accBits) {bs : List (List Tile)}
    (hb : ∀ ts ∈ bs, 1 ≤ ts.length ∧ ts.length ≤ 64) (a : Asset) (n : Nat) :
    ∃ a' n', encodeBlocks cfg bs a n = .ok (a', n') ∧ a'.blockData.length ≤ a.blockData.length + 104 * bs.length ∧
      a'.offsets.length = a.offsets.length + bs.length := by
  induction bs generalizing a n with
  | nil => exact ⟨a, n, rfl, by simp, by simp⟩
  | cons ts bs ih =>
    obtain ⟨b, hr, -, h104, -⟩ := runBlock_fits ha (hb ts (by simp)).1 (hb ts (by simp)).2
    obtain ⟨a', n', e1, e2, e3⟩ := ih (fun t ht => hb t (by simp [ht])) (a.dedup b.payload)
      (n + (b.appendsSince Block.fresh + runBlockAsks cfg ts) + a.dedupAppends b.payload)
    have hl := a.dedup_blockData_length b.payload
    have ho := a.dedup_offsets b.payload
    exact ⟨a', n', by simp only [encodeBlocks, hr, e1], by simp; omega, by rw [e3, ho]; simp; omega⟩

/-! ### The appends of `DUB.BLOCK` and `DUB.ENCODE` (R203) -/

theorem State.quiet_silent (s : State) : s.silent.Quiet := by simp [State.silent, State.Quiet]

theorem State.bitsPut_begin (s u : State) : s.bitsPut u .dubBlockBegin = 0 := rfl
theorem State.bitsPut_tile (s u : State) (tile : Tile) : s.bitsPut u (.dubTile tile) =
    chooseBits s.blk.dict tile + (u.blk.stream.length - s.blk.stream.length) := rfl
theorem State.bitsPut_end (s u : State) : s.bitsPut u .dubBlockEnd =
    if s.blk.repeating then (codeBits ⟨.rept, s.blk.repeatCount⟩).length else 0 := rfl

/-- The bits of two lists of operations, one after the other. -/
theorem State.runBits_append (is js : List Instr) (s : State) : State.runBits (is ++ js) s = State.runBits is s +
    match runAll is s with
    | .next u => State.runBits js u
    | _ => 0 := by
  induction is generalizing s with
  | nil => simp [State.runBits, runAll]
  | cons i is ih =>
    simp only [List.cons_append, State.runBits, runAll]
    cases exec i s with
    | next u => simp only [ih, Nat.add_assoc]
    | fault r => rfl
    | refused r => rfl

/-- The operations of a block issued one by one run its tiles, and put the bits that the run asks for. -/
theorem addTiles_of_runAll {ts : List Tile} {s u : State} (hq : s.Quiet) (h : runAll (ts.map .dubTile) s = .next u) :
    s.blk.addTiles s.cfg ts = .ok u.blk ∧ u.cfg = s.cfg ∧ u.Quiet ∧
      bitAsks s.cfg (State.runBits (ts.map .dubTile) s) = s.blk.addTilesAsks s.cfg ts := by
  induction ts generalizing s with
  | nil => cases h; exact ⟨rfl, rfl, hq, bitAsks_zero _⟩
  | cons t ts ih =>
    simp only [List.map_cons, runAll, exec, execDubTile] at h
    simp only [List.map_cons, State.runBits, exec, execDubTile]
    rw [endBlock_of_grants (State.grants_of_quiet hq _)] at h ⊢
    simp only [Block.addTiles, Block.addTilesAsks]
    cases ht : s.blk.tile s.cfg t with
    | error stop => rw [ht] at h; cases h
    | ok b =>
      rw [ht] at h
      obtain ⟨h1, h2, h3, h4⟩ := ih (hq.drop _ rfl) h
      refine ⟨h1, h2, h3, ?_⟩
      dsimp only at h4 ⊢
      rw [bitAsks_add, h4, (Block.tileAsks_of_ok ht).2]
      rfl

/-- Tiles that have a result have one issued one by one too. -/
theorem runAll_of_addTiles {ts : List Tile} {s : State} {b : Block} (hq : s.Quiet)
    (h : s.blk.addTiles s.cfg ts = .ok b) : ∃ u, runAll (ts.map .dubTile) s = .next u := by
  induction ts generalizing s with
  | nil => exact ⟨s, rfl⟩
  | cons t ts ih =>
    simp only [Block.addTiles] at h
    simp only [List.map_cons, runAll, exec, execDubTile]
    rw [endBlock_of_grants (State.grants_of_quiet hq _)]
    cases ht : s.blk.tile s.cfg t with
    | error stop => rw [ht] at h; cases h
    | ok b1 =>
      rw [ht] at h
      exact ih (s := { s with blk := b1, exhaust := _, result := .none }) (hq.drop _ rfl) h

/-- `DUB.BLOCKBEGIN` puts no bits. -/
theorem State.runBits_begin (js : List Instr) (s : State) : State.runBits (.dubBlockBegin :: js) s =
    State.runBits js { s with blk := Block.fresh, result := .none } := by
  simp only [State.runBits, exec, execDubBlockBegin, done, State.returning, State.bitsPut_begin, Nat.zero_add]

/-- The end of a block puts the bits it asks for. -/
theorem runBits_end {s : State} {b : Block} (hq : s.Quiet) (h : s.blk.finish s.cfg = .ok b) :
    bitAsks s.cfg (State.runBits [.dubBlockEnd] s) = s.blk.finishAsks s.cfg := by
  rw [Block.finishAsks_of_ok h]
  simp only [State.runBits, exec, execDubBlockEnd]
  rw [endBlock_of_grants (State.grants_of_quiet hq _), h]
  simp only [State.bitsPut_end, Nat.add_zero]

/-- The bits of a whole block, issued one by one, are those its run asks for. -/
theorem runBits_block {ts : List Tile} {s : State} {b : Block} (hq : s.Quiet) (hr : runBlock s.cfg ts = .ok b) :
    bitAsks s.cfg (State.runBits (.dubBlockBegin :: (ts.map .dubTile ++ [.dubBlockEnd])) s) = runBlockAsks s.cfg ts := by
  obtain ⟨b1, h1, h2⟩ := runBlock_ok.mp hr
  obtain ⟨u, hu⟩ := runAll_of_addTiles (s := { s with blk := Block.fresh, result := .none }) hq h1
  obtain ⟨e, hc, hv, ha⟩ := addTiles_of_runAll (s := { s with blk := Block.fresh, result := .none }) hq hu
  dsimp only at e hc ha
  obtain rfl : b1 = u.blk := Except.ok.inj (h1.symm.trans e)
  have hf := runBits_end hv (by rw [hc]; exact h2)
  rw [hc] at hf
  rw [State.runBits_begin, State.runBits_append, hu, bitAsks_add, ha, runBlockAsks_of_ok h1]
  dsimp only
  rw [hf]

/-- A block run makes at least the appends of any of its first operations (R161). -/
theorem blockOperations_appends {ts : List Tile} {js : List Instr} {s u : State} (hq : s.Quiet)
    (hp : js <+: ts.map .dubTile ++ [.dubBlockEnd]) (h : runAll (.dubBlockBegin :: js) s = .next u) :
    u.blk.dict.length + u.blk.payload.length + bitAsks s.cfg (State.runBits (.dubBlockBegin :: js) s) ≤
      (runBlock s.cfg ts).reached.appendsSince Block.fresh + runBlockAsks s.cfg ts := by
  have hb : runAll js { s with blk := Block.fresh, result := .none } = .next u := h
  rw [Block.appendsSince_fresh]
  rcases List.prefix_concat_iff.mp hp with rfl | hp
  · rw [runAll_append] at hb
    cases ht : runAll (ts.map .dubTile) { s with blk := Block.fresh, result := .none } with
    | fault r => rw [ht] at hb; cases hb
    | refused r => rw [ht] at hb; cases hb
    | next v =>
      rw [ht] at hb
      obtain ⟨e, hc, hv, -⟩ := addTiles_of_runAll (s := { s with blk := Block.fresh, result := .none }) hq ht
      simp only [runAll, exec, execDubBlockEnd] at hb
      rw [endBlock_of_grants (State.grants_of_quiet hv _), hc] at hb
      have hr : runBlock s.cfg ts = v.blk.finish s.cfg := by unfold runBlock; rw [e]
      dsimp only at hb
      cases hf : v.blk.finish s.cfg with
      | error stop => rw [hf] at hb; cases hb
      | ok b =>
        rw [hf] at hb hr
        cases hb
        rw [runBits_block hq hr, hr]
        exact le_rfl
  · obtain ⟨us, hus, rfl⟩ := List.prefix_map_iff.mp hp
    obtain ⟨vs, rfl⟩ := hus
    obtain ⟨e, -, -, ha⟩ := addTiles_of_runAll (s := { s with blk := Block.fresh, result := .none }) hq hb
    obtain ⟨h1, h2⟩ := runBlock_grows (us := vs) e
    have h3 := addTilesAsks_le_runBlockAsks (cfg := s.cfg) us vs
    dsimp only at ha h1 h2
    rw [State.runBits_begin, ha]
    exact Nat.add_le_add (Nat.add_le_add h1.length_le h2.length_le) h3

/-- The appends the loop of `DUB.ENCODE` has made, whichever way it ended. -/
def encodeAppends (r : Except (Refusal × Nat) (Asset × Nat)) : Nat :=
  match r with
  | .ok e => e.2
  | .error stop => stop.2

theorem encodeBlocks_append {cfg : Config.Params} (bs cs : List (List Tile)) (a : Asset) (n : Nat) :
    encodeBlocks cfg (bs ++ cs) a n = match encodeBlocks cfg bs a n with
      | .ok e => encodeBlocks cfg cs e.1 e.2
      | .error stop => .error stop := by
  induction bs generalizing a n with
  | nil => rfl
  | cons ts bs ih =>
    simp only [List.cons_append, encodeBlocks]
    cases runBlock cfg ts with
    | ok b => exact ih _ _
    | error stop => rfl

theorem le_encodeAppends {cfg : Config.Params} (bs : List (List Tile)) (a : Asset) (n : Nat) :
    n ≤ encodeAppends (encodeBlocks cfg bs a n) := by
  induction bs generalizing a n with
  | nil => exact le_rfl
  | cons ts bs ih =>
    simp only [encodeBlocks]
    cases runBlock cfg ts with
    | ok b => exact le_trans (by omega) (ih _ (n + (b.appendsSince Block.fresh + runBlockAsks cfg ts) + a.dedupAppends b.payload))
    | error stop => exact Nat.le_add_right _ _

/-- The loop makes at least the appends of its first blocks and of the run of the next one. -/
theorem encodeAppends_of_append {cfg : Config.Params} {bs cs : List (List Tile)} {ts : List Tile} {a a' : Asset}
    {n n' : Nat} (h : encodeBlocks cfg bs a n = .ok (a', n')) :
    n' + ((runBlock cfg ts).reached.appendsSince Block.fresh + runBlockAsks cfg ts) ≤
      encodeAppends (encodeBlocks cfg (bs ++ ts :: cs) a n) := by
  rw [encodeBlocks_append, h]
  simp only [encodeBlocks]
  cases runBlock cfg ts with
  | ok b => exact le_trans (Nat.le_add_right _ _) (le_encodeAppends cs _ _)
  | error stop => exact le_rfl

/-- `DUB.DEDUP` appends what the three lists of the asset grow by (R182). -/
theorem Asset.dedup_appends (a : Asset) (p : List Word) :
    (a.dedup p).store.length + (a.dedup p).blockData.length + (a.dedup p).offsets.length =
      a.store.length + a.blockData.length + a.offsets.length + a.dedupAppends p := by
  unfold Asset.dedup Asset.dedupAppends
  cases storeLookup p a.store <;> simp <;> omega

/-- The count of the loop: the appends of its blocks, and what the lists of the asset have grown by. -/
theorem encodeBlocks_appends {s : State} {bs : List (List Tile)} (hb : ∀ ts ∈ bs, 1 ≤ ts.length ∧ ts.length ≤ 64)
    {a a' : Asset} {n n' : Nat} (h : encodeBlocks s.cfg bs a n = .ok (a', n')) :
    n' + (a.store.length + a.blockData.length + a.offsets.length) = n + s.assetAppends bs a' := by
  induction bs generalizing a n with
  | nil => cases h; simp [State.assetAppends]
  | cons ts bs ih =>
    simp only [encodeBlocks] at h
    cases hr : runBlock s.cfg ts with
    | error stop => rw [hr] at h; cases h
    | ok b =>
      rw [hr] at h
      have h1 := ih (fun t ht => hb t (by simp [ht])) h
      have h2 := a.dedup_appends b.payload
      have h3 : s.blockAppends ts = b.appendsSince Block.fresh + runBlockAsks s.cfg ts := by
        unfold State.blockAppends
        rw [exec_dubBlock_of_quiet (hb ts (by simp)) s.quiet_silent, show s.silent.cfg = s.cfg from rfl, hr]
        dsimp only
        rw [Block.appendsSince_fresh, List.cons_append]
        exact congrArg _ (runBits_block s.quiet_silent hr)
      simp only [State.assetAppends, List.map_cons, List.sum_cons, h3] at h1 ⊢
      omega

/-- R188, R203: when the oracle refuses an append of the loop of `DUB.ENCODE`, the condition is entered, whether or not a
later block would have had a result. -/
theorem exec_dubEncode_of_refuses {s : State} {w h f : Nat} (hw : w < 2 ^ s.cfg.dimBits) (hh : h < 2 ^ s.cfg.dimBits)
    (hf : f < 2 ^ s.cfg.dimBits) (ht : s.tiles.length = w * h * f)
    (hg : ¬ s.Grants (encodeAppends (encodeBlocks s.cfg (assetBlocks s.tiles w h f) Asset.empty 0))) :
    exec (.dubEncode w h f) s = .next { s.exhausted with blk := Block.fresh, asset := Asset.empty } := by
  have hd : (dimensionFits s w && dimensionFits s h && dimensionFits s f) = true := by simp [dimensionFits, hw, hh, hf]
  simp only [exec, execDubEncode]
  rw [hd, require_true, show (s.tiles.length == w * h * f) = true by simpa using ht, require_true]
  cases he : encodeBlocks s.cfg (assetBlocks s.tiles w h f) Asset.empty 0 with
  | ok e =>
    rw [he] at hg
    exact congrArg Host.Outcome.next (withAppends_of_refuses hg)
  | error stop =>
    rw [he] at hg
    exact stopAfterAppends_of_refuses hg

end Sys2Proof.Machine
end

