-- ==== Sys2Proof/Laws/PerInstr.lean ====
section
/-! SUPPORT. Statements made for every instruction, one lemma per constructor. `Framing` (R70, R87): the transaction of an
instruction has the format of the instruction's row, whatever the parameters. -/
namespace Sys2Proof.Laws.Framing

/-- The transaction of the instruction has the format of its row. -/
def Statement (i : Instr) : Prop := ∀ cfg : Config.Params, (encode cfg i).format = i.format

theorem sysReset : Statement .sysReset := fun _ => rfl
theorem sysStatus : Statement .sysStatus := fun _ => rfl
theorem adpcmSetic : ∀ x0 x1, Statement (.adpcmSetic x0 x1) := fun _ _ _ => rfl
theorem adpcmQuant : ∀ x0, Statement (.adpcmQuant x0) := fun _ _ => rfl
theorem adpcmStep : ∀ x0, Statement (.adpcmStep x0) := fun _ _ => rfl
theorem adpcmPut : ∀ x0, Statement (.adpcmPut x0) := fun _ _ => rfl
theorem adpcmPair : ∀ x0 x1, Statement (.adpcmPair x0 x1) := fun _ _ _ => rfl
theorem adpcmBody : ∀ x0, Statement (.adpcmBody x0) := fun _ _ => rfl
theorem adpcmEval : ∀ x0 x1 x2, Statement (.adpcmEval x0 x1 x2) := fun _ _ _ _ => rfl
theorem adpcmScan : ∀ x0, Statement (.adpcmScan x0) := fun _ _ => rfl
theorem adpcmClimb : ∀ x0 x1 x2 x3, Statement (.adpcmClimb x0 x1 x2 x3) := fun _ _ _ _ _ => rfl
theorem adpcmOptic : ∀ x0, Statement (.adpcmOptic x0) := fun _ _ => rfl
theorem adpcmEncode : ∀ x0, Statement (.adpcmEncode x0) := fun _ _ => rfl
theorem adpcmHeader : Statement .adpcmHeader := fun _ => rfl
theorem bbReset : Statement .bbReset := fun _ => rfl
theorem bbAppend : ∀ x0 x1, Statement (.bbAppend x0 x1) := fun _ _ _ => rfl
theorem bbAppendVar : ∀ x0 x1, Statement (.bbAppendVar x0 x1) := fun _ _ _ => rfl
theorem bbFlush : Statement .bbFlush := fun _ => rfl
theorem bbFlushFinal : Statement .bbFlushFinal := fun _ => rfl
theorem bbGetCount : Statement .bbGetCount := fun _ => rfl
theorem dubPack : ∀ x0 x1, Statement (.dubPack x0 x1) := fun _ _ _ => rfl
theorem dubCodeLen : ∀ x0 x1, Statement (.dubCodeLen x0 x1) := fun _ _ _ => rfl
theorem dubChoose : ∀ x0, Statement (.dubChoose x0) := fun _ _ => rfl
theorem dubBlockBegin : Statement .dubBlockBegin := fun _ => rfl
theorem dubTile : ∀ x0, Statement (.dubTile x0) := fun _ _ => rfl
theorem dubBlockEnd : Statement .dubBlockEnd := fun _ => rfl
theorem dubBlock : ∀ x0, Statement (.dubBlock x0) := fun _ _ => rfl
theorem dubDedup : ∀ x0, Statement (.dubDedup x0) := fun _ _ => rfl
theorem dubIndexSel : Statement .dubIndexSel := fun _ => rfl
theorem dubEncode : ∀ x0 x1 x2, Statement (.dubEncode x0 x1 x2) := fun _ _ _ _ => rfl
theorem adpcmCode0 : Statement .adpcmCode0 := fun _ => rfl
theorem adpcmCode1 : Statement .adpcmCode1 := fun _ => rfl
theorem adpcmCode2 : Statement .adpcmCode2 := fun _ => rfl
theorem adpcmCode3 : Statement .adpcmCode3 := fun _ => rfl
theorem adpcmCode4 : Statement .adpcmCode4 := fun _ => rfl
theorem adpcmCode5 : Statement .adpcmCode5 := fun _ => rfl
theorem adpcmCode6 : Statement .adpcmCode6 := fun _ => rfl
theorem adpcmCode7 : Statement .adpcmCode7 := fun _ => rfl
theorem adpcmCode8 : Statement .adpcmCode8 := fun _ => rfl
theorem adpcmCode9 : Statement .adpcmCode9 := fun _ => rfl
theorem adpcmCode10 : Statement .adpcmCode10 := fun _ => rfl
theorem adpcmCode11 : Statement .adpcmCode11 := fun _ => rfl
theorem adpcmCode12 : Statement .adpcmCode12 := fun _ => rfl
theorem adpcmCode13 : Statement .adpcmCode13 := fun _ => rfl
theorem adpcmCode14 : Statement .adpcmCode14 := fun _ => rfl
theorem adpcmCode15 : Statement .adpcmCode15 := fun _ => rfl
theorem codeTableWord : ∀ x0 x1, Statement (.codeTableWord x0 x1) := fun _ _ _ => rfl
theorem adpcmBodyByte : ∀ x0 x1, Statement (.adpcmBodyByte x0 x1) := fun _ _ _ => rfl
theorem adpcmHeaderBytes : ∀ x0 x1, Statement (.adpcmHeaderBytes x0 x1) := fun _ _ _ => rfl
theorem dubDeltaG1 : ∀ x0 x1, Statement (.dubDeltaG1 x0 x1) := fun _ _ _ => rfl
theorem dubDeltaG2 : ∀ x0 x1, Statement (.dubDeltaG2 x0 x1) := fun _ _ _ => rfl
theorem dubDeltaG3 : ∀ x0 x1, Statement (.dubDeltaG3 x0 x1) := fun _ _ _ => rfl
theorem dubDeltaG4 : ∀ x0 x1, Statement (.dubDeltaG4 x0 x1) := fun _ _ _ => rfl
theorem dubDeltaG5 : ∀ x0 x1, Statement (.dubDeltaG5 x0 x1) := fun _ _ _ => rfl
theorem dubDeltaG6 : ∀ x0 x1, Statement (.dubDeltaG6 x0 x1) := fun _ _ _ => rfl
theorem dubRefG1 : ∀ x0, Statement (.dubRefG1 x0) := fun _ _ => rfl
theorem dubRefG2 : ∀ x0, Statement (.dubRefG2 x0) := fun _ _ => rfl
theorem dubRepeatG1 : ∀ x0, Statement (.dubRepeatG1 x0) := fun _ _ => rfl
theorem dubRepeatG2 : ∀ x0, Statement (.dubRepeatG2 x0) := fun _ _ => rfl
theorem dubIndex8 : ∀ x0 x1, Statement (.dubIndex8 x0 x1) := fun _ _ _ => rfl
theorem dubIndex16 : ∀ x0, Statement (.dubIndex16 x0) := fun _ _ => rfl

end Sys2Proof.Laws.Framing
end

