-- ==== Sys2Proof/Tests/Slice0.lean ====
section
/-! SUPPORT. Tests of the model on the worked examples and vectors of 95_test_vectors.md, the words of 30_encoding.md, the
well-formedness smoke tests, and a witness for the hypotheses of every obligation. Every expected value is the spec's. -/
namespace Sys2Proof.Tests
open Sys2Proof Sys2Proof.Machine
set_option Elab.async false

/-! ### Helpers -/

/-- The next state, when there is one. -/
def nextOf : Out → Option State
  | .next t => some t
  | .fault _ => none
  | .refused _ => none

/-- The refusal, when there is one. -/
def refusalOf : Out → Option Refusal
  | .next _ => none
  | .fault _ => none
  | .refused r => some r

/-- What an observation gives on the next state. -/
def look {α : Type} (o : Out) (f : State → α) : Option α := (nextOf o).map f

/-- The transaction decodes to the instruction with the default parameters. -/
def decodes (p : Packet) (i : Instr) : Bool :=
  match decode {} p with
  | .ok j => j == i
  | .error _ => false

/-- The transaction is rejected for that reason. -/
def rejects (p : Packet) (e : DecodeError) : Bool :=
  match decode {} p with
  | .ok _ => false
  | .error d => d == e

/-- The reset state with a codec state. -/
def codecAt (sample : Int) (index : Fin 89) : State :=
  { State.reset with adpcm := ⟨⟨BitVec.ofInt 16 sample, index⟩, false, 0⟩ }

/-- The reset state with the little-endian bytes of some samples in `IN8`. -/
def hearing (xs : List Int) : State :=
  { State.reset with in8 := xs.flatMap fun x => [(BitVec.ofInt 16 x).extractLsb' 0 8, (BitVec.ofInt 16 x).extractLsb' 8 8] }

/-- The reset state with an accumulator. -/
def holding (acc : List Bool) : State := { State.reset with blk := { Block.fresh with acc := acc } }

/-- A bit list from a binary number of `n` digits, the first digit first. -/
def digits (n w : Nat) : List Bool := bitsMsbFirst n w

/-- The reset state with a dictionary. -/
def knowing (dict : List Tile) : State := { State.reset with blk := { Block.fresh with dict := dict } }

/-- The codec state. -/
def codecOf (s : State) : Int × Nat := (s.adpcm.codec.sample.toInt, s.adpcm.codec.index.val)

/-! ### Well-formedness: one ill-formed term for each check -/

theorem test_wf_refuses_adpcm_operands :
    (Instr.wf {} (.adpcmSetic 0 89) || Instr.wf {} (.adpcmPut 16) || Instr.wf {} (.adpcmEval 0 89 4)
      || Instr.wf {} (.adpcmScan 1) || Instr.wf {} (.adpcmClimb 0 89 0 4) || Instr.wf {} (.adpcmOptic 3)
      || Instr.wf {} (.adpcmHeaderBytes 0 89)) = false := by decide

theorem test_wf_refuses_bit_buffer_operands :
    (Instr.wf {} (.bbAppend 0 33) || Instr.wf {} (.bbAppendVar 0 0) || Instr.wf {} (.bbAppendVar 0 33)) = false := by
  decide

theorem test_wf_refuses_code_operands :
    (Instr.wf {} (.dubPack .invalid 0) || Instr.wf {} (.dubPack .ref (-1)) || Instr.wf {} (.dubPack .rept (-1))
      || Instr.wf {} (.dubCodeLen .invalid 0) || Instr.wf {} (.dubCodeLen .ref (-1))
      || Instr.wf {} (.dubCodeLen .rept (-1))) = false := by decide

theorem test_wf_refuses_counts_and_dimensions :
    (Instr.wf {} (.dubBlock []) || Instr.wf {} (.dubBlock (List.replicate 65 0))
      || Instr.wf {} (.dubDedup (List.replicate 256 0)) || Instr.wf {} (.dubEncode (2 ^ 32) 1 1)
      || Instr.wf {} (.dubEncode 1 (2 ^ 32) 1) || Instr.wf {} (.dubEncode 1 1 (2 ^ 32))) = false := by decide +kernel

theorem test_wf_refuses_reserved_forms :
    (Instr.wf {} (.dubDeltaG1 true 0) || Instr.wf {} (.dubDeltaG2 false 7) || Instr.wf {} (.dubDeltaG3 false 63)
      || Instr.wf {} (.dubDeltaG4 false 511) || Instr.wf {} (.dubDeltaG5 true 4095)
      || Instr.wf {} (.dubDeltaG6 false 32767) || Instr.wf {} (.dubDeltaG6 false 65536) || Instr.wf {} (.dubRefG2 7)
      || Instr.wf {} (.dubRefG2 63) || Instr.wf {} (.dubRepeatG2 7) || Instr.wf {} (.dubRepeatG2 63)) = false := by
  decide +kernel

/-! ### Decoding: words written out from 30_encoding.md -/

/-- R86, R87, R245; P1 of 95_test_vectors.md. -/
theorem test_decode_sys_and_adpcm_commands :
    (decodes (.command [0x00]) .sysReset && decodes (.command [0x01]) .sysStatus
    && decodes (.command [0x10, 0x62, 0x00, 0x15]) (.adpcmSetic 98 21)
    && decodes (.command [0x11, 0xFF, 0xFF]) (.adpcmQuant (-1))
    && decodes (.command [0x12, 0xC8, 0x00]) (.adpcmStep 200)
    && decodes (.command [0x13, 0x07]) (.adpcmPut 7)
    && decodes (.command [0x14, 0x12, 0x34, 0x56, 0x78]) (.adpcmPair 0x3412 0x7856)
    && decodes (.command [0x15, 0x04, 0x03, 0x02, 0x01]) (.adpcmBody 0x01020304)
    && decodes (.command [0x16, 0x64, 0x00, 0x15, 0x04, 0x00, 0x00, 0x00]) (.adpcmEval 100 21 4)
    && decodes (.command [0x17, 0x04, 0x00, 0x00, 0x00]) (.adpcmScan 4)
    && decodes (.command [0x18, 0x64, 0x00, 0x15, 0x25, 0, 0, 0, 0, 0, 0, 0x80, 0x04, 0, 0, 0])
        (.adpcmClimb 100 21 0x8000000000000025 4)
    && decodes (.command [0x19, 0x04, 0x00, 0x00, 0x00]) (.adpcmOptic 4)
    && decodes (.command [0x1A, 0x03, 0x00, 0x00, 0x00]) (.adpcmEncode 3)
    && decodes (.command [0x1B]) .adpcmHeader) = true := by decide +kernel

/-- R86, R87; P3 of 95_test_vectors.md. -/
theorem test_decode_bit_buffer_commands :
    (decodes (.command [0x20]) .bbReset && decodes (.command [0x21, 0x06, 0x00, 0x00, 0x00, 0x03]) (.bbAppend 6 3)
    && decodes (.command [0x22, 0x2C, 0x01, 0x00, 0x00, 0x03]) (.bbAppendVar 300 3)
    && decodes (.command [0x23]) .bbFlush && decodes (.command [0x24]) .bbFlushFinal
    && decodes (.command [0x25]) .bbGetCount) = true := by decide +kernel

/-- R86, R87; P3 to P5 of 95_test_vectors.md. -/
theorem test_decode_dub_commands :
    (decodes (.command [0x30, 0x00, 0xD4, 0xFE, 0xFF, 0xFF]) (.dubPack .delta (-300))
    && decodes (.command [0x30, 0x01, 0x08, 0x00, 0x00, 0x00]) (.dubPack .ref 8)
    && decodes (.command [0x31, 0x02, 0x3E, 0x00, 0x00, 0x00]) (.dubCodeLen .rept 62)
    && decodes (.command [0x31, 0x03, 0x00, 0x00, 0x00, 0x00]) (.dubCodeLen .invalid 0)
    && decodes (.command [0x32, 0x40, 0x9C]) (.dubChoose 40000) && decodes (.command [0x33]) .dubBlockBegin
    && decodes (.command [0x34, 0x07, 0x00]) (.dubTile 7) && decodes (.command [0x35]) .dubBlockEnd
    && decodes (.command [0x36, 0x04, 7, 0, 7, 0, 7, 0, 9, 0]) (.dubBlock [7, 7, 7, 9])
    && decodes (.command [0x37, 0x02, 0x20, 0x44, 0x00, 0x00]) (.dubDedup [0x4420, 0x0000])
    && decodes (.command [0x38]) .dubIndexSel
    && decodes (.command [0x39, 2, 0, 0, 0, 2, 0, 0, 0, 3, 0, 0, 0]) (.dubEncode 2 2 3)) = true := by decide +kernel

/-- R71: the sixteen codes. -/
theorem test_decode_adpcm_codes :
    (codeRows.all fun p => decodes (.adpcmNybble p.2) p.1) = true := by decide +kernel

/-- R73, R74: the word of code 12; R75, R76: a header and a body byte; R85: an index word in both forms. -/
theorem test_decode_tables_bytes_and_index_words :
    (decodes (.codeTableWord 0x000002F7) (.codeTableWord 2 0xF7)
    && decodes (.adpcmBodyByte 0xC7) (.adpcmBodyByte 12 7)
    && decodes (.adpcmHeader [0xFE, 0xFF, 0x0E]) (.adpcmHeaderBytes (-2) 14)
    && decodes (.dubIndexWord8 0x0301) (.dubIndex8 0x03 0x01) && decodes (.dubIndexWord16 0x0301) (.dubIndex16 0x0301))
    = true := by decide +kernel

/-- R82, and 2.8 of 95_test_vectors.md for the forms of three to five groups (the bits of the words `2044`, `0444 0002`
and `4444 0020` from bit 0 on). -/
theorem test_decode_delta_forms :
    (decodes (.dubCode [false, true, false, true, true, true]) (.dubDeltaG1 true 7)
    && decodes (.dubCode [false, false, true, false, false, false, false, false, false, true]) (.dubDeltaG2 false 8)
    && decodes (.dubCode ([false, false] ++ [true, false, false, false] ++ [true, false, false, false]
        ++ [false, false, false, true])) (.dubDeltaG3 false 64)
    && decodes (.dubCode ([false, false] ++ [true, false, false, false] ++ [true, false, false, false]
        ++ [true, false, false, false] ++ [false, false, false, true])) (.dubDeltaG4 false 512)
    && decodes (.dubCode ([false, false] ++ [true, false, false, false] ++ [true, false, false, false]
        ++ [true, false, false, false] ++ [true, false, false, false] ++ [false, false, false, true]))
        (.dubDeltaG5 false 4096)
    && decodes (.dubCode ([false, false] ++ [true, false, false, false] ++ [true, false, false, false]
        ++ [true, false, false, true] ++ [true, true, true, false] ++ [true, false, false, true]
        ++ [false, false, false, true])) (.dubDeltaG6 false 40000)) = true := by decide +kernel

/-- R82. -/
theorem test_decode_ref_and_repeat_forms :
    (decodes (.dubCode [true, false, true, true, true]) (.dubRefG1 7)
    && decodes (.dubCode [true, true, false, false, false, false, false, false, true]) (.dubRefG2 8)
    && decodes (.dubRepeat [false, false, false, false]) (.dubRepeatG1 0)
    && decodes (.dubRepeat [true, true, false, true, false, true, true, true]) (.dubRepeatG2 61)) = true := by
  decide +kernel

/-- U1, R86, R87, log entry 21: what is no instruction, and why. -/
theorem test_decode_rejects_by_name :
    (rejects (.command []) .noCommand && rejects (.command [0x02, 1]) (.undefinedCommand 0x02)
    && rejects (.command [0x12, 0xC8]) .truncated && rejects (.command [0x00, 0x00]) .trailingBytes
    && rejects (.command [0x30, 4, 0, 0, 0, 0]) (.codeTypeUnassigned 4) && rejects (.dubCode [true]) .noCodeForm
    && rejects (.dubRepeat [true, false, false, false]) .noCodeForm && rejects (.adpcmHeader [0, 0]) .headerLength)
    = true := by decide +kernel

/-- The table's rows: `10 00 00 00` (SETIC with zero operands), DELTA of one group, CODE9, the 16-bit index word. -/
theorem test_decode_table_words :
    decodeTableWord 8 0x10 = some (.adpcmSetic 0 0) ∧ decodeTableWord 6 0b010111 = some (.dubDeltaG1 true 7) ∧
    decodeTableWord 4 9 = some .adpcmCode9 ∧ decodeTableWord 16 0x0201 = some (.dubIndex16 0x0201) ∧
    decodeTableWord 8 5 = some .adpcmCode5 ∧ decodeTableWord 8 0x40 = none := by decide +kernel

/-! ### Reset, the system operations, the step -/

/-- 2.10: `SYS.RESET` then `SYS.STATUS -> OK, 0, 0, absent, 0, 0`. -/
theorem test_reset_then_status :
    look (runAll [.sysReset, .sysStatus] (codecAt 5 3)) (fun t => (t.result, codecOf t)) =
      some (.status { status := .ok, statTiles := 0, statWords := 0, statRatio := none, isIndex16 := false,
                      indexSize := 0 }, 0, 0) := by decide +kernel

/-- R247: a step takes the transaction and the buffers that come with it. -/
theorem test_step_takes_the_transaction :
    look (step { State.reset with
        bus := [⟨.command [0x1A, 2, 0, 0, 0], { in8 := some [0x12, 0x34] }⟩, ⟨.command [0x00], {}⟩] })
      (fun t => (t.out8, t.bus.length)) = some ([0x00, 0x00, 0x00, 0x77], 1) := by decide +kernel

/-- `withFetchWord` puts the row's instruction first: SETIC with zero operands. -/
theorem test_withFetchWord_runs_the_row :
    look (step ((codecAt 5 3).withFetchWord 8 0x10)) codecOf = some (0, 0) := by decide +kernel

/-! ### ADPCM -/

/-- 2.1: the rows of the steps 7 and 494, and the two literal readings at step 7. -/
theorem test_candidate_deltas :
    ([8, 9, 10, 11, 12, 13, 14, 15].map fun c => candDelta .signedAsr c 7) = [-1, -3, -5, -7, -8, -10, -12, -14] ∧
    ([1, 3, 7, 15].map fun c => candDelta .signedAsr c 494) = [185, 432, 926, -927] ∧
    candDelta .sextLsr 8 7 = 536870911 ∧ candDelta .zextLsr 8 7 = 223 := by decide +kernel

/-- 2.3. -/
theorem test_setic_then_header :
    look (runAll [.adpcmSetic (-2) 14, .adpcmHeader] State.reset) (fun t => t.out8) = some [0xFE, 0xFF, 0x0E] := by
  decide +kernel

/-- U4. -/
theorem test_setic_refuses_89 : refusalOf (exec (.adpcmSetic 0 89) State.reset) = some .indexOutOfRange := by decide

/-- 2.2: codes 0 and 1 tie and the later wins. -/
theorem test_quant :
    look (exec (.adpcmQuant 1) (codecAt 0 0)) (·.result) = some (.codeDelta 1 2) ∧
    look (exec (.adpcmQuant 100) (codecAt 98 21)) (·.result) = some (.codeDelta 0 6) := by decide +kernel

/-- 2.2: the floor, and both clamps. -/
theorem test_step :
    look (exec (.adpcmStep (-1)) (codecAt 0 0)) (fun t => (t.result, codecOf t)) = some (.code 8, -1, 0) ∧
    look (exec (.adpcmStep (-32768)) (codecAt 0 88)) (fun t => (t.result, codecOf t)) = some (.code 12, -32768, 88) ∧
    look (exec (.adpcmStep 32767) (codecAt 32767 88)) (fun t => (t.result, codecOf t)) = some (.code 0, 32767, 87) := by
  decide +kernel

/-- 2.3. -/
theorem test_put :
    look (exec (.adpcmPut 7) State.reset) (fun t => (t.adpcm.half, t.adpcm.lowCode, t.out8)) = some (true, 7, []) ∧
    look (runAll [.adpcmPut 7, .adpcmPut 12] State.reset) (fun t => (t.adpcm.half, t.out8)) = some (false, [0xC7]) := by
  decide +kernel

/-- 2.3; U13. -/
theorem test_pair :
    look (exec (.adpcmPair 100 200) (codecAt 98 21)) (fun t => (t.result, codecOf t, t.out8)) =
      some (.byte 0x70, (197, 28), [0x70]) ∧
    refusalOf (runAll [.adpcmPut 7, .adpcmPair 1 2] State.reset) = some .halfHeld := by decide +kernel

/-- 2.6: the trace of -5, 3, 40, -200, 7 from `(-5, 33)`. -/
theorem test_body_odd :
    look (runAll [.adpcmSetic (-5) 33, .adpcmBody 10] (hearing [-5, 3, 40, -200, 7])) (fun t => (codecOf t, t.out8)) =
      some ((10, 36), [0x80, 0xF1, 0x02]) := by decide +kernel

/-- 2.4: without and with the padded step. -/
theorem test_eval :
    look (exec (.adpcmEval 98 21 4) (hearing [100, 200])) (·.result) = some (.err 25) ∧
    look (exec (.adpcmEval 0 0 2) (hearing [13330])) (·.result) = some (.err 353886858) ∧
    look (exec (.adpcmEval 0 0 2) { hearing [13330] with cfg := { evalCountsPad := false } }) (·.result) =
      some (.err 177342489) := by decide +kernel

/-- 2.5. -/
theorem test_scan : look (exec (.adpcmScan 4) (hearing [100, 200])) (·.result) = some (.indexErr 21 37) := by
  decide +kernel

/-- 2.5: the row of 300, 100, which restarts with `sample + 1` after `index + 1`. -/
theorem test_climb :
    look (exec (.adpcmClimb 100 21 37 4) (hearing [100, 200])) (·.result) = some (.icErr 98 21 25) ∧
    look (exec (.adpcmClimb 300 30 292 4) (hearing [300, 100])) (·.result) = some (.icErr 289 31 72) := by
  decide +kernel

/-- 2.5: `sample - 1` is skipped at -32768. -/
theorem test_optic :
    look (exec (.adpcmOptic 4) (hearing [100, 200])) (·.result) = some (.ic 98 21) ∧
    look (exec (.adpcmOptic 4) (hearing [-32768, 32767])) (·.result) = some (.ic (-32768) 88) := by decide +kernel

/-- 2.6: two samples; the short inputs of no byte and of three. -/
theorem test_encode :
    look (exec (.adpcmEncode 4) (hearing [100, 200])) (fun t => (codecOf t, t.out8)) =
      some ((197, 28), [0x62, 0x00, 0x15, 0x70]) ∧
    look (exec (.adpcmEncode 3) { State.reset with in8 := [0x12, 0x34, 0x56] }) (fun t => (codecOf t, t.out8)) =
      some ((43, 16), [0x00, 0x00, 0x00, 0x77]) ∧
    look (exec (.adpcmEncode 0) State.reset) (·.out8) = some [0, 0, 0] := by decide +kernel

/-- 2.10: `Exhaust` fires on the fourth append of the encode of 100, 200. -/
theorem test_encode_exhausted :
    look (exec (.adpcmEncode 4) { hearing [100, 200] with exhaust := [false, false, false, true] })
      (fun t => (t.stat.status.code, t.out8, codecOf t)) = some (3, [], 0, 0) := by decide +kernel

/-- 2.2: the rows of `STEP` whose code is 1, 2, 7, 8 and 15. -/
theorem test_code_rows :
    look (exec .adpcmCode1 (codecAt 0 0)) codecOf = some (2, 0) ∧
    look (exec .adpcmCode2 (codecAt 1000 40)) codecOf = some (1210, 39) ∧
    look (exec .adpcmCode7 (codecAt 13 8)) codecOf = some (43, 16) ∧
    look (exec .adpcmCode8 (codecAt 100 20)) codecOf = some (93, 19) ∧
    look (exec .adpcmCode15 (codecAt 32767 0)) codecOf = some (32753, 8) := by decide +kernel

/-- 2.2: codes 0, 4, 10, 11 and 12; the others from 2.1 (step 7) and R73. -/
theorem test_more_code_rows :
    look (exec .adpcmCode0 (codecAt (-32768) 88)) codecOf = some (-28673, 87) ∧
    look (exec .adpcmCode4 (codecAt 0 88)) codecOf = some (32767, 88) ∧
    look (exec .adpcmCode10 (codecAt 0 0)) codecOf = some (-5, 0) ∧
    look (exec .adpcmCode11 (codecAt 5 3)) codecOf = some (-4, 2) ∧
    look (exec .adpcmCode12 (codecAt 0 88)) codecOf = some (-32768, 88) ∧
    look (exec .adpcmCode3 (codecAt 0 0)) codecOf = some (6, 0) ∧
    look (exec .adpcmCode5 (codecAt 0 0)) codecOf = some (9, 4) ∧
    look (exec .adpcmCode6 (codecAt 0 0)) codecOf = some (11, 6) ∧
    look (exec .adpcmCode9 (codecAt 0 0)) codecOf = some (-3, 0) ∧
    look (exec .adpcmCode13 (codecAt 0 0)) codecOf = some (-10, 4) ∧
    look (exec .adpcmCode14 (codecAt 0 0)) codecOf = some (-12, 6) := by decide +kernel

/-- R73, R74; R75, R76; R186, P5. -/
theorem test_object_rows :
    look (exec (.codeTableWord 2 0xF7) State.reset) (·.result) = some (.fields (-9) 2) ∧
    look (exec (.adpcmBodyByte 12 7) State.reset) (·.out8) = some [0xC7] ∧
    look (exec (.adpcmHeaderBytes 16000 0) State.reset) (·.out8) = some [0x80, 0x3E, 0x00] ∧
    look (exec (.dubIndex8 0x03 0x01) State.reset) (·.out16) = some [0x0301] ∧
    look (exec (.dubIndex16 0x01FF) State.reset) (·.out16) = some [0x01FF] := by decide +kernel

/-! ### The bit buffer and the DUB codes -/

/-- 2.7. -/
theorem test_append :
    look (exec (.bbAppend 6 3) State.reset) (·.blk.acc) = some [true, true, false] ∧
    look (exec (.bbAppend 0xFF 3) State.reset) (·.blk.acc) = some [true, true, true] ∧
    look (exec (.bbAppend 5 0) State.reset) (·.blk.acc) = some [] := by decide +kernel

/-- 2.7: three groups of three bits; groups of one bit. -/
theorem test_append_var :
    look (exec (.bbAppendVar 300 3) State.reset) (·.blk.acc) = some (digits 12 0b110011010100) ∧
    look (exec (.bbAppendVar 5 1) State.reset) (·.blk.acc) = some (digits 6 0b111001) := by decide +kernel

/-- P3: the word `CACE`, the seven bits left, and the word `0040`. -/
theorem test_flush_and_flush_final :
    look (exec .bbFlush (holding (digits 23 0b01110011010100110000001))) (fun t => (t.blk.payload, t.blk.acc)) =
      some ([0xCACE], digits 7 1) ∧
    look (exec .bbFlushFinal (holding (digits 7 1))) (fun t => (t.blk.payload, t.blk.acc)) = some ([0x0040], []) ∧
    look (exec .bbFlushFinal State.reset) (·.blk.payload) = some [] := by decide +kernel

/-- R131, R136. -/
theorem test_count_and_bit_buffer_reset :
    look (exec .bbGetCount (holding (digits 14 0))) (·.result) = some (.count 14) ∧
    look (exec .bbReset (holding (digits 14 0))) (·.blk.acc) = some [] := by decide +kernel

/-- P3, R82. -/
theorem test_pack :
    look (runAll [.dubPack .delta (-300), .dubPack .ref 8, .bbFlushFinal] State.reset) (·.blk.payload) =
      some [0xCACE, 0x0040] ∧
    look (exec (.dubPack .rept 61) State.reset) (·.blk.acc) = some (digits 8 0b11010111) ∧
    refusalOf (exec (.dubPack .invalid 0) State.reset) = some .invalidCode := by decide +kernel

/-- 2.8. -/
theorem test_code_lengths :
    look (exec (.dubCodeLen .delta (-65535)) State.reset) (·.result) = some (.bits 26) ∧
    look (exec (.dubCodeLen .ref 62) State.reset) (·.result) = some (.bits 9) ∧
    look (exec (.dubCodeLen .rept 7) State.reset) (·.result) = some (.bits 4) := by decide +kernel

/-- 2.8: the words of `DELTA 40000`, `DELTA -7`, `DELTA 4095`, then those of the form rows. -/
theorem test_delta_rows :
    look (runAll [.dubDeltaG6 false 40000, .bbFlushFinal] State.reset) (·.blk.payload) = some [0xE444, 0x0225] ∧
    look (runAll [.dubDeltaG1 true 7, .bbFlushFinal] State.reset) (·.blk.payload) = some [0x003A] ∧
    look (runAll [.dubDeltaG2 true 8, .bbFlushFinal] State.reset) (·.blk.payload) = some [0x0206] ∧
    look (runAll [.dubDeltaG3 false 511, .bbFlushFinal] State.reset) (·.blk.payload) = some [0x3BFC] ∧
    look (runAll [.dubDeltaG4 false 4095, .bbFlushFinal] State.reset) (·.blk.payload) = some [0xBFFC, 0x0003] ∧
    look (runAll [.dubDeltaG5 false 4096, .bbFlushFinal] State.reset) (·.blk.payload) = some [0x4444, 0x0020] := by
  decide +kernel

/-- 2.8; R83. -/
theorem test_ref_and_repeat_rows :
    look (runAll [.dubRefG1 7, .bbFlushFinal] State.reset) (·.blk.payload) = some [0x001D] ∧
    look (runAll [.dubRefG2 62, .bbFlushFinal] State.reset) (·.blk.payload) = some [0x01CF] ∧
    look (runAll [.dubRepeatG1 5, .bbFlushFinal] State.reset) (·.blk.payload) = some [0x000A] ∧
    look (runAll [.dubRepeatG2 8, .bbFlushFinal] State.reset) (·.blk.payload) = some [0x0081] ∧
    refusalOf (exec (.dubRefG2 63) State.reset) = some .reservedForm := by decide +kernel

/-- 2.8: the most recent match; a match that is longer than the DELTA; the widest negative DELTA. -/
theorem test_choose :
    look (exec (.dubChoose 4) (knowing [4, 9, 4])) (·.result) = some (.dubCode ⟨.ref, 0⟩) ∧
    look (exec (.dubChoose 10) (knowing [10, 1, 2, 3, 4, 5, 6, 7, 8])) (·.result) = some (.dubCode ⟨.delta, 2⟩) ∧
    look (exec (.dubChoose 0) (knowing [65535])) (·.result) = some (.dubCode ⟨.delta, -65535⟩) ∧
    look (exec (.dubChoose 40000) State.reset) (·.result) = some (.dubCode ⟨.delta, 40000⟩) := by decide +kernel

/-! ### DUB: blocks and assets -/

/-- P4: the state after the third tile, and the payload. -/
theorem test_tiles :
    look (runAll [.dubBlockBegin, .dubTile 7, .dubTile 7, .dubTile 7] State.reset)
      (fun t => (t.blk.prevCode, t.blk.repeating, t.blk.repeatCount, t.blk.dict.length, t.blk.acc.length)) =
      some (⟨.ref, 0⟩, true, 0, 3, 11) ∧
    look (runAll [.dubBlockBegin, .dubTile 7, .dubTile 7, .dubTile 7, .dubTile 9, .dubBlockEnd] State.reset)
      (·.result) = some (.payload [0x0078, 0x0008]) := by decide +kernel

/-- 2.8: a block with two runs, with and without `DUB_RUN_START_EMIT`. -/
theorem test_block :
    look (exec (.dubBlock [1, 2, 1, 2]) State.reset) (·.result) = some (.payload [0x4420, 0x0000]) ∧
    look (exec (.dubBlock [1, 2, 1, 2]) { State.reset with cfg := { dubRunStartEmit := true } }) (·.result) =
      some (.payload [0x0820, 0x0231]) := by decide +kernel

/-- P5. -/
theorem test_dedup_and_index_selection :
    look (runAll [.dubDedup [0x4420, 0x0000], .dubDedup [0x4070], .dubDedup [0x4420, 0x0000], .dubIndexSel] State.reset)
      (fun t => (t.result, t.asset.blockData, t.asset.offsets)) =
      some (.index false 2 [1, 3, 0], [0x4420, 0x0000, 0x4070], [0, 2, 0]) := by decide +kernel

/-- P5: the whole asset and the registers. -/
theorem test_asset :
    look (exec (.dubEncode 2 2 3) { State.reset with tiles := [1, 2, 1, 2, 3, 3, 3, 3, 1, 2, 1, 2] })
      (fun t => (t.out16, t.stat)) =
      some ([0x0301, 0x0000, 0x4420, 0x0000, 0x4070],
        { status := .ok, statTiles := 12, statWords := 5, statRatio := some (175 / 3), isIndex16 := false,
          indexSize := 2 }) := by decide +kernel

/-- 1.5: a block of 64 zeros. -/
theorem test_asset_of_zeros :
    look (exec (.dubEncode 8 8 1) { State.reset with tiles := List.replicate 64 0 })
      (fun t => (t.out16, t.stat.statRatio)) = some ([0x0000, 0x5840, 0x0007], some (1525 / 16)) := by decide +kernel

/-- R190, U3. -/
theorem test_asset_empty_and_wrong_length :
    look (exec (.dubEncode 8 8 0) State.reset) (fun t => (t.out16, t.stat.statRatio)) = some ([], none) ∧
    refusalOf (exec (.dubEncode 1 1 1) State.reset) = some .tilesLengthMismatch := by decide +kernel

/-- R203, R59, D22: with an accumulator of 20 bits the second tile's DELTA (26 bits) has no room; a refused append of the
first tile to the dictionary comes before it. -/
theorem test_block_exhausted_before_the_accumulator_is_full :
    look (exec (.dubBlock [0, 40000]) { State.reset with cfg := { accBits := 20 }, exhaust := [true] })
      (fun t => (t.result, t.stat.status)) = some (.condition .resourceExhausted, .resourceExhausted) ∧
    refusalOf (exec (.dubBlock [0, 40000]) { State.reset with cfg := { accBits := 20 } }) = some .accumulatorFull := by
  decide +kernel

/-- R63, R132, R152, R203: where the growth of an accumulator may fail, the second bit of `BB.APPEND` or the sixth measured
bit of DELTA 0 (6 bits) is refused and nothing is appended; where R203's list is whole, neither asks. -/
theorem test_accumulator_exhausted :
    let s (b : Bool) (n : Nat) : State :=
      { State.reset with cfg := { exhaustAccumulators := b }, exhaust := List.replicate n false ++ [true] }
    (look (exec (.bbAppend 6 3) (s true 1)) (fun t => (t.result, t.blk.acc, t.stat.status)) =
      some (.condition .resourceExhausted, [], .resourceExhausted)) ∧
    (look (exec (.bbAppend 6 3) (s true 3)) (·.blk.acc) = some [true, true, false]) ∧
    (look (exec (.bbAppend 6 3) (s false 1)) (·.blk.acc) = some [true, true, false]) ∧
    (look (exec (.dubCodeLen .delta 0) (s true 5)) (·.result) = some (.condition .resourceExhausted)) ∧
    (look (exec (.dubCodeLen .delta 0) (s true 6)) (·.result) = some (.bits 6)) ∧
    (look (exec (.dubCodeLen .delta 0) (s false 0)) (·.result) = some (.bits 6)) := by decide +kernel

/-- R153, R158, R63: after the tile 7, tile 9 measures DELTA 2 (6 bits) and packs it (6 bits), then grows the dictionary:
thirteen answers. -/
theorem test_tile_asks_bit_by_bit :
    let s (n : Nat) : State := { knowing [7] with
      cfg := { exhaustAccumulators := true }, exhaust := List.replicate n false ++ [true] }
    (look (exec (.dubTile 9) (s 12)) (·.result) = some (.condition .resourceExhausted)) ∧
    (look (exec (.dubTile 9) (s 13)) (fun t => (t.blk.dict, t.exhaust)) = some ([7, 9], [true])) := by decide +kernel

/-- R12, R55, R56: the words of 1.5 as the bytes `00 00 40 58 07 00`, read at three widths; nothing beyond the end. -/
theorem test_outputs_at_other_widths :
    let s : State := { State.reset with out16 := [0x0000, 0x5840, 0x0007], out8 := [0x62, 0x00, 0x15] }
    (s.out16Bytes = [0x00, 0x00, 0x40, 0x58, 0x07, 0x00]) ∧
    (s.readOut16 2 1, s.readOut16 2 2, s.readOut16 3 2, s.readOut16 5 2) = (some 0x40, some 0x5840, some 0x0758, none) ∧
    (s.readOut8 0 2, s.readOut8 1 2, s.readOut8 2 2) = (some 0x0062, some 0x1500, none) := by decide +kernel

/-! ### Witnesses: states and operands that meet the hypotheses of the obligations, each clause at a boundary -/

/-- The oracle grants every append to a state with no answers left. -/
theorem quiet_of_nil {s : State} (h : s.exhaust = []) : s.Quiet := by simp [State.Quiet, h]

/-- The reset state whose oracle refuses the next append. -/
def refusing : State := { State.reset with exhaust := [true] }

/-- An oracle that refuses the next append grants no positive number of them. -/
theorem not_grants {s : State} (h : s.exhaust = [true]) (n : Nat) : ¬ s.Grants (n + 1) := by simp [State.Grants, h]

theorem not_grants_of_pos {s : State} (h : s.exhaust = [true]) {n : Nat} (hn : 0 < n) : ¬ s.Grants n :=
  fun hg => not_grants h 0 (hg.mono hn)

/-- The reset state with operations to come. -/
def issued (bus : List Issue) : State := { State.reset with bus := bus }

theorem witness_StepRunsTheDecodedOperation :
    (∃ q rest i, (issued [⟨.command [0x12, 0xC8, 0x00], {}⟩]).bus = q :: rest ∧ decode {} q.packet = .ok i) ∧
    (∃ q rest e, (issued [⟨.command [0x02], {}⟩]).bus = q :: rest ∧ decode {} q.packet = .error e) ∧
    State.reset.bus = [] := ⟨⟨_, _, _, rfl, rfl⟩, ⟨_, _, _, rfl, rfl⟩, rfl⟩

theorem witness_DecodeOfEncodeIsTheInstruction :
    Instr.encodable {} (.dubBlock (List.replicate 255 0)) = true ∧
    Instr.encodable {} (.dubDedup (List.replicate 255 0)) = true ∧
    Instr.encodable {} (.dubEncode (2 ^ 32 - 1) 0 (2 ^ 32 - 1)) = true ∧
    Instr.encodable { dimBits := 12 } (.dubEncode 4095 4095 4095) = true := by decide +kernel

theorem witness_EncodeOfDecodeIsTheTransaction :
    decode {} (.command [0x36, 0x01, 0xFF, 0xFF]) = .ok (.dubBlock [0xFFFF]) ∧
    decode {} (.dubRepeat [false, true, true, true]) = .ok (.dubRepeatG1 7) ∧
    decode {} (.adpcmNybble 15) = .ok .adpcmCode15 := ⟨rfl, rfl, rfl⟩

theorem witness_UnassignedCommandNumbersAreRefused :
    (∀ op ∈ ([0x02, 0x0F, 0x1C, 0x1F, 0x26, 0x2F, 0x3A, 0xFF] : List Byte),
      op.toNat ∉ [0x00, 0x01, 0x10, 0x11, 0x12, 0x13, 0x14, 0x15, 0x16, 0x17, 0x18, 0x19, 0x1A, 0x1B, 0x20, 0x21, 0x22,
        0x23, 0x24, 0x25, 0x30, 0x31, 0x32, 0x33, 0x34, 0x35, 0x36, 0x37, 0x38, 0x39] ∧
      (issued [⟨.command [op], {}⟩]).bus = ⟨.command [op], {}⟩ :: []) := by decide +kernel

/-- For `InputSamplesAreLittleEndian`, `EvalSumsSquaredErrors` and `ClimbTakesTheFirstBetterMove`: the whole buffer and an
odd prefix of it. -/
theorem witness_length_within_the_buffer :
    (4 : BitVec 32).toNat ≤ (hearing [100, 200]).in8.length ∧ (3 : BitVec 32).toNat ≤ (hearing [100, 200]).in8.length := by
  decide +kernel

theorem witness_CandidateDeltaClosedForms : stepSize 0 ≤ 32767 ∧ stepSize 88 ≤ 32767 ∧ stepSize 88 = 32767 := by decide

theorem witness_SeticLoadsTheCodecState : 88 < (89 : BitVec 8).toNat ∧ 88 < (255 : BitVec 8).toNat := by decide

theorem witness_PutHoldsThenAppends :
    State.reset.adpcm.half = false ∧
    (∃ s : State, s.adpcm.half = true ∧ s.Grants 1 ∧ s.exhaust = [false, true]) ∧
    (∃ s : State, s.adpcm.half = true ∧ ¬ s.Grants 1) ∧ 15 < (16 : BitVec 8).toNat :=
  ⟨rfl, ⟨{ State.reset with adpcm := ⟨⟨0, 0⟩, true, 7⟩, exhaust := [false, true] }, rfl, by simp [State.Grants], rfl⟩,
    ⟨{ refusing with adpcm := ⟨⟨0, 0⟩, true, 7⟩ }, rfl, not_grants rfl 0⟩, by decide⟩

theorem witness_PairIsTwoStepsAndTwoPuts :
    ((codecAt 98 21).adpcm.half = false ∧ (codecAt 98 21).Grants 1) ∧ ∃ s : State, s.adpcm.half = true :=
  ⟨⟨rfl, State.grants_of_quiet (quiet_of_nil rfl) 1⟩, { State.reset with adpcm := ⟨⟨0, 0⟩, true, 7⟩ }, rfl⟩

theorem witness_BodyIsItsPairs :
    ((6 : BitVec 32).toNat ≤ (hearing [1, 2, 3]).in8.length ∧ (hearing [1, 2, 3]).adpcm.half = false ∧
      (hearing [1, 2, 3]).Grants (((6 : BitVec 32).toNat / 2 + 1) / 2)) ∧
    ∃ s : State, (0 : BitVec 32).toNat ≤ s.in8.length ∧ s.adpcm.half = true :=
  ⟨⟨by decide, rfl, State.grants_of_quiet (quiet_of_nil rfl) _⟩,
    { State.reset with adpcm := ⟨⟨0, 0⟩, true, 7⟩ }, by decide, rfl⟩

/-- For `HeaderAppendsTheCodecState` and `ObjectsAppendTheirBytesAndWords`: three appends granted, the fourth refused; the
largest header index and the first reserved one. -/
theorem witness_HeaderAppendsTheCodecState :
    ({ State.reset with exhaust := [false, false, false, true] } : State).Grants 3 ∧
    ({ State.reset with exhaust := [false, false, false, true] } : State).Grants 1 ∧
    (88 : BitVec 8).toNat ≤ 88 ∧ 88 < (89 : BitVec 8).toNat := by
  refine ⟨by simp [State.Grants], by simp [State.Grants], by decide, by decide⟩

theorem witness_ScanReturnsTheEarliestLeastError :
    (2 : BitVec 32).toNat ≤ (hearing [7]).in8.length ∧ 2 ≤ (2 : BitVec 32).toNat := by decide

theorem witness_OpticIsScanThenClimb :
    (4 : BitVec 32).toNat ≤ (hearing [7, 7]).in8.length ∧ 4 ≤ (4 : BitVec 32).toNat := by decide

theorem witness_OperandsOutOfRangeAreRefused :
    88 < (89 : BitVec 8).toNat ∧ (hearing [7, 7]).in8.length < (5 : BitVec 32).toNat ∧ 2 ≤ (5 : BitVec 32).toNat ∧
    4 ≤ (5 : BitVec 32).toNat ∧ (hearing [7, 7]).adpcm.half = false ∧ (1 : BitVec 32).toNat < 2 ∧
    (3 : BitVec 32).toNat < 4 ∧ 32 < (33 : BitVec 8).toNat ∧ (-1 : BitVec 32).toInt < 0 := by
  decide

/-- Four bytes and three; an oracle that refuses. -/
theorem witness_EncodeIsOpticSeticHeaderBody :
    ((4 : BitVec 32).toNat ≤ (hearing [100, 200]).in8.length ∧ 4 ≤ (4 : BitVec 32).toNat ∧
      (hearing [100, 200]).Grants (3 + ((4 : BitVec 32).toNat / 2 + 1) / 2)) ∧
    ((3 : BitVec 32).toNat ≤ (hearing [100, 200]).in8.length ∧ (3 : BitVec 32).toNat < 4 ∧
      (hearing [100, 200]).Grants (3 + ((3 : BitVec 32).toNat / 2 + 1) / 2)) ∧
    ((0 : BitVec 32).toNat ≤ refusing.in8.length ∧ ¬ refusing.Grants (3 + ((0 : BitVec 32).toNat / 2 + 1) / 2)) :=
  ⟨⟨by decide, by decide, State.grants_of_quiet (quiet_of_nil rfl) _⟩,
    ⟨by decide, by decide, State.grants_of_quiet (quiet_of_nil rfl) _⟩, by decide, not_grants rfl 2⟩

theorem witness_ShortInputSkipsTheOptimiser :
    ((1 : BitVec 32).toNat ≤ (hearing [13330, 0]).in8.length ∧ (1 : BitVec 32).toNat < 4 ∧ (1 : BitVec 32).toNat < 2 ∧
      (hearing [13330, 0]).Grants 3) ∧
    ((3 : BitVec 32).toNat ≤ (hearing [13330, 0]).in8.length ∧ (3 : BitVec 32).toNat < 4 ∧ 2 ≤ (3 : BitVec 32).toNat ∧
      (hearing [13330, 0]).Grants 4) :=
  ⟨⟨by decide, by decide, by decide, State.grants_of_quiet (quiet_of_nil rfl) _⟩,
    by decide, by decide, by decide, State.grants_of_quiet (quiet_of_nil rfl) _⟩

/-- Two launch states that differ in the codec state, the latch, the output and the registers. -/
theorem witness_EncodeDoesNotDependOnTheLaunchState :
    ∃ s1 s2 t1 t2 : State, s1.in8 = s2.in8 ∧ s1.cfg = s2.cfg ∧ s1.Quiet ∧ s2.Quiet ∧ s1.adpcm ≠ s2.adpcm ∧
      exec (.adpcmEncode 4) s1 = .next t1 ∧ exec (.adpcmEncode 4) s2 = .next t2 :=
  ⟨hearing [100, 200], { hearing [100, 200] with adpcm := ⟨⟨5, 7⟩, true, 9⟩, out8 := [1] }, _, _, rfl, rfl,
    quiet_of_nil rfl, quiet_of_nil rfl, by decide +kernel, rfl, rfl⟩

/-- The reset state with an accumulator whose growth asks the oracle (R63), and its answers. -/
def asking (acc : List Bool) (exhaust : List Bool) : State :=
  { holding acc with cfg := { exhaustAccumulators := true }, exhaust := exhaust }

/-- For the statements on bits: one, four (`BB.APPENDVAR 7, 3`) or six bits (DELTA 0, measured or packed or as a row) that
just fit and are granted, no more answers being needed; and no room, with the one answer for the first bit granted, or
refused. -/
theorem witness_bits_that_ask :
    (varField 3 7).length = 4 ∧ (codeBits ⟨.delta, 0⟩).length = 6 ∧ [false, false].length + 4 * 1 = 6 ∧
    (∀ n ∈ [1, 4, 6], (asking (digits (64 - n) 0) []).blk.acc.length + n ≤ (asking [] []).cfg.accBits ∧
      (asking (digits (64 - n) 0) (List.replicate n false ++ [true])).Grants (bitAsks (asking [] []).cfg n) ∧
      (asking (digits 64 0) []).cfg.accBits < (asking (digits 64 0) []).blk.acc.length + n ∧
      (asking (digits 64 0) [false, true]).Grants ((asking (digits 64 0) []).roomAsks n) ∧
      ¬ (asking (digits 64 0) [true]).Grants ((asking (digits 64 0) []).roomAsks n) ∧
      ¬ (asking [] [true]).Grants (bitAsks (asking [] []).cfg n)) := by
  unfold State.Grants
  decide +kernel

/-- The appends that just fit, one too many bits, and one bit more than fits; with no answers left, all are granted. -/
theorem witness_AppendAddsBitsMostSignificantFirst :
    ((holding (digits 32 0)).exhaust = [] ∧ (holding (digits 64 0)).exhaust = []) ∧
    ((32 : BitVec 8).toNat ≤ 32 ∧ (holding (digits 32 0)).blk.acc.length + (32 : BitVec 8).toNat ≤ Config.Params.default.accBits) ∧
    32 < (33 : BitVec 8).toNat ∧
    ((1 : BitVec 8).toNat ≤ 32 ∧ Config.Params.default.accBits < (holding (digits 64 0)).blk.acc.length + (1 : BitVec 8).toNat) := by
  decide +kernel

/-- With no answers left, all bits are granted; answers in `witness_bits_that_ask`. -/
theorem witness_AppendVarAddsTheGroups :
    (State.reset.exhaust = [] ∧ (holding (digits 61 0)).exhaust = []) ∧
    (∀ c ∈ ([1, 3, 31] : List (BitVec 8)), 1 ≤ c.toNat ∧ c.toNat ≤ 32 ∧
      State.reset.blk.acc.length + (varField c.toNat (0xFFFFFFFF : BitVec 32).toNat).length ≤ State.reset.cfg.accBits) ∧
    (1 ≤ (32 : BitVec 8).toNat ∧ (32 : BitVec 8).toNat ≤ 32 ∧
      State.reset.blk.acc.length + (varField (32 : BitVec 8).toNat (5 : BitVec 32).toNat).length ≤ State.reset.cfg.accBits) ∧
    (0 : BitVec 8).toNat = 0 ∧
    (1 ≤ (3 : BitVec 8).toNat ∧ (3 : BitVec 8).toNat ≤ 32 ∧
      (holding (digits 61 0)).cfg.accBits <
        (holding (digits 61 0)).blk.acc.length + (varField (3 : BitVec 8).toNat (7 : BitVec 32).toNat).length) := by
  decide +kernel

/-- For `FlushMovesWholeWords` and `FlushFinalPadsWithZeros`: 33 bits, an oracle that grants exactly the three words of a
final flush, one that grants the two of a flush and no more, and one that refuses the second. -/
theorem witness_FlushMovesWholeWords :
    let s (xs : List Bool) : State := { holding (digits 33 0) with exhaust := xs }
    ((s [false, false, false, true]).Grants ((s []).blk.acc.length / 16) ∧
      (s [false, false, false, true]).Grants (((s []).blk.acc.length + 15) / 16)) ∧
    ((s [false, false, true]).Grants ((s []).blk.acc.length / 16) ∧
      ¬ (s [false, false, true]).Grants (((s []).blk.acc.length + 15) / 16)) ∧
    ¬ (s [false, true]).Grants ((s []).blk.acc.length / 16) := by
  simp [State.Grants, holding, digits, bitsMsbFirst]

/-- With no answers left, all bits are granted; answers in `witness_bits_that_ask`. -/
theorem witness_PackAddsTheBitsOfTheCode :
    (State.reset.exhaust = [] ∧ (holding (digits 39 0)).exhaust = []) ∧
    (State.reset.blk.acc.length + ([false, true] ++ varField 3 (-65535 : BitVec 32).toInt.natAbs).length
      ≤ State.reset.cfg.accBits) ∧
    ((holding (digits 39 0)).cfg.accBits <
      (holding (digits 39 0)).blk.acc.length + ([false, true] ++ varField 3 (-65535 : BitVec 32).toInt.natAbs).length) ∧
    0 ≤ (0 : BitVec 32).toInt ∧ 0 ≤ (0x7FFFFFFF : BitVec 32).toInt := by decide +kernel

theorem witness_CodeLengthClosedForm :
    State.reset.exhaust = [] ∧ 0 ≤ (0 : BitVec 32).toInt ∧ 0 ≤ (0x7FFFFFFF : BitVec 32).toInt := by decide

/-- The produced forms at 7, 8 and 65535 and the reserved ones at minus zero, 7 and 63. -/
theorem witness_CodeFormsAddTheirBits :
    State.reset.exhaust = [] ∧
    (∃ f ∈ codeForms false 7, f.2.2.2 = true ∧
      State.reset.blk.acc.length + f.2.2.1.length + 4 * f.2.1 ≤ State.reset.cfg.accBits) ∧
    (∃ f ∈ codeForms true 8, f.2.2.2 = true ∧ f.2.1 = 2) ∧ (∃ f ∈ codeForms true 65535, f.2.2.2 = true ∧ f.2.1 = 6) ∧
    (∃ f ∈ codeForms true 0, 0 < 8 ^ f.2.1 ∧ f.2.2.2 = false) ∧
    (∃ f ∈ codeForms false 63, 63 < 8 ^ f.2.1 ∧ f.2.2.2 = false ∧ f.2.1 = 2) := by decide +kernel

/-- An empty dictionary, no match, and a match at the oldest entry behind a later tile. -/
theorem witness_ChooseFollowsTheMatcher :
    (State.reset.exhaust = [] ∧ (knowing [1, 2]).exhaust = [] ∧ (knowing [1, 2]).blk.dict.length ≤ 64) ∧
    State.reset.blk.dict = [] ∧
    ((knowing [1, 2]).blk.dict.getLast? = some 2 ∧ (3 : Tile) ∉ (knowing [1, 2]).blk.dict) ∧
    ((knowing [1, 2]).blk.dict.getLast? = some 2 ∧ 1 < (knowing [1, 2]).blk.dict.length ∧
      (knowing [1, 2]).blk.dict[(knowing [1, 2]).blk.dict.length - 1 - 1]? = some 1 ∧
      ∀ j < 1, (knowing [1, 2]).blk.dict[(knowing [1, 2]).blk.dict.length - 1 - j]? ≠ some 1) := by decide +kernel

/-- A block after the tiles 7, 7 (P4), with or without an open run. -/
def afterTwoTiles (repeating : Bool) (acc : List Bool) (cfg : Config.Params) : State :=
  { State.reset with cfg := cfg, blk := { Block.fresh with
      acc := acc, dict := [7, 7], prevCode := ⟨.ref, 0⟩, repeating := repeating } }

theorem witness_TileExtendsOrStartsARun :
    64 ≤ (knowing (List.replicate 64 0)).blk.dict.length ∧
    (∀ r : Bool, (afterTwoTiles r (digits 11 0) {}).blk.dict.length < 64 ∧
      choose (afterTwoTiles r (digits 11 0) {}).blk.dict 7 = (afterTwoTiles r (digits 11 0) {}).blk.prevCode ∧
      (afterTwoTiles r (digits 11 0) {}).blk.repeating = r ∧
      (afterTwoTiles r (digits 11 0) {}).cfg.dubRunStartEmit = false ∧
      (afterTwoTiles r (digits 11 0) {}).exhaust = []) := by decide +kernel

/-- A new code, the code that starts a run when it is emitted, and a code that ends a run; and each with a full
accumulator, where the word that the REPEAT completes is granted, or is refused. -/
theorem witness_TileEmitsItsCode :
    (choose [7, 7] 9 ≠ ⟨.ref, 0⟩ ∧ 11 + (codeBits (choose [7, 7] 9)).length ≤ 64 ∧
      64 < 64 + (codeBits (choose [7, 7] 9)).length) ∧
    ((afterTwoTiles false [] { dubRunStartEmit := true }).cfg.dubRunStartEmit = true ∧
      choose [7, 7] 7 = (afterTwoTiles false [] {}).blk.prevCode) ∧
    ((afterTwoTiles true (digits 11 0) {}).blk.repeating = true ∧
      11 + (codeBits ⟨.rept, 0⟩).length ≤ 64 ∧
      (11 + (codeBits ⟨.rept, 0⟩).length) % 16 + (codeBits (choose [7, 7] 9)).length ≤ 64) ∧
    (afterTwoTiles true (digits 64 0) {}).cfg.accBits <
      (afterTwoTiles true (digits 64 0) {}).blk.acc.length + (codeBits ⟨.rept, 0⟩).length ∧
    (afterTwoTiles true (digits 11 0) { accBits := 20 }).cfg.accBits <
      ((afterTwoTiles true (digits 11 0) {}).blk.acc.length + (codeBits ⟨.rept, 0⟩).length) % 16
        + (codeBits (choose [7, 7] 9)).length ∧
    (choose [7, 7] 40000 ≠ ⟨.ref, 0⟩ ∧ 13 + (codeBits ⟨.rept, 0⟩).length ≤ 20 ∧
      20 < (13 + (codeBits ⟨.rept, 0⟩).length) % 16 + (codeBits (choose [7, 7] 40000)).length ∧
      State.reset.Grants ((13 + (codeBits ⟨.rept, 0⟩).length) / 16) ∧
      ¬ refusing.Grants ((13 + (codeBits ⟨.rept, 0⟩).length) / 16)) := by
  refine ⟨?_, ?_, ?_, ?_, ?_, by decide +kernel, by decide +kernel, by decide +kernel,
    State.grants_of_quiet (quiet_of_nil rfl) _, not_grants rfl 0⟩ <;> decide +kernel

theorem witness_BlockEndEmitsTheRunAndPads :
    (∀ r : Bool, (afterTwoTiles r (digits 60 0) {}).blk.acc.length
        + (if r then codeBits ⟨.rept, 0⟩ else []).length ≤ (afterTwoTiles r (digits 60 0) {}).cfg.accBits ∧
      (afterTwoTiles r (digits 60 0) {}).exhaust = []) ∧
    ((afterTwoTiles true (digits 61 0) {}).blk.repeating = true ∧
      (afterTwoTiles true (digits 61 0) {}).cfg.accBits <
        (afterTwoTiles true (digits 61 0) {}).blk.acc.length + (codeBits ⟨.rept, 0⟩).length) := by decide +kernel

/-- The code of a tile, or the REPEAT before it, without room where the first bit asks: the answer is granted, or refused
(for `TileEmitsItsCode` and `BlockEndEmitsTheRunAndPads`). -/
theorem witness_TileEmitsItsCode_bits :
    let cfg : Config.Params := { exhaustAccumulators := true }
    let n := bitAsks cfg (chooseBits [7, 7] 9)
    let s (r : Bool) (xs : List Bool) : State := { afterTwoTiles r (digits 64 0) cfg with exhaust := xs }
    (n = 6 ∧ choose [7, 7] 9 ≠ ⟨.ref, 0⟩ ∧ 64 < 64 + (codeBits (choose [7, 7] 9)).length ∧
      64 < 64 + (codeBits ⟨.rept, 0⟩).length) ∧
    (∀ r : Bool, (s r (List.replicate 7 false ++ [true])).Grants (n + (s r []).roomAsks 4) ∧
      ¬ (s r (List.replicate 6 false ++ [true])).Grants (n + (s r []).roomAsks 4) ∧
      (s r [false, true]).Grants ((s r []).roomAsks 4) ∧ ¬ (s r [true]).Grants ((s r []).roomAsks 4)) := by
  unfold State.Grants
  decide +kernel

/-- For `BlockIsBeginTilesEnd` and `BlockCompletesWithinItsBounds`: the lengths 1, 64, 0 and 65, the smallest
accumulator. -/
theorem witness_BlockIsBeginTilesEnd :
    State.reset.Quiet ∧ (1 ≤ [(7 : Tile)].length ∧ [(7 : Tile)].length ≤ 64) ∧
    (1 ≤ (List.replicate 64 (7 : Tile)).length ∧ (List.replicate 64 (7 : Tile)).length ≤ 64) ∧
    ([] : List Tile).length = 0 ∧ 64 < (List.replicate 65 (7 : Tile)).length ∧
    41 ≤ ({ State.reset with cfg := { accBits := 41 } } : State).cfg.accBits ∧
    ({ State.reset with cfg := { accBits := 41, exhaustAccumulators := true } } : State).Grants
      (64 + 104 + bitAsks { accBits := 41, exhaustAccumulators := true } (61 * 64)) :=
  ⟨quiet_of_nil rfl, by decide, by decide, rfl, by decide, by decide, State.grants_of_quiet (quiet_of_nil rfl) _⟩

/-- The asset after the payload `4420 0000` (P5). -/
def oneStored : State :=
  { State.reset with asset := { Asset.empty with
      store := [([0x4420, 0x0000], 0)], blockData := [0x4420, 0x0000], offsets := [0] } }

/-- R182, log entry 29: the longest payload a command can carry (R87) is new, and is stored at the end. -/
theorem test_dedup_of_the_longest_payload :
    look (step { oneStored with bus := [⟨.command (0x37 :: 255 :: List.replicate 510 1), ⟨none, none, none, none⟩⟩] })
      (fun t => (t.result, t.asset.blockData.length, t.asset.offsets, t.asset.store.length)) =
      some (.offset 2, 257, [0, 2], 2) := by decide +kernel

/-- A new payload of 104 words, which is the longest of a block (R162), and of 255; a stored one. -/
theorem witness_DedupStoresEachPayloadOnce :
    (oneStored.Quiet ∧ (∀ e ∈ oneStored.asset.store, e.1 ≠ List.replicate 104 0) ∧
      ∀ e ∈ oneStored.asset.store, e.1 ≠ List.replicate 255 0) ∧
    ((oneStored.asset.store.map (·.1)).Nodup ∧ ([0x4420, 0x0000], 0) ∈ oneStored.asset.store) :=
  ⟨⟨quiet_of_nil rfl, by decide, by decide⟩, by decide, by decide⟩

/-- 2.9: the 8-bit form's probe at the limit, for two offsets of which the second gives 255, and 256. -/
theorem witness_IndexSelectionFollowsTheProbe :
    look (exec .dubIndexSel { State.reset with asset := { Asset.empty with offsets := [0, 255] } }) (·.result) =
      some (.index false 1 [0, 255]) ∧
    look (exec .dubIndexSel { State.reset with asset := { Asset.empty with offsets := [0, 256] } }) (·.result) =
      some (.index true 2 [1, 256]) := by decide +kernel

/-- An asset that is too large whatever its tiles: 65536 blocks of one tile, whose index region alone has 65536
words. -/
def tooManyBlocks : State := { State.reset with tiles := List.replicate 65536 0 }

theorem tooManyBlocks_length : tooManyBlocks.tiles.length = 1 * 1 * 65536 :=
  (List.length_replicate ..).trans rfl

theorem tooManyBlocks_loop : ∃ a n, encodeBlocks tooManyBlocks.cfg (assetBlocks tooManyBlocks.tiles 1 1 65536)
    Asset.empty 0 = .ok (a, n) ∧ 65536 ≤ a.selectIndex.indexSize + a.selectIndex.blockData.length ∧
      a.offsets.length = 65536 := by
  obtain ⟨a, n, e, -, ho⟩ := encodeBlocks_completes (cfg := tooManyBlocks.cfg) (by decide)
    (fun ts => assetBlocks_sizes (tiles := tooManyBlocks.tiles) (w := 1) (h := 1) (f := 65536)) Asset.empty 0
  have hl : a.offsets.length = 65536 := by rw [ho, assetBlocks_length]; rfl
  refine ⟨a, n, e, ?_, hl⟩
  have hw : needsIndex16 a.offsets = true := by
    obtain ⟨o, ho'⟩ : ∃ o, a.offsets[0]? = some o := ⟨_, List.getElem?_eq_getElem (by omega)⟩
    refine (needsIndex16_iff _).mpr ⟨0, o, ho', ?_⟩
    rw [hl, show indexWords false 65536 = 32768 from rfl, show nextWord false 0 = 1 from rfl]
    omega
  have hs := a.selectIndex_selected.size
  rw [show a.selectIndex.isIndex16 = true from hw] at hs
  rw [show a.selectIndex.offsets.length = 65536 from hl] at hs
  exact hs ▸ Nat.le_add_right _ _

theorem tooManyBlocks_byOperations : ∃ t,
    assetByOperations (assetBlocks tooManyBlocks.tiles 1 1 65536) { tooManyBlocks with asset := Asset.empty } = some t ∧
    65536 ≤ t.asset.indexSize + t.asset.blockData.length ∧ t.asset.offsets.length = 65536 := by
  have hb : ∀ ts ∈ assetBlocks tooManyBlocks.tiles 1 1 65536, 1 ≤ ts.length ∧ ts.length ≤ 64 := fun ts => assetBlocks_sizes
  obtain ⟨t, ht⟩ := Option.isSome_iff_exists.mp (assetByOperations_isSome
    (s := { tooManyBlocks with asset := Asset.empty }) (by decide) (quiet_of_nil rfl) hb)
  obtain ⟨a, n, e, hle, ho⟩ := tooManyBlocks_loop
  obtain ⟨a', n', e', hs⟩ := assetByOperations_eq (s := { tooManyBlocks with asset := Asset.empty }) (quiet_of_nil rfl) hb 0 ht
  have hp := e.symm.trans e'
  simp only [Except.ok.injEq, Prod.mk.injEq] at hp
  exact ⟨t, ht, by rw [hs, ← hp.1]; exact hle, by rw [hs, ← hp.1]; exact ho⟩

/-- For `AssetEncodeIsItsFinerOperations`, both ends of the overflow test, and `AssetEncodeCompletesBelowTheLimit`. -/
theorem witness_AssetEncodeIsItsFinerOperations :
    (tooManyBlocks.Quiet ∧ 41 ≤ tooManyBlocks.cfg.accBits ∧ 65536 < 2 ^ tooManyBlocks.cfg.dimBits ∧
      ∃ t, assetByOperations (assetBlocks tooManyBlocks.tiles 1 1 65536) { tooManyBlocks with asset := Asset.empty } = some t ∧
        65536 ≤ t.asset.indexSize + t.asset.blockData.length) ∧
    (∃ s t : State, s.Quiet ∧ 41 ≤ s.cfg.accBits ∧ s.tiles.length = 2 * 2 * 1 ∧ 2 < 2 ^ s.cfg.dimBits ∧
      105 * ((2 + 7) / 8 * ((2 + 7) / 8) * 1) < 65536 ∧
      assetByOperations (assetBlocks s.tiles 2 2 1) { s with asset := Asset.empty } = some t ∧
      t.asset.indexSize + t.asset.blockData.length < 65536) := by
  refine ⟨⟨quiet_of_nil rfl, by decide, by decide, ?_⟩,
    { State.reset with tiles := [1, 2, 1, 2] }, _, quiet_of_nil rfl, by decide, rfl, by decide, by decide, rfl,
    by decide +kernel⟩
  obtain ⟨t, ht, hle, -⟩ := tooManyBlocks_byOperations
  exact ⟨t, ht, hle⟩

theorem witness_AssetEncodeRefusesOtherOperands :
    2 ^ State.reset.cfg.dimBits ≤ 2 ^ 32 ∧ 2 ^ 32 - 1 < 2 ^ State.reset.cfg.dimBits ∧
    State.reset.tiles.length ≠ 1 * 1 * 1 := by decide

theorem witness_EmptyAssetGivesNoOutput :
    State.reset.tiles = [] ∧ 0 < 2 ^ State.reset.cfg.dimBits ∧ 2 ^ 32 - 1 < 2 ^ State.reset.cfg.dimBits := by decide

theorem witness_IndexLeadsToEveryPayload :
    ∃ (t : State) (out : List Word) (ts : List Tile),
      exec (.dubEncode 2 2 3) { State.reset with tiles := [1, 2, 1, 2, 3, 3, 3, 3, 1, 2, 1, 2] } = .next t ∧
      t.result = .out16 out ∧ (assetBlocks [1, 2, 1, 2, 3, 3, 3, 3, 1, 2, 1, 2] 2 2 3)[2]? = some ts :=
  ⟨_, _, _, rfl, rfl, rfl⟩

/-- Two launch states that differ in the block, the asset, the output and the registers. -/
theorem witness_AssetEncodeDoesNotDependOnTheLaunchState :
    ∃ s1 s2 t1 t2 : State, s1.tiles = s2.tiles ∧ s1.cfg = s2.cfg ∧ s1.Quiet ∧ s2.Quiet ∧ s1.asset ≠ s2.asset ∧
      exec (.dubEncode 2 2 1) s1 = .next t1 ∧ exec (.dubEncode 2 2 1) s2 = .next t2 :=
  ⟨{ State.reset with tiles := [1, 2, 1, 2] }, { oneStored with tiles := [1, 2, 1, 2], out16 := [5] }, _, _, rfl, rfl,
    quiet_of_nil rfl, quiet_of_nil rfl, by decide, rfl, rfl⟩

theorem witness_RefusedAppendUndoesTheOperation :
    (∃ s : State, s.adpcm.half = true ∧ ¬ s.Grants 1) ∧ (refusing.adpcm.half = false ∧ ¬ refusing.Grants 1) ∧
    (∃ s : State, s.adpcm.half = false ∧ (2 : BitVec 32).toNat ≤ s.in8.length ∧
      ¬ s.Grants (((2 : BitVec 32).toNat / 2 + 1) / 2) ∧ ¬ s.Grants (3 + ((2 : BitVec 32).toNat / 2 + 1) / 2)) ∧
    ¬ refusing.Grants 3 ∧ (88 : BitVec 8).toNat ≤ 88 ∧
    (∃ s : State, ¬ s.Grants (s.blk.acc.length / 16) ∧ ¬ s.Grants ((s.blk.acc.length + 15) / 16)) ∧
    ((∀ e ∈ refusing.asset.store, e.1 ≠ []) ∧
      ¬ refusing.Grants (([] : List Word).length + 2)) ∧
    (∃ s : State, ([0x4420, 0x0000], 0) ∈ s.asset.store ∧ ¬ s.Grants 1) :=
  ⟨⟨{ refusing with adpcm := ⟨⟨0, 0⟩, true, 7⟩ }, rfl, not_grants rfl 0⟩, ⟨rfl, not_grants rfl 0⟩,
    ⟨{ hearing [7] with exhaust := [true] }, rfl, by decide, not_grants rfl 0, not_grants rfl 3⟩, not_grants rfl 2,
    by decide, ⟨{ holding (digits 16 0) with exhaust := [true] }, not_grants rfl 0, not_grants rfl 0⟩,
    ⟨by decide, not_grants rfl 1⟩,
    { oneStored with exhaust := [true] }, by decide, not_grants rfl 0⟩

/-- The clauses of `RefusedAppendUndoesTheOperation` on a tile, the end of a block and a block: a tile whose only append is
its dictionary entry, a payload of one word, the first tile of a block that has no room for its second, and a whole
block. -/
theorem witness_RefusedAppendUndoesTheOperation_block :
    (∃ u, exec (.dubTile 7) refusing.silent = .next u ∧
      ¬ refusing.Grants ((u.blk.dict.length - refusing.blk.dict.length) +
        (u.blk.payload.length - refusing.blk.payload.length) + bitAsks refusing.cfg (refusing.bitsPut u (.dubTile 7)))) ∧
    (∃ s u : State, exec .dubBlockEnd s.silent = .next u ∧
      ¬ s.Grants ((u.blk.dict.length - s.blk.dict.length) + (u.blk.payload.length - s.blk.payload.length) +
        bitAsks s.cfg (s.bitsPut u .dubBlockEnd))) ∧
    (∃ s u : State, s.cfg.accBits = 20 ∧ [Instr.dubTile 0] <+: [0, 40000].map Instr.dubTile ++ [.dubBlockEnd] ∧
      runAll [.dubBlockBegin, .dubTile 0] s.silent = .next u ∧
      ¬ s.Grants (u.blk.dict.length + u.blk.payload.length +
        bitAsks s.cfg (State.runBits [.dubBlockBegin, .dubTile 0] s.silent))) ∧
    (∃ u, runAll (.dubBlockBegin :: ([0, 40000].map Instr.dubTile ++ [.dubBlockEnd])) refusing.silent = .next u ∧
      ¬ refusing.Grants (u.blk.dict.length + u.blk.payload.length + bitAsks refusing.cfg
        (State.runBits (.dubBlockBegin :: ([0, 40000].map Instr.dubTile ++ [.dubBlockEnd])) refusing.silent))) :=
  ⟨⟨_, rfl, not_grants_of_pos rfl (by decide +kernel)⟩,
    ⟨{ holding (digits 5 0) with exhaust := [true] }, _, rfl, not_grants_of_pos rfl (by decide +kernel)⟩,
    ⟨{ refusing with cfg := { accBits := 20 } }, _, rfl, ⟨[.dubTile 40000, .dubBlockEnd], rfl⟩, rfl,
      not_grants_of_pos rfl (by decide +kernel)⟩,
    ⟨_, rfl, not_grants_of_pos rfl (by decide +kernel)⟩⟩

/-- The same where bits ask (R63): the appends of a tile are its seven answers (DELTA 7 and the dictionary entry), of which
the last is refused, and those of a block of that tile and its end are eight. -/
theorem witness_RefusedAppendUndoesTheOperation_bits :
    let s (n : Nat) : State := asking [] (List.replicate n false ++ [true])
    (∃ u, exec (.dubTile 7) (s 6).silent = .next u ∧
      (u.blk.dict.length - (s 6).blk.dict.length) + (u.blk.payload.length - (s 6).blk.payload.length) +
        bitAsks (s 6).cfg ((s 6).bitsPut u (.dubTile 7)) = 7) ∧
    (∃ u, runAll [.dubBlockBegin, .dubTile 7, .dubBlockEnd] (s 7).silent = .next u ∧
      u.blk.dict.length + u.blk.payload.length +
        bitAsks (s 7).cfg (State.runBits [.dubBlockBegin, .dubTile 7, .dubBlockEnd] (s 7).silent) = 8) ∧
    ¬ (s 6).Grants 7 ∧ ¬ (s 7).Grants 8 ∧ State.reset.cfg.exhaustAccumulators = false :=
  ⟨⟨_, rfl, by decide +kernel⟩, ⟨_, rfl, by decide +kernel⟩, by unfold State.Grants; decide +kernel,
    by unfold State.Grants; decide +kernel, rfl⟩

theorem tooManyBlocks_refused : ∃ s t : State, s.tiles.length = 1 * 1 * 65536 ∧
    assetByOperations (assetBlocks s.tiles 1 1 65536) { s.silent with asset := Asset.empty } = some t ∧
    65536 ≤ t.asset.indexSize + t.asset.blockData.length ∧
    ¬ s.Grants (s.assetAppends (assetBlocks s.tiles 1 1 65536) t.asset + 0) := by
  obtain ⟨t, ht, hle, ho⟩ := tooManyBlocks_byOperations
  have he : ({ State.silent { tooManyBlocks with exhaust := [true] } with asset := Asset.empty } : State) =
    { tooManyBlocks with asset := Asset.empty } := rfl
  refine ⟨{ tooManyBlocks with exhaust := [true] }, t, tooManyBlocks_length, by rw [he]; exact ht, hle, ?_⟩
  generalize hm : State.assetAppends _ _ _ = m
  have hp : 0 < m := by rw [← hm]; unfold State.assetAppends; omega
  obtain ⟨n, rfl⟩ := Nat.exists_eq_succ_of_ne_zero hp.ne'
  exact not_grants rfl n

/-- The clauses of `RefusedAppendUndoesTheOperation` on `DUB.ENCODE`: a refusal in the first block, which has no room for
its second tile; one in the second of two blocks; one of the staged words; and an asset that is too large. -/
theorem witness_RefusedAppendUndoesTheOperation_asset :
    (∃ s t u : State, s.cfg.accBits = 20 ∧ s.tiles.length = 2 * 1 * 1 ∧
      assetBlocks s.tiles 2 1 1 = [] ++ [0, 40000] :: [] ∧
      assetByOperations [] { s.silent with asset := Asset.empty } = some t ∧
      runAll [.dubBlockBegin, .dubTile 0] t = .next u ∧
      ¬ s.Grants (s.assetAppends [] t.asset + (u.blk.dict.length + u.blk.payload.length +
        bitAsks s.cfg (State.runBits [.dubBlockBegin, .dubTile 0] t)))) ∧
    (∃ s t u : State, s.tiles.length = 1 * 1 * 2 ∧ assetBlocks s.tiles 1 1 2 = [[0]] ++ [5] :: [] ∧
      assetByOperations [[0]] { s.silent with asset := Asset.empty } = some t ∧
      runAll [.dubBlockBegin, .dubTile 5] t = .next u ∧ s.Grants (s.assetAppends [[0]] t.asset) ∧
      ¬ s.Grants (s.assetAppends [[0]] t.asset + (u.blk.dict.length + u.blk.payload.length +
        bitAsks s.cfg (State.runBits [.dubBlockBegin, .dubTile 5] t)))) ∧
    (∃ s t : State, s.tiles.length = 1 * 1 * 1 ∧
      assetByOperations (assetBlocks s.tiles 1 1 1) { s.silent with asset := Asset.empty } = some t ∧
      t.asset.indexSize + t.asset.blockData.length < 65536 ∧ s.Grants (s.assetAppends (assetBlocks s.tiles 1 1 1) t.asset) ∧
      ¬ s.Grants (s.assetAppends (assetBlocks s.tiles 1 1 1) t.asset + (t.asset.indexSize + t.asset.blockData.length))) ∧
    (∃ s t : State, s.tiles.length = 1 * 1 * 65536 ∧
      assetByOperations (assetBlocks s.tiles 1 1 65536) { s.silent with asset := Asset.empty } = some t ∧
      65536 ≤ t.asset.indexSize + t.asset.blockData.length ∧
      ¬ s.Grants (s.assetAppends (assetBlocks s.tiles 1 1 65536) t.asset + 0)) := by
  refine ⟨⟨{ refusing with cfg := { accBits := 20 }, tiles := [0, 40000] }, _, _, rfl, rfl, rfl, rfl, rfl,
      not_grants_of_pos rfl (by decide +kernel)⟩,
    ⟨{ State.reset with tiles := [0, 5], exhaust := List.replicate 5 false ++ [true] }, _, _, rfl, rfl, rfl, rfl, ?_, ?_⟩,
    ⟨{ State.reset with tiles := [0], exhaust := List.replicate 6 false ++ [true] }, _, rfl, rfl, ?_, ?_, ?_⟩,
    tooManyBlocks_refused⟩
  · unfold State.Grants; decide +kernel
  · unfold State.Grants; decide +kernel
  · decide +kernel
  · unfold State.Grants; decide +kernel
  · unfold State.Grants; decide +kernel

/-- The last word, the last byte and the last bit of an output, reads that end at its end, and an 8-bit index of an odd
number of entries, whose last word has a byte past them. -/
theorem witness_OutputsReadAsTheirBytes :
    (∃ s : State, s.out16[1]? = some 0x5840 ∧ 2 + 2 ≤ s.out16Bytes.length ∧ 0 + 3 ≤ s.out8.length) ∧
    31 < 16 * ([0x0000, 0x5840] : List Word).length ∧
    ∃ a : Asset, a.isIndex16 = false ∧ 2 * 1 < a.packed.length ∧ a.packed.length = 3 :=
  ⟨⟨{ State.reset with out16 := [0x0000, 0x5840], out8 := [0x62, 0x00, 0x15] }, rfl, by decide, by decide⟩, by decide,
    { Asset.empty with packed := [1, 3, 0] }, rfl, by decide, rfl⟩

/-- Both conditions: a refused append, and an asset that is too large (also for the first clause of
`AssetEncodeIsItsFinerOperations`). -/
theorem witness_ConditionsArePrecise :
    (∃ t, exec .adpcmHeader refusing = .next t ∧ t.result = .condition .resourceExhausted) ∧
    (∃ t, exec (.dubEncode 1 1 65536) tooManyBlocks = .next t ∧ t.result = .condition .tooLarge) := by
  refine ⟨⟨_, rfl, rfl⟩, ?_⟩
  obtain ⟨a, n, e, hle, -⟩ := tooManyBlocks_loop
  have he := exec_dubEncode_of_quiet (s := tooManyBlocks) (quiet_of_nil rfl) (by decide) (by decide) (by decide)
    tooManyBlocks_length e
  rw [show overflows _ _ = true from overflows_iff.mpr hle] at he
  exact ⟨_, he, rfl⟩

/-- For `OutputsOnlyGrowAndInputsStay`, `CodecsShareNoState`, `OnlySeticAndStepsWriteTheCodec` and
`OnlyTopLevelOperationsWriteTheRegisters`: an operation of each codec that ends with a next state, one that changes the
codec state. -/
theorem witness_whole_machine_rules :
    (∃ t, exec (.adpcmPair 100 200) (codecAt 98 21) = .next t ∧ t.adpcm.codec ≠ (codecAt 98 21).adpcm.codec) ∧
    (Instr.adpcmPair 100 200).isAdpcm = true ∧ (∃ t, exec (.dubTile 7) State.reset = .next t) ∧
    (Instr.dubTile 7).isAdpcm = false ∧ Instr.adpcmPair 100 200 ≠ .sysReset ∧ Instr.dubTile 7 ≠ .sysReset :=
  ⟨⟨_, rfl, by decide +kernel⟩, rfl, ⟨_, rfl⟩, rfl, by decide, by decide⟩

theorem witness_StepKeepsTheInvariant :
    State.reset.Inv ∧ step State.reset = .next State.reset :=
  ⟨⟨Block.Inv.fresh _, Asset.Inv.empty, by decide, rfl⟩, rfl⟩

/-- The invariant also meets states that hold something: an open run and a stored payload. -/
theorem witness_StepKeepsTheInvariant_later :
    ∃ s t : State, s.Inv ∧ s.blk.dict.length = 2 ∧ s.asset.blockData.length = 2 ∧ exec (.dubTile 9) s = .next t :=
  ⟨{ afterTwoTiles false (digits 11 0) {} with asset := oneStored.asset }, _,
    ⟨⟨by decide, by decide +kernel, ⟨by decide, by decide⟩, by decide, by decide⟩,
      ⟨rfl, by decide, ⟨rfl, trivial⟩, by decide⟩, by decide, rfl⟩, rfl, rfl, rfl⟩

end Sys2Proof.Tests
end

section
/-! The write frame between the two units (R2, R20). What an instruction of each unit can do is said once in the
`exec_…` lemmas; here each of those effects is read for what it leaves of the other unit. -/
namespace Sys2Proof.Machine

/-! ### What a unit's state is -/

/-- `t` has the state of unit DUB that `s` has (R20): the block with its bit buffer, the asset and `OUT16`. -/
def KeepsDub (s t : State) : Prop := t.blk = s.blk ∧ t.asset = s.asset ∧ t.out16 = s.out16

/-- `t` has the state of unit ADPCM that `s` has (R20): the codec state with the latch, the optimiser registers and
`OUT8`. -/
def KeepsAdpcm (s t : State) : Prop := t.adpcm = s.adpcm ∧ t.opt = s.opt ∧ t.out8 = s.out8

theorem isAdpcm_iff_unitOf (i : Instr) : i.isAdpcm = true ↔ unitOf i = .adpcm := by
  cases i <;> simp [Instr.isAdpcm, unitOf]

/-! ### What each effect keeps -/

/-- A refused append undoes the operation, in either unit (R204). -/
theorem ExhaustedAt.keepsDub {s t : State} (h : ExhaustedAt s t) : KeepsDub s t := by
  obtain ⟨-, xs, rfl⟩ := h
  exact ⟨rfl, rfl, rfl⟩

theorem ExhaustedAt.keepsAdpcm {s t : State} (h : ExhaustedAt s t) : KeepsAdpcm s t := by
  obtain ⟨-, xs, rfl⟩ := h
  exact ⟨rfl, rfl, rfl⟩

theorem AdpcmEffect.keepsDub {i : Instr} {s t : State} (h : AdpcmEffect i s t) : KeepsDub s t := by
  obtain he | ⟨a, o, bytes, c, xs, r, -, -, -, -, rfl⟩ := h
  · exact he.keepsDub
  · exact ⟨rfl, rfl, rfl⟩

theorem BlockEffect.keepsAdpcm {s t : State} (h : BlockEffect s t) : KeepsAdpcm s t := by
  obtain he | ⟨b, xs, r, -, -, rfl⟩ := h
  · exact he.keepsAdpcm
  · exact ⟨rfl, rfl, rfl⟩

theorem AssetEffect.keepsAdpcm {s t : State} (h : AssetEffect s t) : KeepsAdpcm s t := by
  obtain he | ⟨a, xs, r, -, -, rfl⟩ := h
  · exact he.keepsAdpcm
  · exact ⟨rfl, rfl, rfl⟩

theorem IndexEffect.keepsAdpcm {s t : State} (h : IndexEffect s t) : KeepsAdpcm s t := by
  obtain he | ⟨ws, xs, rfl⟩ := h
  · exact he.keepsAdpcm
  · exact ⟨rfl, rfl, rfl⟩

theorem EncodeCondition.keepsAdpcm {c : Condition} {s t : State} (h : EncodeCondition c s t) : KeepsAdpcm s t := by
  obtain ⟨xs, rfl⟩ := h
  exact ⟨rfl, rfl, rfl⟩

theorem EncodeEffect.keepsAdpcm {a : Asset} {n : Nat} {s t : State} (h : EncodeEffect a n s t) : KeepsAdpcm s t := by
  obtain he | ⟨-, he⟩ | ⟨-, xs, rfl⟩ := h
  · exact he.keepsAdpcm
  · exact he.keepsAdpcm
  · exact ⟨rfl, rfl, rfl⟩

/-! ### Every instruction -/

theorem exec_keepsDub_of_adpcm {i : Instr} {s t : State} (hu : unitOf i = .adpcm) (h : exec i s = .next t) :
    KeepsDub s t := (exec_adpcm hu t h).keepsDub

/-- `SYS.STATUS` only returns the registers (R213). -/
theorem exec_sysStatus_keepsAdpcm {s t : State} (h : exec .sysStatus s = .next t) : KeepsAdpcm s t := by
  obtain rfl := done_eq_next.mp h
  exact ⟨rfl, rfl, rfl⟩

theorem exec_keepsAdpcm_of_not_adpcm {i : Instr} {s t : State} (hr : i ≠ .sysReset) (hu : unitOf i ≠ .adpcm)
    (h : exec i s = .next t) : KeepsAdpcm s t := by
  cases hk : unitOf i with
  | adpcm => exact absurd hk hu
  | sys =>
    obtain rfl | rfl := unitOf_sys hk
    · exact absurd rfl hr
    · exact exec_sysStatus_keepsAdpcm h
  | block => exact (exec_block hk t h).keepsAdpcm
  | asset => exact (exec_asset hk t h).keepsAdpcm
  | index => exact (exec_index hk t h).keepsAdpcm
  | encode =>
    obtain ⟨_, _, _, rfl⟩ := unitOf_encode hk
    obtain ⟨a, he⟩ := exec_dubEncode_effect t h
    exact he.keepsAdpcm

/-- Settles O56: an instruction writes the state of its own unit only, case by case over the units. -/
theorem codecsShareNoState : Obligations.CodecsShareNoState := by
  intro i s t hr h
  split
  case isTrue hi => exact exec_keepsDub_of_adpcm ((isAdpcm_iff_unitOf i).mp hi) h
  case isFalse hi => exact exec_keepsAdpcm_of_not_adpcm hr (fun hu => hi ((isAdpcm_iff_unitOf i).mpr hu)) h

end Sys2Proof.Machine
end

section
/-! Who writes the codec state (R21) and the registers of R29. What an instruction of each unit can do is said once in the
`exec_…` lemmas; here each effect is read for what it leaves of the two. -/
namespace Sys2Proof.Machine

/-! ### The codec state -/

theorem AdpcmEffect.codec_eq {i : Instr} {s t : State} (h : AdpcmEffect i s t) (hw : writesCodec i = false) :
    t.adpcm.codec = s.adpcm.codec := by
  obtain ⟨-, xs, rfl⟩ | ⟨a, o, bytes, c, xs, r, hcodec, -, -, -, rfl⟩ := h
  · rfl
  · exact hcodec hw

theorem exec_codec_eq {i : Instr} {s t : State} (hr : i ≠ .sysReset) (hw : writesCodec i = false)
    (h : exec i s = .next t) : t.adpcm.codec = s.adpcm.codec := by
  by_cases hu : unitOf i = .adpcm
  · exact (exec_adpcm hu t h).codec_eq hw
  · obtain ⟨hadpcm, -, -⟩ := exec_keepsAdpcm_of_not_adpcm hr hu h
    rw [hadpcm]

theorem exists_codeRow {i : Instr} (h : i ∈ codeRows.map (·.1)) : ∃ p ∈ codeRows, i = p.1 := by
  obtain ⟨p, hp, rfl⟩ := List.mem_map.mp h
  exact ⟨p, hp, rfl⟩

/-- The instructions that `writesCodec` holds of, by name. -/
theorem writesCodec_cases {i : Instr} (h : writesCodec i = true) :
    (∃ x b, i = .adpcmSetic x b) ∨ (∃ x, i = .adpcmStep x) ∨ (∃ x y, i = .adpcmPair x y) ∨ (∃ l, i = .adpcmBody l) ∨
      (∃ l, i = .adpcmEncode l) ∨ ∃ p ∈ codeRows, i = p.1 := by
  cases i
  case adpcmSetic x b => exact .inl ⟨x, b, rfl⟩
  case adpcmStep x => exact .inr (.inl ⟨x, rfl⟩)
  case adpcmPair x y => exact .inr (.inr (.inl ⟨x, y, rfl⟩))
  case adpcmBody l => exact .inr (.inr (.inr (.inl ⟨l, rfl⟩)))
  case adpcmEncode l => exact .inr (.inr (.inr (.inr (.inl ⟨l, rfl⟩))))
  case adpcmCode0 | adpcmCode1 | adpcmCode2 | adpcmCode3 | adpcmCode4 | adpcmCode5 | adpcmCode6 | adpcmCode7
      | adpcmCode8 | adpcmCode9 | adpcmCode10 | adpcmCode11 | adpcmCode12 | adpcmCode13 | adpcmCode14 | adpcmCode15 =>
    exact .inr (.inr (.inr (.inr (.inr (exists_codeRow (by decide))))))
  all_goals cases h

/-- Settles O57: an instruction outside the list leaves the codec state as it is. -/
theorem onlySeticAndStepsWriteTheCodec : Obligations.OnlySeticAndStepsWriteTheCodec := by
  intro i s t h hne
  by_cases hr : i = .sysReset
  · exact .inl hr
  · have hw : writesCodec i = true := by
      by_contra hw
      exact hne (exec_codec_eq hr (Bool.eq_false_iff.mpr hw) h)
    exact .inr (writesCodec_cases hw)

/-! ### The registers -/

/-- `t` has the registers of R29 that `s` has, but for `STATUS`. -/
def KeepsRegistersButStatus (s t : State) : Prop := t.stat = { s.stat with status := t.stat.status }

theorem keepsRegistersButStatus_of_stat_eq {s t : State} (h : t.stat = s.stat) : KeepsRegistersButStatus s t := by
  rw [KeepsRegistersButStatus, h]

theorem ExhaustedAt.keepsRegistersButStatus {s t : State} (h : ExhaustedAt s t) : KeepsRegistersButStatus s t := by
  obtain ⟨-, xs, rfl⟩ := h
  rfl

theorem AdpcmEffect.keepsRegistersButStatus {i : Instr} {s t : State} (h : AdpcmEffect i s t) :
    KeepsRegistersButStatus s t := by
  obtain he | ⟨a, o, bytes, c, xs, r, -, -, -, -, rfl⟩ := h
  · exact he.keepsRegistersButStatus
  · rfl

theorem AdpcmEffect.exhausted_or_stat_eq {i : Instr} {s t : State} (h : AdpcmEffect i s t)
    (hi : isAdpcmEncode i = false) : ExhaustedAt s t ∨ t.stat = s.stat := by
  refine h.imp_right ?_
  rintro ⟨a, o, bytes, c, xs, r, -, hstatus, -, -, rfl⟩
  rw [hstatus hi]

theorem BlockEffect.exhausted_or_stat_eq {s t : State} (h : BlockEffect s t) : ExhaustedAt s t ∨ t.stat = s.stat := by
  refine h.imp_right ?_
  rintro ⟨b, xs, r, -, -, rfl⟩
  rfl

theorem AssetEffect.exhausted_or_stat_eq {s t : State} (h : AssetEffect s t) : ExhaustedAt s t ∨ t.stat = s.stat := by
  refine h.imp_right ?_
  rintro ⟨a, xs, r, -, -, rfl⟩
  rfl

theorem IndexEffect.exhausted_or_stat_eq {s t : State} (h : IndexEffect s t) : ExhaustedAt s t ∨ t.stat = s.stat := by
  refine h.imp_right ?_
  rintro ⟨ws, xs, rfl⟩
  rfl

theorem exec_sysStatus_stat_eq {s t : State} (h : exec .sysStatus s = .next t) : t.stat = s.stat := by
  obtain rfl := done_eq_next.mp h
  rfl

/-- A finer operation, which is any but `SYS.RESET` and the two top-level ones, leaves the registers of R29 as they are
unless the oracle refuses an append (R203, R204; log entry 10). -/
theorem exec_exhausted_or_stat_eq {i : Instr} {s t : State} (hr : i ≠ .sysReset) (hd : unitOf i ≠ .encode)
    (ha : isAdpcmEncode i = false) (h : exec i s = .next t) : ExhaustedAt s t ∨ t.stat = s.stat := by
  by_cases hs : unitOf i = .sys
  · obtain rfl | rfl := unitOf_sys hs
    · exact absurd rfl hr
    · exact .inr (exec_sysStatus_stat_eq h)
  · obtain ⟨-, he⟩ | ⟨-, he⟩ | ⟨-, he⟩ | ⟨-, he⟩ := exec_finer h hs hd
    · exact he.exhausted_or_stat_eq ha
    · exact he.exhausted_or_stat_eq
    · exact he.exhausted_or_stat_eq
    · exact he.exhausted_or_stat_eq

theorem isAdpcmEncode_iff {i : Instr} : isAdpcmEncode i = true ↔ ∃ l, i = .adpcmEncode l := by
  cases i <;> simp [isAdpcmEncode]

theorem exec_keepsRegistersButStatus {i : Instr} {s t : State} (hr : i ≠ .sysReset) (hd : unitOf i ≠ .encode)
    (h : exec i s = .next t) : KeepsRegistersButStatus s t := by
  cases ha : isAdpcmEncode i with
  | true =>
    obtain ⟨l, rfl⟩ := isAdpcmEncode_iff.mp ha
    exact (exec_adpcm rfl t h).keepsRegistersButStatus
  | false =>
    obtain he | he := exec_exhausted_or_stat_eq hr hd ha h
    · exact he.keepsRegistersButStatus
    · exact keepsRegistersButStatus_of_stat_eq he

/-- Settles O58: only a refused append, or `ADPCM.ENCODE`, changes `STATUS`, and neither changes another register. -/
theorem onlyTopLevelOperationsWriteTheRegisters : Obligations.OnlyTopLevelOperationsWriteTheRegisters := by
  intro i s t h hr hne
  have hd : unitOf i ≠ .encode := by
    intro hu
    obtain ⟨w, v, f, hi⟩ := unitOf_encode hu
    exact hne w v f hi
  refine ⟨exec_keepsRegistersButStatus hr hd h, fun hl => ?_⟩
  have ha : isAdpcmEncode i = false := Bool.eq_false_iff.mpr fun ha => (isAdpcmEncode_iff.mp ha).elim hl
  obtain ⟨hq, xs, rfl⟩ | he := exec_exhausted_or_stat_eq hr hd ha h
  · exact .inr ⟨rfl, rfl, hq⟩
  · exact .inl (congrArg Status.status he)

end Sys2Proof.Machine
end

section
/-! The state after reset and the entries of the two tables (R33, R72, R73). -/
namespace Sys2Proof.Machine

/-! ### The tables -/

/-- No index of R72 is past the end of the table, where `stepSize` would read its default. -/
theorem stepSizeTable_getElem? (i : Fin 89) : stepSizeTable[i.val]? = some (stepSize i) := by
  have hi : i.val < stepSizeTable.length := i.isLt
  simp [stepSize, hi]

/-- No code is past the end of the table of R73, where `codeWord` would read its default. -/
theorem codeTable_getElem? (c : Nybble) : codeTable[c.toNat]? = some (codeWord c) := by
  have hc : c.toNat < codeTable.length := c.isLt
  simp [codeWord, hc]

/-- The column `m` of R73. -/
theorem mult_column (c : Nybble) :
    [1, 3, 5, 7, 9, 11, 13, 15, -1, -3, -5, -7, -9, -11, -13, -15][c.toNat]? = some (mult c) := by
  revert c; decide

/-- The column `adj` of R73. -/
theorem adj_column (c : Nybble) : [-1, -1, -1, -1, 2, 4, 6, 8, -1, -1, -1, -1, 2, 4, 6, 8][c.toNat]? = some (adj c) := by
  revert c; decide

/-! ### Reset -/

theorem State.reset_quiet : State.reset.Quiet := fun _ ha => absurd ha List.not_mem_nil

/-- `SYS.RESET` in the reset state changes nothing. -/
theorem exec_sysReset_reset : exec .sysReset State.reset = .next State.reset := rfl

/-- Settles O2: the registers and the tables have their values by definition; the tables are read within their bounds. -/
theorem stateAfterReset : Obligations.StateAfterReset := by
  exact ⟨rfl, rfl, ⟨[], rfl⟩, rfl, rfl, rfl, rfl, rfl, ⟨_, _, exec_sysReset_reset⟩, rfl, rfl, stepSizeTable_getElem?,
    fun c => ⟨codeTable_getElem? c, mult_column c, adj_column c⟩, rfl, rfl, rfl, rfl, rfl, State.reset_quiet,
    rfl, rfl, rfl, rfl⟩

theorem Status.Inv.initial : Status.initial.Inv := ⟨by decide, rfl⟩

/-- Settles O60: the fresh block, the empty asset and the initial registers meet their invariants. -/
theorem resetMeetsTheInvariant : Obligations.ResetMeetsTheInvariant :=
  ⟨Block.Inv.fresh _, Asset.Inv.empty, Status.Inv.initial⟩

end Sys2Proof.Machine
end

section
/-! The memory (20_memory.md): the input samples (R51), the outputs read with another width (R54, R55, R56), and the
write frame of the buffers over every instruction (R50, R58). -/
namespace Sys2Proof.Machine

/-! ### The input samples -/

theorem inputSamples_length {s : State} {len : BitVec 32} (h : len.toNat ≤ s.in8.length) :
    (inputSamples s len).length = len.toNat / 2 := by
  rw [inputSamples, samples_length, List.length_take, Nat.min_eq_left h]

/-- The bytes that samples are made of are those of `IN8`: none of them lies beyond the `len` bytes read (R57). -/
theorem inputSamples_getD {s : State} {len : BitVec 32} (h : len.toNat ≤ s.in8.length) {k : Nat}
    (hk : k < len.toNat / 2) : (inputSamples s len).getD k 0 =
      BitVec.ofNat 16 ((s.in8.getD (2 * k) 0).toNat + 256 * (s.in8.getD (2 * k + 1) 0).toNat) := by
  have byte : ∀ i < len.toNat, (s.in8.take len.toNat).getD i 0 = s.in8.getD i 0 := fun i hi => by
    rw [List.getD, List.getElem?_take_of_lt hi, List.getD]
  rw [inputSamples, samples_getD _ _ (by rwa [List.length_take, Nat.min_eq_left h]), byte _ (by omega),
    byte _ (by omega)]

/-- Settles O8: the samples are those of the first `len` bytes of `IN8`. -/
theorem inputSamplesAreLittleEndian : Obligations.InputSamplesAreLittleEndian :=
  fun _ _ h => ⟨inputSamples_length h, fun _ hk => congrArg BitVec.toInt (inputSamples_getD h hk)⟩

/-! ### The outputs read with another width -/

/-- Byte `i` of a word list is a byte of word `i div 2`: the low one where `i` is even (R55). -/
theorem leWords_getD (ws : List Word) (i : Nat) :
    (leWords ws).getD i 0 = (ws.getD (i / 2) 0).extractLsb' (8 * (i % 2)) 8 := by
  obtain ⟨hlow, hhigh⟩ := leWords_bytes ws (i / 2)
  obtain h | h := Nat.mod_two_eq_zero_or_one i
  · rw [show 2 * (i / 2) = i by omega] at hlow
    rw [List.getD, hlow, h, List.getD]
    cases ws[i / 2]? <;> rfl
  · rw [show 2 * (i / 2) + 1 = i by omega] at hhigh
    rw [List.getD, hhigh, h, List.getD]
    cases ws[i / 2]? <;> rfl

/-- Bit `j` of the stream of a word list is bit `j mod 16` of word `j div 16` (R54). -/
theorem flatMap_wordBits_getD (ws : List Word) (j : Nat) :
    (ws.flatMap wordBits).getD j false = (ws.getD (j / 16) 0).getLsbD (j % 16) := by
  induction ws generalizing j with
  | nil => simp
  | cons w ws ih =>
    rw [List.flatMap_cons]
    by_cases hj : j < 16
    · have hbit : (wordBits w).getD j false = w.getLsbD j := by simp [wordBits, hj]
      rw [List.getD_append _ _ _ _ (by rwa [wordBits_length]), hbit, Nat.div_eq_of_lt hj, Nat.mod_eq_of_lt hj,
        List.getD_cons_zero]
    · obtain ⟨i, rfl⟩ := Nat.exists_eq_add_of_le' (Nat.le_of_not_lt hj)
      rw [List.getD_append_right _ _ _ _ (by rw [wordBits_length]; omega), wordBits_length, Nat.add_sub_cancel, ih,
        Nat.add_div_right _ (by decide), Nat.add_mod_right, List.getD_cons_succ]

/-- Bit `j` of the stream is bit `j mod 8` of byte `j div 8` (R54, R55). -/
theorem flatMap_wordBits_getD_eq_byte (ws : List Word) (j : Nat) :
    (ws.flatMap wordBits).getD j false = ((leWords ws).getD (j / 8) 0).getLsbD (j % 8) := by
  have hword : j / 8 / 2 = j / 16 := by omega
  have hbit : 8 * (j / 8 % 2) + j % 8 = j % 16 := by omega
  have hlt : j % 8 < 8 := by omega
  simp only [flatMap_wordBits_getD, leWords_getD, BitVec.getLsbD_extractLsb', hword, hbit, hlt, decide_true,
    Bool.true_and]

/-- The two bytes of word `k` of an 8-bit index are its entries `2k` and `2k + 1` (R55, R186). -/
theorem Asset.indexRegion_bytes {a : Asset} (hw : a.isIndex16 = false) (k : Nat) :
    ((a.indexRegion.getD k 0).extractLsb' 0 8).toNat = a.packed.getD (2 * k) 0 % 256 ∧
    ((a.indexRegion.getD k 0).extractLsb' 8 8).toNat = a.packed.getD (2 * k + 1) 0 % 256 := by
  have hword := a.indexRegion_word k
  rw [hw, if_neg Bool.false_ne_true] at hword
  simp only [BitVec.extractLsb'_toNat, hword, Nat.shiftRight_eq_div_pow]
  omega

theorem State.out16Bytes_of_word {s : State} {a : Nat} {w : Word} (h : s.out16[a]? = some w) :
    s.out16Bytes[2 * a]? = some (w.extractLsb' 0 8) ∧ s.out16Bytes[2 * a + 1]? = some (w.extractLsb' 8 8) := by
  have hbytes := leWords_bytes s.out16 a
  rwa [h] at hbytes

/-- Settles O52: words, bits and index entries through the bytes of a word list, reads through `memRead`. -/
theorem outputsReadAsTheirBytes : Obligations.OutputsReadAsTheirBytes :=
  ⟨fun s => ⟨leWords_length s.out16, fun _ _ => State.out16Bytes_of_word, fun _ _ => memRead_eq_sum,
      fun _ _ => memRead_eq_sum⟩,
    fun ws j _ => flatMap_wordBits_getD_eq_byte ws j, fun _ hw k _ => Asset.indexRegion_bytes hw k⟩

/-! ### What an instruction leaves of the buffers -/

/-- From `s` to `t` the outputs are only appended to, and the inputs, the parameters and the operations to come stay. -/
def OnlyAppends (s t : State) : Prop :=
  s.out8 <+: t.out8 ∧ s.out16 <+: t.out16 ∧ t.in8 = s.in8 ∧ t.tiles = s.tiles ∧ t.cfg = s.cfg ∧ t.bus = s.bus

/-- It also closes the goal for an update of `s` whose six fields here are, by definition, those of `s`. -/
theorem OnlyAppends.refl (s : State) : OnlyAppends s s := ⟨List.prefix_rfl, List.prefix_rfl, rfl, rfl, rfl, rfl⟩

theorem ExhaustedAt.onlyAppends {s t : State} (h : ExhaustedAt s t) : OnlyAppends s t := by
  obtain ⟨-, xs, rfl⟩ := h
  exact .refl s

theorem AdpcmEffect.onlyAppends {i : Instr} {s t : State} (h : AdpcmEffect i s t) : OnlyAppends s t := by
  obtain he | ⟨a, o, bytes, c, xs, r, -, -, -, -, rfl⟩ := h
  · exact he.onlyAppends
  · exact ⟨List.prefix_append _ bytes, List.prefix_rfl, rfl, rfl, rfl, rfl⟩

theorem BlockEffect.onlyAppends {s t : State} (h : BlockEffect s t) : OnlyAppends s t := by
  obtain he | ⟨b, xs, r, -, -, rfl⟩ := h
  · exact he.onlyAppends
  · exact .refl s

theorem AssetEffect.onlyAppends {s t : State} (h : AssetEffect s t) : OnlyAppends s t := by
  obtain he | ⟨a, xs, r, -, -, rfl⟩ := h
  · exact he.onlyAppends
  · exact .refl s

theorem IndexEffect.onlyAppends {s t : State} (h : IndexEffect s t) : OnlyAppends s t := by
  obtain he | ⟨ws, xs, rfl⟩ := h
  · exact he.onlyAppends
  · exact ⟨List.prefix_rfl, List.prefix_append _ ws, rfl, rfl, rfl, rfl⟩

theorem EncodeCondition.onlyAppends {c : Condition} {s t : State} (h : EncodeCondition c s t) : OnlyAppends s t := by
  obtain ⟨xs, rfl⟩ := h
  exact .refl s

theorem EncodeEffect.onlyAppends {a : Asset} {n : Nat} {s t : State} (h : EncodeEffect a n s t) : OnlyAppends s t := by
  obtain he | ⟨-, he⟩ | ⟨-, xs, rfl⟩ := h
  · exact he.onlyAppends
  · exact he.onlyAppends
  · exact ⟨List.prefix_rfl, List.prefix_append _ _, rfl, rfl, rfl, rfl⟩

theorem exec_sysReset_onlyAppends {s t : State} (h : exec .sysReset s = .next t) : OnlyAppends s t := by
  obtain rfl := done_eq_next.mp h
  exact .refl s

theorem exec_sysStatus_onlyAppends {s t : State} (h : exec .sysStatus s = .next t) : OnlyAppends s t := by
  obtain rfl := done_eq_next.mp h
  exact .refl s

/-- Settles O55: the effect of an instruction, case by case over the units, writes no buffer but by appending. -/
theorem outputsOnlyGrowAndInputsStay : Obligations.OutputsOnlyGrowAndInputsStay := by
  intro i s t h
  change OnlyAppends s t
  cases hk : unitOf i with
  | sys =>
    obtain rfl | rfl := unitOf_sys hk
    · exact exec_sysReset_onlyAppends h
    · exact exec_sysStatus_onlyAppends h
  | adpcm => exact (exec_adpcm hk t h).onlyAppends
  | block => exact (exec_block hk t h).onlyAppends
  | asset => exact (exec_asset hk t h).onlyAppends
  | index => exact (exec_index hk t h).onlyAppends
  | encode =>
    obtain ⟨_, _, _, rfl⟩ := unitOf_encode hk
    obtain ⟨a, he⟩ := exec_dubEncode_effect t h
    exact he.onlyAppends

end Sys2Proof.Machine
end

section
/-! The encoded objects of R70 as operations (log entries 4 and 6): what each object row does to the state, and the field of
R78 in its form by three-bit groups. -/
namespace Sys2Proof.Machine

/-! ### The ADPCM codes (R71, R73) -/

/-- Every code row is `emitCode` of its code. -/
theorem exec_codeRow (s : State) {p : Instr × Nybble} (hp : p ∈ codeRows) : exec p.1 s = emitCode p.2 s := by
  fin_cases hp <;> rfl

/-- Settles O14: steps 4 to 6 of R104 are `Codec.advance` by the delta and the adjustment of the code. -/
theorem codeRowsAdvanceTheCodec : Obligations.CodeRowsAdvanceTheCodec :=
  fun s _ hp => ⟨_, exec_codeRow s hp, Codec.advance_sample _ _ _, Codec.advance_index _ _ _⟩

/-! ### The code-table words (R74) -/

/-- The row of a code-table word reads the fields of the word its operands are cut from. -/
theorem exec_codeTableWord_extract (w : BitVec 32) (s : State) :
    exec (.codeTableWord (w.extractLsb' 8 24) (w.extractLsb' 0 8)) s = done s (.fields (wordMult w) (wordAdj w)) := by
  have hw : w.extractLsb' 8 24 ++ w.extractLsb' 0 8 = w := extract_join (m := 24) (n := 8) w
  simp only [exec, execCodeTableWord]
  rw [hw]

/-- Settles O9: the decoder cuts the word into the two operands that the row joins again. -/
theorem codeTableWordReadsItsFields : Obligations.CodeTableWordReadsItsFields :=
  fun s w => ⟨_, _, rfl, exec_codeTableWord_extract w s⟩

/-! ### Body bytes, headers and index words (R75, R76, R186) -/

theorem indexOperand_of_le {b : BitVec 8} (h : b.toNat ≤ 88) : indexOperand b = .ok ⟨b.toNat, by omega⟩ :=
  dif_pos (Nat.lt_succ_of_le h)

/-- The three bytes of a header (R75). -/
theorem Codec.headerBytes_eq (k : Codec) : k.headerBytes =
    [BitVec.ofNat 8 k.sample.toNat, BitVec.ofNat 8 (k.sample.toNat / 256), BitVec.ofNat 8 k.index.val] := by
  have hlow : k.sample.extractLsb' 0 8 = BitVec.ofNat 8 k.sample.toNat := rfl
  have hhigh : k.sample.extractLsb' 8 8 = BitVec.ofNat 8 (k.sample.toNat / 256) := by
    apply BitVec.eq_of_toNat_eq
    simp [Nat.shiftRight_eq_div_pow]
  rw [Codec.headerBytes, hlow, hhigh]

theorem exec_adpcmBodyByte_of_grants (h l : Nybble) {s : State} (hg : s.Grants 1) :
    exec (.adpcmBodyByte h l) s = .next { s with
      out8 := s.out8 ++ [BitVec.ofNat 8 (l.toNat + 16 * h.toNat)], exhaust := s.exhaust.drop 1, result := .none } := by
  simp only [exec, execAdpcmBodyByte]
  rw [withAppends_of_grants hg, append_nybbles]
  rfl

theorem exec_adpcmHeaderBytes_of_grants (x : Sample) {b : BitVec 8} (hb : b.toNat ≤ 88) {s : State} (hg : s.Grants 3) :
    exec (.adpcmHeaderBytes x b) s = .next { s with
      out8 := s.out8 ++ [BitVec.ofNat 8 x.toNat, BitVec.ofNat 8 (x.toNat / 256), b]
      exhaust := s.exhaust.drop 3, result := .none } := by
  have hbyte : BitVec.ofNat 8 b.toNat = b := by simp
  simp only [exec, execAdpcmHeaderBytes]
  rw [indexOperand_of_le hb, orRefuse_ok, withAppends_of_grants hg, Codec.headerBytes_eq, hbyte]
  rfl

theorem exec_adpcmHeaderBytes_of_gt (x : Sample) {b : BitVec 8} (hb : 88 < b.toNat) (s : State) :
    exec (.adpcmHeaderBytes x b) s = .refused .indexOutOfRange := by
  simp only [exec, execAdpcmHeaderBytes]
  rw [indexOperand_of_gt hb, orRefuse_error]

theorem exec_dubIndex8_of_grants (h l : BitVec 8) {s : State} (hg : s.Grants 1) :
    exec (.dubIndex8 h l) s = .next { s with
      out16 := s.out16 ++ [BitVec.ofNat 16 (l.toNat + 256 * h.toNat)], exhaust := s.exhaust.drop 1, result := .none } := by
  simp only [exec, execDubIndex8]
  rw [withAppends_of_grants hg, append_bytes]
  rfl

theorem exec_dubIndex16_of_grants (p : BitVec 16) {s : State} (hg : s.Grants 1) :
    exec (.dubIndex16 p) s = .next { s with
      out16 := s.out16 ++ [p], exhaust := s.exhaust.drop 1, result := .none } := by
  simp only [exec, execDubIndex16]
  rw [withAppends_of_grants hg]
  rfl

/-- Settles O19: the rows one by one. -/
theorem objectsAppendTheirBytesAndWords : Obligations.ObjectsAppendTheirBytesAndWords :=
  fun s => ⟨fun h l => exec_adpcmBodyByte_of_grants h l, fun x _ hb => exec_adpcmHeaderBytes_of_grants x hb,
    fun x _ hb => exec_adpcmHeaderBytes_of_gt x hb s, fun h l => exec_dubIndex8_of_grants h l,
    fun p => exec_dubIndex16_of_grants p⟩

/-! ### Fields by three-bit groups (R78) -/

/-- The groups one by one are the groups in closed form, whatever their number. -/
theorem groupBits_eq_flatMap (n v : Nat) : groupBits n v = (List.range n).flatMap fun g =>
    decide (g + 1 < n) :: (List.range 3).map fun j => (v / 2 ^ (3 * g)).testBit (3 - 1 - j) := by
  induction n generalizing v with
  | zero => rfl
  | succ n ih =>
    have hflag : (n != 0) = decide (0 + 1 < n + 1) := by cases n <;> simp
    have hgroup (g : Nat) : v / 8 / 2 ^ (3 * g) = v / 2 ^ (3 * (g + 1)) := by
      rw [Nat.div_div_eq_div_mul, Nat.mul_succ, Nat.pow_add, Nat.mul_comm]
    rw [groupBits, ih, List.range_succ_eq_map (n := n), List.flatMap_cons, List.flatMap_map, hflag]
    simp [hgroup, List.range_succ_eq_map]

/-- With the number of groups of R78 they are the field of R78. -/
theorem groupBits_groupCount (v : Nat) : groupBits (groupCount v) v = varField 3 v := by
  rw [groupBits_eq_flatMap, varField_eq, fieldGroups_three]

theorem groupBits_length (n v : Nat) : (groupBits n v).length = 4 * n := by
  simp [groupBits_eq_flatMap, Nat.mul_comm]

theorem minimalGroups_iff {n v : Nat} : minimalGroups n v = true ↔ v < 8 ^ n ∧ (n = 1 ∨ 8 ^ (n - 1) ≤ v) := by
  simp [minimalGroups]

/-- A value that is minimal in a number of groups has the field of that many (R78, R83). -/
theorem groupCount_eq_of_minimalGroups {n v : Nat} (h : minimalGroups n v = true) : groupCount v = n := by
  obtain ⟨hlt, hmin⟩ := minimalGroups_iff.mp h
  have hpow (k : Nat) : (2 : Nat) ^ (3 * k) = 8 ^ k := pow_mul 2 3 k
  have hle (k : Nat) (hk : 1 ≤ k) : groupCount v ≤ k ↔ v < 8 ^ k := by rw [groupCount_le_iff hk, hpow]
  have hone := one_le_groupCount v
  obtain _ | _ | n := n
  · exact absurd hlt (Nat.not_lt.mpr (hmin.resolve_left (by decide)))
  · exact Nat.le_antisymm ((hle 1 le_rfl).mpr hlt) hone
  · have hge : 8 ^ (n + 1) ≤ v := hmin.resolve_left (by omega)
    have hupper := (hle (n + 2) (by omega)).mpr hlt
    have hlower := (hle (n + 1) (by omega)).not.mpr (Nat.not_lt.mpr hge)
    omega

/-! ### The DUB code forms (R79 to R81) -/

/-- In one group nothing is short of minimal: minus zero is the only reserved DELTA (R83). -/
theorem deltaFormProduced_one {neg : Bool} {m : Nat} (hm : m < 8) :
    deltaFormProduced 1 neg m = decide (m ≤ 7 ∧ ¬(neg = true ∧ m = 0)) := by
  have hle : m ≤ 7 ∧ m ≤ 65535 := by omega
  rw [Bool.eq_iff_iff]
  simp [deltaFormProduced, hle]

/-- From two groups on the least value is not zero, and the largest is that of the groups or 65535 (R79, R83). -/
theorem deltaFormProduced_of_two_le {n lo hi m : Nat} {neg : Bool} (hn : 2 ≤ n) (hlo : 8 ^ (n - 1) = lo)
    (hhi : min (8 ^ n - 1) 65535 = hi) (hm : m < 8 ^ n) : deltaFormProduced n neg m = decide (lo ≤ m ∧ m ≤ hi) := by
  have h0 : 0 < lo := hlo ▸ Nat.pow_pos (by decide)
  have hn1 : n ≠ 1 := by omega
  rw [Bool.eq_iff_iff]
  simp [deltaFormProduced, hn1, hlo]
  omega

theorem countFormProduced_one {m : Nat} (hm : m < 8) : countFormProduced 1 m = decide (m ≤ 7) := by
  have hle : m ≤ 7 ∧ m ≤ 62 := by omega
  simp [countFormProduced, hle]

theorem countFormProduced_two (m : Nat) : countFormProduced 2 m = decide (8 ≤ m ∧ m ≤ 62) := by
  simp [countFormProduced]

/-- The operand of a form, once the value fits its groups, is the value. -/
theorem packForm_ofNat {n m : Nat} {produced : Nat → Bool} {p : Bool} {header : List Bool} {s : State}
    (hm : m < 8 ^ n) (hp : produced m = p) :
    packForm (produced (BitVec.ofNat (3 * n) m).toNat) (header ++ groupBits n (BitVec.ofNat (3 * n) m).toNat) s =
      packForm p (header ++ groupBits n m) s := by
  have hfits : m < 2 ^ (3 * n) := by rwa [pow_mul]
  rw [BitVec.toNat_ofNat, Nat.mod_eq_of_lt hfits, hp]

/-- The DELTA forms of two groups or more. -/
theorem packForm_delta_ofNat {n lo hi m : Nat} {neg : Bool} {s : State} (hn : 2 ≤ n) (hlo : 8 ^ (n - 1) = lo)
    (hhi : min (8 ^ n - 1) 65535 = hi) (hm : m < 8 ^ n) :
    packForm (deltaFormProduced n neg (BitVec.ofNat (3 * n) m).toNat)
        ([false, neg] ++ groupBits n (BitVec.ofNat (3 * n) m).toNat) s =
      packForm (decide (lo ≤ m ∧ m ≤ hi)) ([false, neg] ++ groupBits n m) s :=
  packForm_ofNat hm (deltaFormProduced_of_two_le hn hlo hhi hm)

/-- Every form row packs its header and the groups of its value, if the encoder produces the form. -/
theorem exec_codeForm (s : State) {neg : Bool} {m : Nat} {f : Instr × Nat × List Bool × Bool} (hf : f ∈ codeForms neg m)
    (hm : m < 8 ^ f.2.1) : exec f.1 s = packForm f.2.2.2 (f.2.2.1 ++ groupBits f.2.1 m) s := by
  simp only [codeForms, List.mem_cons, List.not_mem_nil, or_false] at hf
  obtain rfl | rfl | rfl | rfl | rfl | rfl | rfl | rfl | rfl | rfl := hf
  · exact packForm_ofNat (produced := deltaFormProduced 1 neg) (header := [false, neg]) hm (deltaFormProduced_one hm)
  · exact packForm_delta_ofNat (n := 2) (by decide) rfl rfl hm
  · exact packForm_delta_ofNat (n := 3) (by decide) rfl rfl hm
  · exact packForm_delta_ofNat (n := 4) (by decide) rfl rfl hm
  · exact packForm_delta_ofNat (n := 5) (by decide) rfl rfl hm
  · exact packForm_delta_ofNat (n := 6) (by decide) rfl rfl hm
  · exact packForm_ofNat (produced := countFormProduced 1) (header := [true]) hm (countFormProduced_one hm)
  · exact packForm_ofNat (produced := countFormProduced 2) (header := [true]) hm (countFormProduced_two m)
  · exact packForm_ofNat (produced := countFormProduced 1) (header := []) hm (countFormProduced_one hm)
  · exact packForm_ofNat (produced := countFormProduced 2) (header := []) hm (countFormProduced_two m)

/-- A form that the encoder produces is minimal (R83). -/
theorem minimalGroups_of_codeForm {neg : Bool} {m : Nat} {f : Instr × Nat × List Bool × Bool} (hf : f ∈ codeForms neg m)
    (hp : f.2.2.2 = true) : minimalGroups f.2.1 m = true := by
  simp only [codeForms, List.mem_cons, List.not_mem_nil, or_false] at hf
  obtain rfl | rfl | rfl | rfl | rfl | rfl | rfl | rfl | rfl | rfl := hf <;>
    simp [minimalGroups_iff] at hp ⊢ <;> omega

/-- Settles O35: the groups of a minimal form are the field of its value, which the accumulator is extended by. -/
theorem codeFormsAddTheirBits : Obligations.CodeFormsAddTheirBits := by
  intro s neg m f hf
  refine ⟨fun hp => ?_, fun hm hp => ?_⟩
  · have hmin := minimalGroups_of_codeForm hf hp
    have hcount := groupCount_eq_of_minimalGroups hmin
    have hm : m < 8 ^ f.2.1 := (minimalGroups_iff.mp hmin).1
    have hlen : (f.2.2.1 ++ groupBits f.2.1 m).length = f.2.2.1.length + 4 * f.2.1 := by
      rw [List.length_append, groupBits_length]
    refine ⟨hcount, fun hroom hgrants => ?_⟩
    rw [exec_codeForm s hf hm, hp, packForm, require_true,
      extendAccumulator_of_grants (by rw [hlen]; omega) (by rwa [hlen]), hlen, ← List.append_assoc, ← hcount,
      groupBits_groupCount]
  · rw [exec_codeForm s hf hm, hp, packForm, require_false]

end Sys2Proof.Machine
end

section
/-! The per-sample step of unit ADPCM (R101 to R104): the candidate delta in closed form, the quantizer and the clamps. -/
namespace Sys2Proof.Machine

/-! ### The candidate delta (R102) -/

theorem mult_bounds (c : Nybble) : -15 ≤ mult c ∧ mult c ≤ 15 := by
  revert c; decide

/-- With a step of the table's range the product is far from the ends of 32 bits. -/
theorem mult_mul_bounds (c : Nybble) {step : Nat} (h : step ≤ 32767) :
    -15 * 32767 ≤ mult c * step ∧ mult c * step ≤ 15 * 32767 := by
  obtain ⟨hlo, hhi⟩ := mult_bounds c
  constructor <;> nlinarith

/-- The sign-extended low byte is the multiplier, modulo `2^32`. -/
theorem signExtend_low_mul (c : Nybble) (step : Nat) :
    ((codeWord c).extractLsb' 0 8).signExtend 32 * BitVec.ofNat 32 step = BitVec.ofInt 32 (mult c * step) := by
  rw [BitVec.ofInt_mul, BitVec.ofInt_natCast]
  rfl

theorem candDelta_signedAsr (c : Nybble) {step : Nat} (h : step ≤ 32767) :
    candDelta .signedAsr c step = Int.fdiv (mult c * step) 8 := by
  obtain ⟨hlo, hhi⟩ := mult_mul_bounds c h
  have hfit : (BitVec.ofInt 32 (mult c * step)).toInt = mult c * step := by
    rw [BitVec.toInt_ofInt, Int.bmod_def]
    omega
  rw [candDelta, signExtend_low_mul, BitVec.toInt_sshiftRight, hfit, Int.shiftRight_eq_div_pow,
    Int.fdiv_eq_ediv_of_nonneg _ (by decide)]
  rfl

theorem toInt_ushiftRight_three (p : BitVec 32) : (p >>> 3).toInt = ((p.toNat / 8 : Nat) : Int) := by
  have hp := p.isLt
  rw [BitVec.toInt_eq_toNat_of_lt] <;> rw [BitVec.toNat_ushiftRight, Nat.shiftRight_eq_div_pow]
  omega

theorem candDelta_sextLsr (c : Nybble) (step : Nat) : candDelta .sextLsr c step = ((mult c * step) % 2 ^ 32) / 8 := by
  rw [candDelta, signExtend_low_mul, toInt_ushiftRight_three, BitVec.toNat_ofInt]
  omega

theorem candDelta_zextLsr (c : Nybble) {step : Nat} (h : step ≤ 32767) :
    candDelta .zextLsr c step = ((codeWord c).toNat % 256 * step / 8 : Nat) := by
  have hlow : ((codeWord c).extractLsb' 0 8).toNat = (codeWord c).toNat % 256 := by
    rw [BitVec.extractLsb'_toNat, Nat.shiftRight_zero]
  have hlt : (codeWord c).toNat % 256 < 256 := Nat.mod_lt _ (by decide)
  have hprod : (codeWord c).toNat % 256 * step ≤ 255 * 32767 := Nat.mul_le_mul (by omega) h
  rw [candDelta, toInt_ushiftRight_three, BitVec.toNat_mul, BitVec.toNat_setWidth, BitVec.toNat_ofNat, hlow,
    Nat.mod_eq_of_lt (show _ % 256 < 2 ^ 32 by omega), Nat.mod_eq_of_lt (show step < 2 ^ 32 by omega),
    Nat.mod_eq_of_lt (show _ * step < 2 ^ 32 by omega)]

/-- Settles O10: one closed form per reading, from the exact 32-bit product. -/
theorem candidateDeltaClosedForms : Obligations.CandidateDeltaClosedForms :=
  ⟨rfl, fun c step h => ⟨candDelta_signedAsr c h, candDelta_sextLsr c step, candDelta_zextLsr c h⟩⟩

/-! ### The codec state (R101) -/

theorem exec_adpcmSetic (x : Sample) (i : Fin 89) (s : State) :
    exec (.adpcmSetic x (BitVec.ofNat 8 i)) s = .next { s with adpcm := s.adpcm.setIc x i, result := .none } := by
  simp only [exec, execAdpcmSetic]
  rw [indexOperand_ofNat, orRefuse_ok]
  rfl

/-- Settles O11: `indexOperand` takes the indices of R21 and no other. -/
theorem seticLoadsTheCodecState : Obligations.SeticLoadsTheCodecState := by
  refine fun s x => ⟨fun i => exec_adpcmSetic x i s, fun b hb => ?_⟩
  simp only [exec, execAdpcmSetic]
  rw [indexOperand_of_gt hb, orRefuse_error]

/-! ### The quantizer and the step (R103, R104) -/

theorem exec_adpcmQuant (x : Sample) (s : State) : exec (.adpcmQuant x) s = .next { s with
    result := .codeDelta (quantize s.cfg.deltaMode s.adpcm.codec x).code
      (quantize s.cfg.deltaMode s.adpcm.codec x).delta } := rfl

theorem exec_adpcmStep (x : Sample) (s : State) : exec (.adpcmStep x) s = .next { s with
    adpcm := { s.adpcm with codec := s.adpcm.codec.afterStep s.cfg.deltaMode x }
    result := .code (quantize s.cfg.deltaMode s.adpcm.codec x).code } := rfl

/-- The error of a candidate (R103) is the distance of its delta from the difference to code. -/
theorem candidate_err (s : State) (x : Sample) (c : Nybble) :
    (candidate s.cfg.deltaMode (stepSize s.adpcm.codec.index) (x.toInt - s.adpcm.codec.sample.toInt) c).err =
      quantErr s x (deltaOf s c) := by
  rw [quantErr, abs_eq_max_neg, neg_sub]
  rfl

/-- Settles O12: the quantizer keeps the last code of least error. -/
theorem quantPicksTheLastNearestCode : Obligations.QuantPicksTheLastNearestCode := by
  intro s x
  refine ⟨(quantize s.cfg.deltaMode s.adpcm.codec x).code, ?_, fun c' => ?_⟩
  · rw [exec_adpcmQuant, quantize_delta]
    rfl
  · have hleast := quantize_least s.cfg.deltaMode s.adpcm.codec x c'
    simpa only [candidate_err] using hleast

/-- Settles O13: the step advances the codec by the delta and the adjustment of the code that the quantizer returns. -/
theorem stepClampsPredictorAndIndex : Obligations.StepClampsPredictorAndIndex := by
  refine fun s x => ⟨_, _, _, exec_adpcmQuant x s, exec_adpcmStep x s, rfl, ?_, Codec.advance_index _ _ _⟩
  rw [quantize_delta]
  exact Codec.advance_sample _ _ _

end Sys2Proof.Machine
end

section
/-! The packer of unit ADPCM (R105 to R107) and the header (R113): what an operation that appends to `OUT8` ends with. -/
namespace Sys2Proof.Machine

/-! ### Appending to `OUT8` -/

/-- The state after an operation of unit ADPCM whose appends the oracle grants (R203): the unit it leaves, the bytes it
appends, for each of which the oracle has answered, and the value it returns. -/
def State.emitted (s : State) (a : Adpcm) (bytes : List Byte) (r : Result) : State :=
  { s with adpcm := a, out8 := s.out8 ++ bytes, exhaust := s.exhaust.drop bytes.length, result := r }

@[simp] theorem State.emitted_result (s : State) (a : Adpcm) (bytes : List Byte) (r : Result) :
    (s.emitted a bytes r).result = r := rfl

/-- An operation that appends nothing asks the oracle nothing. -/
theorem State.emitted_nil (s : State) (a : Adpcm) (r : Result) :
    s.emitted a [] r = { s with adpcm := a, result := r } := by
  simp [State.emitted]

/-- Two operations one after the other append the bytes of both. -/
theorem State.emitted_emitted (s : State) (a a' : Adpcm) (bytes bytes' : List Byte) (r r' : Result) :
    (s.emitted a bytes r).emitted a' bytes' r' = s.emitted a' (bytes ++ bytes') r' := by
  simp [State.emitted]

/-- The answers an operation leaves grant what the answers before it granted beyond its own appends. -/
theorem State.Grants.emitted {s : State} {n : Nat} {a : Adpcm} {bytes : List Byte} {r : Result}
    (h : s.Grants (bytes.length + n)) : (s.emitted a bytes r).Grants n := by
  intro b hb
  refine h b ?_
  rw [List.take_add]
  exact List.mem_append_right _ hb

theorem withAppends_eq_emitted {scope : Scope} {s : State} (a : Adpcm) (bytes : List Byte) (r : Result)
    (h : s.Grants bytes.length) :
    (withAppends scope bytes.length s fun t => (({ t with adpcm := a } : State).append8 bytes).returning r) =
      s.emitted a bytes r := withAppends_of_grants h

/-! ### One code (R105) -/

theorem exec_adpcmPut (c : Nybble) (s : State) : exec (.adpcmPut (c.setWidth 8)) s =
    .next (withAppends .finer (s.adpcm.putBytes c).length s fun t =>
      (({ t with adpcm := t.adpcm.put c } : State).append8 (s.adpcm.putBytes c)).returning .none) := by
  have hle : (c.setWidth 8).toNat ≤ 15 := by revert c; decide
  have hcode : (c.setWidth 8).setWidth 4 = c := by revert c; decide
  simp only [exec, execAdpcmPut]
  rw [decide_eq_true hle, require_true, hcode]

theorem exec_adpcmPut_of_grants (c : Nybble) {s : State} (h : s.Grants (s.adpcm.putBytes c).length) :
    exec (.adpcmPut (c.setWidth 8)) s = .next (s.emitted (s.adpcm.put c) (s.adpcm.putBytes c) .none) := by
  rw [exec_adpcmPut, withAppends_of_grants h]
  rfl

theorem exec_adpcmPut_of_even (c : Nybble) {s : State} (h : s.adpcm.half = false) :
    exec (.adpcmPut (c.setWidth 8)) s =
      .next { s with adpcm := { s.adpcm with half := true, lowCode := c }, result := .none } := by
  have hbytes : s.adpcm.putBytes c = [] := by simp [Adpcm.putBytes, h]
  have hput : s.adpcm.put c = { s.adpcm with half := true, lowCode := c } := by simp [Adpcm.put, halfAfterPut, h]
  rw [exec_adpcmPut_of_grants c (by simp [hbytes]), hbytes, State.emitted_nil, hput]

theorem exec_adpcmPut_of_odd (c : Nybble) {s : State} (h : s.adpcm.half = true) (hg : s.Grants 1) :
    exec (.adpcmPut (c.setWidth 8)) s = .next (s.emitted { s.adpcm with half := false }
      [BitVec.ofNat 8 (s.adpcm.lowCode.toNat + 16 * c.toNat)] .none) := by
  have hbytes : s.adpcm.putBytes c = [BitVec.ofNat 8 (s.adpcm.lowCode.toNat + 16 * c.toNat)] := by
    simp [Adpcm.putBytes, h, append_nybbles]
  have hput : s.adpcm.put c = { s.adpcm with half := false } := by simp [Adpcm.put, halfAfterPut, h]
  rw [exec_adpcmPut_of_grants c (by rwa [hbytes]), hbytes, hput]

theorem exec_adpcmPut_of_refuses (c : Nybble) {s : State} (h : s.adpcm.half = true) (hg : ¬ s.Grants 1) :
    exec (.adpcmPut (c.setWidth 8)) s = .next s.exhausted := by
  have hlen : (s.adpcm.putBytes c).length = 1 := by simp [Adpcm.putBytes_length, h]
  rw [exec_adpcmPut, hlen, withAppends_of_refuses hg]
  rfl

theorem exec_adpcmPut_of_gt {b : BitVec 8} (h : 15 < b.toNat) (s : State) :
    exec (.adpcmPut b) s = .refused .codeOutOfRange := by
  simp only [exec, execAdpcmPut]
  rw [decide_eq_false (by omega), require_false]

/-- Settles O15: a first code, a second one, a refused append and an operand that is no code. -/
theorem putHoldsThenAppends : Obligations.PutHoldsThenAppends :=
  fun s c => ⟨exec_adpcmPut_of_even c, exec_adpcmPut_of_odd c, exec_adpcmPut_of_refuses c,
    fun _ hb => exec_adpcmPut_of_gt hb s⟩

/-! ### A pair (R106) -/

theorem Adpcm.pair_bytes {mode : Config.DeltaMode} {a : Adpcm} (h : a.half = false) (x0 x1 : Sample) :
    (a.pair mode x0 x1).2 =
      [BitVec.ofNat 8 ((a.pairCodes mode x0 x1).1.toNat + 16 * (a.pairCodes mode x0 x1).2.toNat)] := by
  rw [Adpcm.pair_of_even h, append_nybbles]

theorem Adpcm.pair_length {mode : Config.DeltaMode} {a : Adpcm} (h : a.half = false) (x0 x1 : Sample) :
    (a.pair mode x0 x1).2.length = 1 := by
  rw [Adpcm.pair_bytes h]
  rfl

theorem Adpcm.pair_half {mode : Config.DeltaMode} {a : Adpcm} (h : a.half = false) (x0 x1 : Sample) :
    (a.pair mode x0 x1).1.half = false := by
  rw [Adpcm.pair_of_even h]

theorem exec_adpcmPair_of_grants (x0 x1 : Sample) {s : State} (h : s.adpcm.half = false) (hg : s.Grants 1) :
    exec (.adpcmPair x0 x1) s = .next (s.emitted (s.adpcm.pair s.cfg.deltaMode x0 x1).1
      (s.adpcm.pair s.cfg.deltaMode x0 x1).2 (.byte ((s.adpcm.pair s.cfg.deltaMode x0 x1).2.headD 0))) := by
  simp only [exec, execAdpcmPair]
  rw [h, Bool.not_false, require_true, withAppends_eq_emitted _ _ _ (by rwa [Adpcm.pair_length h])]

theorem exec_adpcmPair_of_half (x0 x1 : Sample) {s : State} (h : s.adpcm.half = true) :
    exec (.adpcmPair x0 x1) s = .refused .halfHeld := by
  simp only [exec, execAdpcmPair]
  rw [h, Bool.not_true, require_false]

/-- Settles O16: the four operations from `half = 0`, each by its own lemma, reach the pair. -/
theorem pairIsTwoStepsAndTwoPuts : Obligations.PairIsTwoStepsAndTwoPuts := by
  refine fun s x0 x1 => ⟨fun h hg => ?_, exec_adpcmPair_of_half x0 x1⟩
  refine ⟨_, _, _, _, _, _, exec_adpcmStep x0 s, rfl, exec_adpcmPut_of_even _ h, exec_adpcmStep x1 _, rfl,
    exec_adpcmPut_of_odd _ rfl hg, rfl, rfl, ?_⟩
  rw [exec_adpcmPair_of_grants x0 x1 h hg, Adpcm.pair_bytes h, Adpcm.pair_of_even h]
  rfl

/-! ### A body (R107) -/

theorem inputPresent_of_le {s : State} {len : BitVec 32} (hl : len.toNat ≤ s.in8.length) : inputPresent s len = true :=
  decide_eq_true hl

theorem Adpcm.body_inputSamples_length {s : State} {len : BitVec 32} (mode : Config.DeltaMode) {a : Adpcm}
    (hl : len.toNat ≤ s.in8.length) (h : a.half = false) :
    (a.body mode (inputSamples s len)).2.length = (len.toNat / 2 + 1) / 2 := by
  rw [(Adpcm.body_length mode a _ h).1, inputSamples_length hl]

theorem exec_adpcmBody_of_grants {len : BitVec 32} {s : State} (hl : len.toNat ≤ s.in8.length)
    (h : s.adpcm.half = false) (hg : s.Grants ((len.toNat / 2 + 1) / 2)) :
    exec (.adpcmBody len) s = .next (s.emitted (s.adpcm.body s.cfg.deltaMode (inputSamples s len)).1
      (s.adpcm.body s.cfg.deltaMode (inputSamples s len)).2 .none) := by
  simp only [exec, execAdpcmBody]
  rw [h, Bool.not_false, require_true, inputPresent_of_le hl, require_true,
    withAppends_eq_emitted _ _ _ (by rwa [Adpcm.body_inputSamples_length _ hl h])]

theorem exec_adpcmBody_of_half (len : BitVec 32) {s : State} (h : s.adpcm.half = true) :
    exec (.adpcmBody len) s = .refused .halfHeld := by
  simp only [exec, execAdpcmBody]
  rw [h, Bool.not_true, require_false]

theorem runAll_cons {i : Instr} {is : List Instr} {s t : State} (h : exec i s = .next t) :
    runAll (i :: is) s = runAll is t := by
  rw [runAll, h]

/-- The pairs issued one by one leave the unit and the bytes of the loop; only the value returned differs. -/
theorem runAll_pairsOf (xs : List Sample) {s : State} (h : s.adpcm.half = false)
    (hg : s.Grants ((xs.length + 1) / 2)) : ∃ r, runAll (pairsOf xs) s =
      .next (s.emitted (s.adpcm.body s.cfg.deltaMode xs).1 (s.adpcm.body s.cfg.deltaMode xs).2 r) := by
  induction xs using List.twoStepInduction generalizing s with
  | nil => exact ⟨s.result, by rw [Adpcm.body, State.emitted_nil]; rfl⟩
  | singleton x => exact ⟨_, runAll_cons (exec_adpcmPair_of_grants x x h (hg.mono (by simp)))⟩
  | cons_cons x y xs ih _ =>
    have hcount : ((x :: y :: xs).length + 1) / 2 = 1 + (xs.length + 1) / 2 := by
      simp only [List.length_cons]
      omega
    rw [hcount] at hg
    have hpair := exec_adpcmPair_of_grants x y h (hg.mono (by omega))
    have hrest : (s.emitted (s.adpcm.pair s.cfg.deltaMode x y).1 (s.adpcm.pair s.cfg.deltaMode x y).2
        (.byte ((s.adpcm.pair s.cfg.deltaMode x y).2.headD 0))).Grants ((xs.length + 1) / 2) :=
      State.Grants.emitted (by rwa [Adpcm.pair_length h])
    obtain ⟨r, hr⟩ := ih (Adpcm.pair_half h x y) hrest
    rw [State.emitted_emitted] at hr
    exact ⟨r, (runAll_cons hpair).trans hr⟩

/-- Settles O17: the loop of `ADPCM.BODY` is its pairs issued one by one. -/
theorem bodyIsItsPairs : Obligations.BodyIsItsPairs := by
  refine fun s len hl => ⟨fun h hg => ?_, exec_adpcmBody_of_half len⟩
  obtain ⟨r, hr⟩ := runAll_pairsOf (inputSamples s len) h (by rwa [inputSamples_length hl])
  exact ⟨_, _, hr, exec_adpcmBody_of_grants hl h hg, Adpcm.body_inputSamples_length _ hl h,
    (Adpcm.body_length _ _ _ h).2, rfl⟩

/-! ### The header (R113) -/

theorem exec_adpcmHeader_of_grants {s : State} (hg : s.Grants 3) :
    exec .adpcmHeader s = .next (s.emitted s.adpcm s.adpcm.codec.headerBytes .none) :=
  congrArg Host.Outcome.next (withAppends_eq_emitted s.adpcm s.adpcm.codec.headerBytes .none hg)

/-- Settles O18: the bytes of the header by `Codec.headerBytes_eq`. -/
theorem headerAppendsTheCodecState : Obligations.HeaderAppendsTheCodecState := by
  intro s hg
  have hsample := s.adpcm.codec.sample.isLt
  have hindex := s.adpcm.codec.index.isLt
  refine ⟨_, _, _, by rw [exec_adpcmHeader_of_grants hg, Codec.headerBytes_eq]; rfl, ?_, ?_, ?_⟩ <;>
    rw [BitVec.toNat_ofNat] <;> omega

end Sys2Proof.Machine
end

section
/-! The optimiser of unit ADPCM (R108 to R111): the pass as a sum of squared errors, the scan, the moves of the climb, and
`ADPCM.OPTIC` as the scan and the climb. -/
namespace Sys2Proof.Machine

/-! ### The pass (R108) -/

/-- The samples the optimiser looks at for the operand `L` (R108). -/
def State.icPrefix (s : State) (len : BitVec 32) : List Sample := prefixOf (inputSamples s len)

/-- The error of the pass from a codec state (R108). -/
def State.passErr (s : State) (len : BitVec 32) (k : Codec) : Nat := evalPass s.cfg k (s.icPrefix len)

theorem exec_adpcmEval {s : State} {len : BitVec 32} (hl : len.toNat ≤ s.in8.length) (x : Sample) (i : Fin 89) :
    exec (.adpcmEval x (BitVec.ofNat 8 i) len) s = .next (s.returning (.err (s.passErr len ⟨x, i⟩))) := by
  simp only [exec, execAdpcmEval]
  rw [indexOperand_ofNat, orRefuse_ok, inputPresent_of_le hl, require_true]
  rfl

theorem State.passErr_lt (s : State) (len : BitVec 32) (k : Codec) : s.passErr len k < 2 ^ 39 := evalPass_prefix_lt _ _ _

/-- The error of a pass is a 64-bit operand of `ADPCM.CLIMB`. -/
theorem State.toNat_ofNat_passErr (s : State) (len : BitVec 32) (k : Codec) :
    (BitVec.ofNat 64 (s.passErr len k)).toNat = s.passErr len k := by
  have hlt := s.passErr_lt len k
  rw [BitVec.toNat_ofNat, Nat.mod_eq_of_lt (by omega)]

theorem stepErrors_cons (mode : Config.DeltaMode) (k : Codec) (x : Sample) (xs : List Sample) :
    stepErrors mode k (x :: xs) = squareError (k.afterStep mode x) x :: stepErrors mode (k.afterStep mode x) xs := by
  rw [stepErrors, squareError, ← Int.natAbs_sq, ← Nat.cast_pow, Int.toNat_natCast]

/-- A pass is the sum of the squared errors of its steps; without `EVAL_COUNTS_PAD` the term of the repeated sample, the
one beyond the number of samples, is left out. -/
theorem evalPass_eq_sum (cfg : Config.Params) (k : Codec) (xs : List Sample) : evalPass cfg k xs =
    if cfg.evalCountsPad then (stepErrors cfg.deltaMode k (paddedInputs xs)).sum
    else ((stepErrors cfg.deltaMode k (paddedInputs xs)).take xs.length).sum := by
  induction xs using List.twoStepInduction generalizing k with
  | nil => simp [evalPass, paddedInputs, stepErrors]
  | singleton x =>
    simp only [evalPass, paddedInputs, stepErrors_cons]
    cases cfg.evalCountsPad <;> simp [stepErrors]
  | cons_cons x y xs ih _ =>
    simp only [evalPass, paddedInputs, stepErrors_cons, ih]
    cases cfg.evalCountsPad <;> simp [Nat.add_assoc]

/-- The sum of R108 is that of a pass that counts the repeated sample, so it has the bound of a pass. -/
theorem stepErrors_prefix_sum_lt (mode : Config.DeltaMode) (k : Codec) (xs : List Sample) :
    (stepErrors mode k (paddedInputs (prefixOf xs))).sum < 2 ^ 39 := by
  have hsum := evalPass_eq_sum { deltaMode := mode, evalCountsPad := true } k (prefixOf xs)
  rw [if_pos rfl] at hsum
  exact hsum ▸ evalPass_prefix_lt _ k xs

/-- Settles O20: the pass of `ADPCM.EVAL` is the sum of R108 over the samples the optimiser looks at. -/
theorem evalSumsSquaredErrors : Obligations.EvalSumsSquaredErrors := by
  refine fun s x i len hl => ⟨?_, stepErrors_prefix_sum_lt _ _ _⟩
  rw [exec_adpcmEval hl, State.passErr, evalPass_eq_sum]
  rfl

/-! ### The scan (R109) -/

/-- The scan from the first sample (R109). -/
def State.scanned (s : State) (len : BitVec 32) : Search := scan s.cfg (s.icPrefix len) ((inputSamples s len).getD 0 0)

theorem State.icPrefix_headD (s : State) (len : BitVec 32) :
    (s.icPrefix len).headD 0 = (inputSamples s len).getD 0 0 := by
  rw [State.icPrefix]
  cases inputSamples s len <;> rfl

/-- What `scan_spec` says of the scan of an input. -/
theorem State.scanned_spec (s : State) (len : BitVec 32) :
    (s.scanned len).ic.sample = (inputSamples s len).getD 0 0 ∧
    (s.scanned len).bestErr = s.passErr len (s.scanned len).ic ∧
    ∀ i : Fin 89, (s.scanned len).bestErr ≤ s.passErr len ⟨(inputSamples s len).getD 0 0, i⟩ ∧
      (i < (s.scanned len).ic.index → (s.scanned len).bestErr < s.passErr len ⟨(inputSamples s len).getD 0 0, i⟩) := by
  simp only [State.scanned, State.passErr]
  exact scan_spec s.cfg _ _

theorem State.scanned_ic (s : State) (len : BitVec 32) :
    (s.scanned len).ic = ⟨(inputSamples s len).getD 0 0, (s.scanned len).ic.index⟩ := by
  rw [← (s.scanned_spec len).1]

theorem State.scanned_bestErr (s : State) (len : BitVec 32) :
    (s.scanned len).bestErr = s.passErr len ⟨(inputSamples s len).getD 0 0, (s.scanned len).ic.index⟩ := by
  rw [← s.scanned_ic, ← (s.scanned_spec len).2.1]

theorem exec_adpcmScan {s : State} {len : BitVec 32} (hl : len.toNat ≤ s.in8.length) (h : 2 ≤ len.toNat) :
    exec (.adpcmScan len) s =
      .next (s.returning (.indexErr (s.scanned len).ic.index (s.scanned len).bestErr)) := by
  simp only [exec, execAdpcmScan]
  rw [decide_eq_true h, require_true, inputPresent_of_le hl, require_true, done, State.scanned, ← State.icPrefix,
    State.icPrefix_headD]

/-- Settles O21: `scan_spec` compares the error that the scan returns with the passes from the other indices. -/
theorem scanReturnsTheEarliestLeastError : Obligations.ScanReturnsTheEarliestLeastError := by
  intro s len hl h
  obtain ⟨-, -, hleast⟩ := s.scanned_spec len
  have hscan := exec_adpcmScan hl h
  rw [s.scanned_bestErr] at hleast hscan
  exact ⟨_, _, exec_adpcmEval hl _, hscan, fun j => (hleast j).1, fun j hj => (hleast j).2 hj⟩

/-! ### The climb (R110) -/

/-- An index that needs no reduction modulo 89. -/
theorem fin_ofNat_toNat {n : Int} {j : Fin 89} (h : n = j.val) : Fin.ofNat 89 n.toNat = j := by
  subst h
  exact Fin.ofNat_val_eq_self j

/-- An optional point as a list, its test and the point itself written in another way. -/
theorem toList_ite {α : Type} {p q : Prop} [Decidable p] [Decidable q] {x : α} {y : q → α} (hpq : p ↔ q)
    (hxy : ∀ h, x = y h) : (if p then some x else none).toList = if h : q then [y h] else [] := by
  by_cases h : q
  · simp [hpq, h, hxy h]
  · simp [hpq, h]

/-- The moves that the climb tries are the points of R110. -/
theorem climbMoves_eq (k : Codec) : climbMoves k = climbPoints k := by
  have hlo := k.sample.le_toInt
  have hhi := k.sample.toInt_lt
  have hi := k.index.isLt
  have move (d : Int) : BitVec.ofInt 16 (k.sample.toInt + d) = k.sample + BitVec.ofInt 16 d := by
    rw [BitVec.ofInt_add, BitVec.ofInt_toInt]
  have stay : BitVec.ofInt 16 (k.sample.toInt + 0) = k.sample := by rw [Int.add_zero, BitVec.ofInt_toInt]
  rw [climbMoves, climbPoints, List.filterMap_eq_flatMap_toList]
  simp only [List.flatMap_cons, List.flatMap_nil, List.append_nil, List.append_assoc]
  refine congrArg₂ (· ++ ·) ?_ (congrArg₂ (· ++ ·) ?_ (congrArg₂ (· ++ ·) ?_ ?_)) <;> symm
  · refine toList_ite (by omega) fun _ => ?_
    rw [move, fin_ofNat_toNat (Int.add_zero _)]
    rfl
  · refine toList_ite (by omega) fun _ => ?_
    rw [move, fin_ofNat_toNat (Int.add_zero _), BitVec.sub_eq_add_neg]
    rfl
  · refine toList_ite (by omega) fun h => ?_
    rw [stay, fin_ofNat_toNat (j := ⟨k.index.val + 1, by omega⟩) (Nat.cast_succ _).symm]
  · refine toList_ite (by omega) fun h => ?_
    rw [stay, fin_ofNat_toNat (j := ⟨k.index.val - 1, by omega⟩) (by dsimp only; omega)]

/-- What `ADPCM.CLIMB` returns of a search (R110). -/
def Search.point (b : Search) : Result := .icErr b.ic.sample b.ic.index b.bestErr

theorem exec_adpcmClimb {s : State} {len : BitVec 32} (hl : len.toNat ≤ s.in8.length) (x : Sample) (i : Fin 89)
    (err : BitVec 64) : exec (.adpcmClimb x (BitVec.ofNat 8 i) err len) s =
      .next (s.returning (climb s.cfg (s.icPrefix len) ⟨err.toNat, err.toNat, ⟨x, i⟩⟩).point) := by
  simp only [exec, execAdpcmClimb]
  rw [indexOperand_ofNat, orRefuse_ok, inputPresent_of_le hl, require_true]
  rfl

/-- With no better move the climb stays at its point. -/
theorem climb_of_find_none {cfg : Config.Params} {pre : List Sample} {b : Search}
    (h : (climbPoints b.ic).find? (fun k => decide (evalPass cfg k pre < b.bestErr)) = none) :
    (climb cfg pre b).ic = b.ic ∧ (climb cfg pre b).bestErr = b.bestErr := by
  have hfind := tryMoves_find cfg pre b (climbMoves b.ic)
  rw [climbMoves_eq, h] at hfind
  obtain ⟨e, htry⟩ := hfind
  rw [climb, climbRounds, climbMoves_eq, htry]
  exact ⟨rfl, rfl⟩

/-- From the first better move the climb goes on as one that starts there: the rounds it has left are enough. -/
theorem climb_of_find_some {cfg : Config.Params} {pre : List Sample} {b : Search} {k : Codec}
    (h : (climbPoints b.ic).find? (fun k => decide (evalPass cfg k pre < b.bestErr)) = some k) :
    climb cfg pre b = climb cfg pre ⟨evalPass cfg k pre, evalPass cfg k pre, k⟩ := by
  have hlt : evalPass cfg k pre < b.bestErr := by simpa using List.find?_some h
  have hfind := tryMoves_find cfg pre b (climbMoves b.ic)
  rw [climbMoves_eq, h] at hfind
  rw [climb, climbRounds, climbMoves_eq, hfind]
  exact climbRounds_fuel cfg pre _ _ ⟨_, _, k⟩ hlt (Nat.lt_succ_self _)

/-- Settles O22: one round of the climb, then a climb from where it led. -/
theorem climbTakesTheFirstBetterMove : Obligations.ClimbTakesTheFirstBetterMove := by
  intro s x i err len hl
  refine ⟨s.passErr len, _, _, _, fun k => exec_adpcmEval hl _ _, exec_adpcmClimb hl x i err, ?_⟩
  split
  next h =>
    obtain ⟨hic, hbest⟩ := climb_of_find_none (b := ⟨err.toNat, err.toNat, ⟨x, i⟩⟩) h
    rw [hic, hbest]
    exact ⟨rfl, rfl, rfl⟩
  next k h =>
    rw [exec_adpcmClimb hl, s.toNat_ofNat_passErr, climb_of_find_some (b := ⟨err.toNat, err.toNat, ⟨x, i⟩⟩) h]
    rfl

/-! ### The optimisation (R111) -/

/-- The optimisation from the first sample (R111). -/
def State.optimised (s : State) (len : BitVec 32) : Search := optimise s.cfg (s.icPrefix len)

theorem exec_adpcmOptic {s : State} {len : BitVec 32} (hl : len.toNat ≤ s.in8.length) (h : 4 ≤ len.toNat) :
    exec (.adpcmOptic len) s = .next (({ s with opt := (s.optimised len).registers } : State).returning
      (.ic (s.optimised len).ic.sample (s.optimised len).ic.index)) := by
  simp only [exec, execAdpcmOptic]
  rw [decide_eq_true h, require_true, inputPresent_of_le hl, require_true, done, State.optimised, State.icPrefix]

/-- The climb does not read the error of the last pass. -/
theorem climb_ic_congr (cfg : Config.Params) (pre : List Sample) (b : Search) (e : Nat) :
    (climb cfg pre { b with err := e }).ic = (climb cfg pre b).ic :=
  (climbRounds_congr cfg pre (b.bestErr + 1) { b with err := e } b rfl rfl).2

/-- The optimisation is the climb from the point and the error that the scan returns. -/
theorem State.optimised_ic (s : State) (len : BitVec 32) : (s.optimised len).ic =
    (climb s.cfg (s.icPrefix len) ⟨(s.scanned len).bestErr, (s.scanned len).bestErr,
      ⟨(inputSamples s len).getD 0 0, (s.scanned len).ic.index⟩⟩).ic := by
  rw [← s.scanned_ic, State.optimised, optimise, State.icPrefix_headD]
  exact (climb_ic_congr s.cfg (s.icPrefix len) (s.scanned len) _).symm

/-- Settles O23: the error of the scan passes the 64-bit operand of the climb whole. -/
theorem opticIsScanThenClimb : Obligations.OpticIsScanThenClimb := by
  intro s len hl h
  have hfits : (BitVec.ofNat 64 (s.scanned len).bestErr).toNat = (s.scanned len).bestErr := by
    rw [s.scanned_bestErr, s.toNat_ofNat_passErr]
  have hscan := exec_adpcmScan hl (show 2 ≤ len.toNat by omega)
  have hclimb := exec_adpcmClimb hl ((inputSamples s len).getD 0 0) (s.scanned len).ic.index
    (BitVec.ofNat 64 (s.scanned len).bestErr)
  have hoptic := exec_adpcmOptic hl h
  rw [← hfits] at hscan
  rw [hfits] at hclimb
  rw [s.optimised_ic] at hoptic
  exact ⟨_, _, _, _, _, _, hscan, hclimb, hoptic⟩

end Sys2Proof.Machine
end

section
/-! `ADPCM.ENCODE` (R112, R116): the optimisation, `SETIC`, `HEADER` and `BODY` with one commit. -/
namespace Sys2Proof.Machine

/-! ### What `ADPCM.ENCODE` works out -/

/-- The initial condition, and the optimiser registers that finding it leaves (R112). -/
def State.encodeIc (s : State) (len : BitVec 32) : Codec × Optimiser :=
  Machine.encodeIc s.cfg s.opt len (inputSamples s len)

/-- The unit and the bytes that a body leaves from an initial condition. -/
def State.bodyFrom (s : State) (len : BitVec 32) (ic : Codec) : Adpcm × List Byte :=
  (s.adpcm.setIc ic.sample ic.index).body s.cfg.deltaMode (inputSamples s len)

/-- The header of an initial condition and the body from there. -/
def State.bytesFrom (s : State) (len : BitVec 32) (ic : Codec) : List Byte := ic.headerBytes ++ (s.bodyFrom len ic).2

theorem State.encodeIc_of_lt {s : State} {len : BitVec 32} (h : len.toNat < 4) : s.encodeIc len = (⟨0, 0⟩, s.opt) :=
  if_pos h

theorem State.encodeIc_of_le {s : State} {len : BitVec 32} (h : 4 ≤ len.toNat) :
    s.encodeIc len = ((s.optimised len).ic, (s.optimised len).registers) :=
  if_neg (Nat.not_lt.mpr h)

theorem State.bytesFrom_length {s : State} {len : BitVec 32} (hl : len.toNat ≤ s.in8.length) (ic : Codec) :
    (s.bytesFrom len ic).length = 3 + (len.toNat / 2 + 1) / 2 := by
  rw [State.bytesFrom, List.length_append, State.bodyFrom,
    Adpcm.body_inputSamples_length _ hl (Adpcm.setIc_half _ _ _)]
  rfl

/-! ### How it ends -/

theorem exec_adpcmEncode_of_grants {s : State} {len : BitVec 32} {ic : Codec} {o : Optimiser}
    (hl : len.toNat ≤ s.in8.length) (hic : s.encodeIc len = (ic, o))
    (hg : s.Grants (3 + (len.toNat / 2 + 1) / 2)) : exec (.adpcmEncode len) s = .next
      (({ s with opt := o, stat := { s.stat with status := .ok } } : State).emitted
        (s.bodyFrom len ic).1 (s.bytesFrom len ic) (.out8 (s.bytesFrom len ic))) := by
  rw [← State.bytesFrom_length hl ic] at hg
  rw [State.encodeIc] at hic
  simp only [exec, execAdpcmEncode]
  rw [inputPresent_of_le hl, require_true, hic]
  exact congrArg Host.Outcome.next (withAppends_of_grants hg)

theorem exec_adpcmEncode_of_refuses {s : State} {len : BitVec 32} (hl : len.toNat ≤ s.in8.length)
    (hg : ¬ s.Grants (3 + (len.toNat / 2 + 1) / 2)) : exec (.adpcmEncode len) s = .next s.exhausted := by
  rw [← State.bytesFrom_length hl (s.encodeIc len).1] at hg
  simp only [exec, execAdpcmEncode]
  rw [inputPresent_of_le hl, require_true]
  exact congrArg Host.Outcome.next (withAppends_of_refuses hg)

/-- `SETIC`, `HEADER` and `BODY` issued one by one append the bytes that `ADPCM.ENCODE` stages, whatever the optimiser left
in its registers. -/
theorem runAll_setic_header_body {s : State} {len : BitVec 32} (hl : len.toNat ≤ s.in8.length)
    (hg : s.Grants (3 + (len.toNat / 2 + 1) / 2)) (ic : Codec) (o : Optimiser) (r : Result) :
    runAll [.adpcmSetic ic.sample (BitVec.ofNat 8 ic.index), .adpcmHeader, .adpcmBody len]
      { s with opt := o, result := r } =
      .next (({ s with opt := o } : State).emitted (s.bodyFrom len ic).1 (s.bytesFrom len ic) .none) := by
  have hheader : exec .adpcmHeader
      { s with opt := o, adpcm := s.adpcm.setIc ic.sample ic.index, result := .none } =
      .next (({ s with opt := o } : State).emitted (s.adpcm.setIc ic.sample ic.index) ic.headerBytes .none) :=
    exec_adpcmHeader_of_grants (hg.mono (Nat.le_add_right _ _))
  have hbody := exec_adpcmBody_of_grants
    (s := ({ s with opt := o } : State).emitted (s.adpcm.setIc ic.sample ic.index) ic.headerBytes .none) hl rfl
    (State.Grants.emitted hg)
  rw [State.emitted_emitted] at hbody
  rw [runAll_cons (exec_adpcmSetic _ _ _), runAll_cons hheader, runAll_cons hbody]
  rfl

/-- Settles O25: the sequence runs from the state that `ADPCM.OPTIC` leaves, or from `s` where the optimiser is skipped. -/
theorem encodeIsOpticSeticHeaderBody : Obligations.EncodeIsOpticSeticHeaderBody := by
  refine fun s len hl => ⟨fun hg => ?_, fun hg => ⟨s.opt, exec_adpcmEncode_of_refuses hl hg⟩⟩
  by_cases h : len.toNat < 4
  · exact ⟨s, _, 0, 0, _, fun _ => ⟨rfl, rfl, rfl⟩, fun h4 => absurd h (Nat.not_lt.mpr h4),
      runAll_setic_header_body hl hg ⟨0, 0⟩ s.opt s.result, rfl, State.bytesFrom_length hl _,
      exec_adpcmEncode_of_grants hl (State.encodeIc_of_lt h) hg⟩
  · exact ⟨_, _, _, _, _, fun h4 => absurd h4 h, fun h4 => ⟨exec_adpcmOptic hl h4, rfl⟩,
      runAll_setic_header_body hl hg (s.optimised len).ic _ _, rfl, State.bytesFrom_length hl _,
      exec_adpcmEncode_of_grants hl (State.encodeIc_of_le (Nat.le_of_not_lt h)) hg⟩

/-! ### Short inputs (R116) -/

theorem State.bytesFrom_zero (s : State) (len : BitVec 32) :
    s.bytesFrom len ⟨0, 0⟩ = 0 :: 0 :: 0 :: (s.bodyFrom len ⟨0, 0⟩).2 := rfl

/-- Settles O26: the body from `(0, 0)` has no sample, or one that is paired with itself. -/
theorem shortInputSkipsTheOptimiser : Obligations.ShortInputSkipsTheOptimiser := by
  intro s len hl h4
  have hlen := inputSamples_length hl
  refine ⟨fun h2 hg => ?_, fun h2 hg => ?_⟩
  · have hnil : inputSamples s len = [] := List.eq_nil_of_length_eq_zero (by omega)
    have hbody : s.bodyFrom len ⟨0, 0⟩ = (s.adpcm.setIc 0 0, []) := by rw [State.bodyFrom, hnil, Adpcm.body]
    have hencode := exec_adpcmEncode_of_grants hl (State.encodeIc_of_lt h4) (hg.mono (by omega))
    rw [s.bytesFrom_zero, hbody] at hencode
    exact hencode
  · obtain ⟨x, hx⟩ := List.length_eq_one_iff.mp (show (inputSamples s len).length = 1 by omega)
    have hbody : s.bodyFrom len ⟨0, 0⟩ = (s.adpcm.setIc 0 0).pair s.cfg.deltaMode x x := by
      rw [State.bodyFrom, hx, Adpcm.body]
    have hencode := exec_adpcmEncode_of_grants hl (State.encodeIc_of_lt h4) (hg.mono (by omega))
    rw [s.bytesFrom_zero, hbody, Adpcm.pair_bytes rfl] at hencode
    refine ⟨x, _, _, by rw [hx]; rfl, exec_adpcmPair_of_grants x x rfl (by simp [State.Grants]), ?_, hencode⟩
    rw [State.emitted_result, Adpcm.pair_bytes rfl]
    rfl

end Sys2Proof.Machine
end

section
/-! The bit buffer (41_bitbuffer.md): the reset and the count (R131, R136), the two appends (R132, R133), the two flushes
(R134, R135), and the block that fits a buffer of 41 bits (R137). -/
namespace Sys2Proof.Machine

/-! ### The reset and the count (R131, R136) -/

theorem exec_bbReset (s : State) :
    exec .bbReset s = .next { s with blk := { s.blk with acc := [] }, result := .none } := rfl

theorem exec_bbGetCount (s : State) : exec .bbGetCount s = .next { s with result := .count s.blk.acc.length } := rfl

/-- Settles O28: each of the two is its own result. -/
theorem bitBufferResetAndCount : Obligations.BitBufferResetAndCount :=
  fun s => ⟨exec_bbReset s, exec_bbGetCount s⟩

/-! ### The appends (R132, R133) -/

/-- What bits ask for up to the first without room depends on their number alone. -/
theorem State.roomAsks_length (s : State) (bits : List Bool) :
    s.roomAsks bits.length = s.blk.appendAsks s.cfg bits := rfl

theorem bitsOf_getD {n j : Nat} (v : Nat) (hj : j < n) : (bitsOf n v).getD j false = v.testBit (n - 1 - j) := by
  simp [bitsOf_eq_map, hj]

theorem exec_bbAppend_of_le (v : BitVec 32) {n : BitVec 8} (hn : n.toNat ≤ 32) (s : State) :
    exec (.bbAppend v n) s = extendAccumulator (bitsOf n.toNat v.toNat) s := by
  simp only [exec, execBbAppend]
  rw [decide_eq_true hn, require_true]

theorem exec_bbAppend_of_gt (v : BitVec 32) {n : BitVec 8} (hn : 32 < n.toNat) (s : State) :
    exec (.bbAppend v n) s = .refused .bitCountOutOfRange := by
  simp only [exec, execBbAppend]
  rw [decide_eq_false (Nat.not_le.mpr hn), require_false]

/-- Settles O29: a count up to 32 extends the accumulator by `bitsOf`, whose bits run from the most significant down. -/
theorem appendAddsBitsMostSignificantFirst : Obligations.AppendAddsBitsMostSignificantFirst := by
  intro s v n
  have hlen : (bitsOf n.toNat v.toNat).length = n.toNat := bitsOf_length _ _
  refine ⟨fun hn hroom hg => ⟨bitsOf n.toNat v.toNat, hlen, fun j hj => bitsOf_getD _ hj, ?_⟩,
    fun hn => exec_bbAppend_of_gt v hn s, fun hn hroom hg => ?_⟩
  · rw [exec_bbAppend_of_le v hn, extendAccumulator_of_grants (by rwa [hlen]) (by rwa [hlen]), hlen]
  · rw [exec_bbAppend_of_le v hn]
    exact extendAccumulator_of_gt (by rwa [hlen]) (by rwa [← State.roomAsks_length, hlen])

theorem exec_bbAppendVar_of_le (v : BitVec 32) {chunk : BitVec 8} (h1 : 1 ≤ chunk.toNat) (h32 : chunk.toNat ≤ 32)
    (s : State) : exec (.bbAppendVar v chunk) s = extendAccumulator (varField chunk.toNat v.toNat) s := by
  simp only [exec, execBbAppendVar]
  rw [decide_eq_true h1, require_true, decide_eq_true h32, require_true, varBits_eq_varField h1 v.isLt]

theorem exec_bbAppendVar_of_zero (v : BitVec 32) {chunk : BitVec 8} (h : chunk.toNat = 0) (s : State) :
    exec (.bbAppendVar v chunk) s = .refused .chunkZero := by
  simp only [exec, execBbAppendVar]
  rw [decide_eq_false (by omega), require_false]

theorem exec_bbAppendVar_of_gt (v : BitVec 32) {chunk : BitVec 8} (h : 32 < chunk.toNat) (s : State) :
    exec (.bbAppendVar v chunk) s = .refused .bitCountOutOfRange := by
  simp only [exec, execBbAppendVar]
  rw [decide_eq_true (by omega), require_true, decide_eq_false (Nat.not_le.mpr h), require_false]

/-- Settles O30: the loop of groups is the field of R78, which the accumulator is extended by. -/
theorem appendVarAddsTheGroups : Obligations.AppendVarAddsTheGroups := by
  refine fun s v chunk => ⟨fun h1 h32 hroom hg => ?_, fun h => exec_bbAppendVar_of_zero v h s,
    fun h1 h32 hroom hg => ?_⟩
  · rw [exec_bbAppendVar_of_le v h1 h32]
    exact extendAccumulator_of_grants hroom hg
  · rw [exec_bbAppendVar_of_le v h1 h32]
    exact extendAccumulator_of_gt hroom hg

/-! ### The flushes (R134, R135) -/

theorem exec_bbFlush_of_grants {s : State} (hg : s.Grants s.blk.flushWords.length) : exec .bbFlush s = .next { s with
    blk := s.blk.flush, exhaust := s.exhaust.drop s.blk.flushWords.length, result := .words s.blk.flushWords } :=
  congrArg Host.Outcome.next (withAppends_of_grants hg)

theorem exec_bbFlush_of_refuses {s : State} (hg : ¬ s.Grants s.blk.flushWords.length) :
    exec .bbFlush s = .next s.exhausted :=
  congrArg Host.Outcome.next (withAppends_of_refuses hg)

/-- Settles O31: a flush asks for its whole words, and cuts the accumulator into their bits and the rest. -/
theorem flushMovesWholeWords : Obligations.FlushMovesWholeWords := by
  intro s
  rw [← Block.flushWords_length]
  have hrest : s.blk.flushRest.length ≤ 15 := by rw [Block.flushRest_length]; omega
  exact ⟨fun hg => ⟨_, _, s.blk.flush_bits, hrest, exec_bbFlush_of_grants hg⟩, exec_bbFlush_of_refuses⟩

theorem exec_bbFlushFinal_of_grants {s : State} (hg : s.Grants s.blk.flushFinalWords.length) :
    exec .bbFlushFinal s = .next { s with
      blk := s.blk.flushFinal
      exhaust := s.exhaust.drop s.blk.flushFinalWords.length
      result := .words s.blk.flushFinalWords } :=
  congrArg Host.Outcome.next (withAppends_of_grants hg)

theorem exec_bbFlushFinal_of_refuses {s : State} (hg : ¬ s.Grants s.blk.flushFinalWords.length) :
    exec .bbFlushFinal s = .next s.exhausted :=
  congrArg Host.Outcome.next (withAppends_of_refuses hg)

/-- Settles O32: a final flush asks for the words of all bits, the last one filled with zeros. -/
theorem flushFinalPadsWithZeros : Obligations.FlushFinalPadsWithZeros := by
  intro s
  rw [← Block.flushFinalWords_length]
  have hpad : (16 - s.blk.acc.length % 16) % 16 ≤ 15 := by omega
  exact ⟨fun hg => ⟨_, _, s.blk.flushFinal_bits, hpad, exec_bbFlushFinal_of_grants hg⟩, exec_bbFlushFinal_of_refuses⟩

/-! ### The block that fits (R137, R161, R162) -/

/-- A block whose run has a result, when the oracle grants its tiles, its words and its bits. -/
theorem exec_dubBlock_of_grants {s : State} {ts : List Tile} {b : Block} (h1 : 1 ≤ ts.length) (h64 : ts.length ≤ 64)
    (hrun : runBlock s.cfg ts = .ok b) (hg : s.Grants (ts.length + b.payload.length + runBlockAsks s.cfg ts)) :
    exec (.dubBlock ts) s = .next { s with
      blk := b
      exhaust := s.exhaust.drop (ts.length + b.payload.length + runBlockAsks s.cfg ts)
      result := .payload b.payload } := by
  have hsince : b.appendsSince Block.fresh = ts.length + b.payload.length := by
    rw [Block.appendsSince_fresh, runBlock_dict hrun]
  rw [← hsince] at hg ⊢
  simp only [exec, execDubBlock]
  rw [decide_eq_true h1, decide_eq_true h64, Bool.and_self, require_true, hrun]
  exact endBlock_of_grants hg

/-- Settles O42: `runBlock_fits` bounds the words and the bits that the run asks for. -/
theorem blockCompletesWithinItsBounds : Obligations.BlockCompletesWithinItsBounds := by
  intro s ts h1 h64 hacc hg
  obtain ⟨b, hrun, hone, hwords, hempty, hdict, hrep, n, hn, hasks⟩ := runBlock_fits hacc h1 h64
  have hbits := bitAsks_mono s.cfg hn
  refine ⟨b, n, hone, hwords, hempty, hdict, hrep, hn, ?_⟩
  rw [← hasks]
  exact exec_dubBlock_of_grants h1 h64 hrun (hg.mono (by omega))

end Sys2Proof.Machine
end

section
/-! Operands that the rules leave out of an operation's domain: each operation's refusals (U4, U5; log entries 3, 14 and
16). -/
namespace Sys2Proof.Machine

/-! ### The index (U4) -/

theorem exec_adpcmEval_of_index_gt {b : BitVec 8} (hb : 88 < b.toNat) (x : Sample) (len : BitVec 32) (s : State) :
    exec (.adpcmEval x b len) s = .refused .indexOutOfRange := by
  simp only [exec, execAdpcmEval]
  rw [indexOperand_of_gt hb, orRefuse_error]

theorem exec_adpcmClimb_of_index_gt {b : BitVec 8} (hb : 88 < b.toNat) (x : Sample) (err : BitVec 64) (len : BitVec 32)
    (s : State) : exec (.adpcmClimb x b err len) s = .refused .indexOutOfRange := by
  simp only [exec, execAdpcmClimb]
  rw [indexOperand_of_gt hb, orRefuse_error]

/-! ### The length (log entries 3 and 14) -/

theorem inputPresent_of_gt {s : State} {len : BitVec 32} (hl : s.in8.length < len.toNat) :
    inputPresent s len = false := decide_eq_false (Nat.not_le.mpr hl)

section
variable {s : State} {len : BitVec 32} (hl : s.in8.length < len.toNat)
include hl

theorem exec_adpcmEval_of_short (x : Sample) (i : Fin 89) :
    exec (.adpcmEval x (BitVec.ofNat 8 i) len) s = .refused .inputTooShort := by
  simp only [exec, execAdpcmEval]
  rw [indexOperand_ofNat, orRefuse_ok, inputPresent_of_gt hl, require_false]

theorem exec_adpcmClimb_of_short (x : Sample) (i : Fin 89) (err : BitVec 64) :
    exec (.adpcmClimb x (BitVec.ofNat 8 i) err len) s = .refused .inputTooShort := by
  simp only [exec, execAdpcmClimb]
  rw [indexOperand_ofNat, orRefuse_ok, inputPresent_of_gt hl, require_false]

theorem exec_adpcmBody_of_short (hhalf : s.adpcm.half = false) :
    exec (.adpcmBody len) s = .refused .inputTooShort := by
  simp only [exec, execAdpcmBody]
  rw [hhalf, Bool.not_false, require_true, inputPresent_of_gt hl, require_false]

theorem exec_adpcmScan_of_short (h2 : 2 ≤ len.toNat) : exec (.adpcmScan len) s = .refused .inputTooShort := by
  simp only [exec, execAdpcmScan]
  rw [decide_eq_true h2, require_true, inputPresent_of_gt hl, require_false]

theorem exec_adpcmOptic_of_short (h4 : 4 ≤ len.toNat) : exec (.adpcmOptic len) s = .refused .inputTooShort := by
  simp only [exec, execAdpcmOptic]
  rw [decide_eq_true h4, require_true, inputPresent_of_gt hl, require_false]

theorem exec_adpcmEncode_of_short : exec (.adpcmEncode len) s = .refused .inputTooShort := by
  simp only [exec, execAdpcmEncode]
  rw [inputPresent_of_gt hl, require_false]

end

theorem exec_adpcmScan_of_lt {len : BitVec 32} (h : len.toNat < 2) (s : State) :
    exec (.adpcmScan len) s = .refused .lengthBelowMinimum := by
  simp only [exec, execAdpcmScan]
  rw [decide_eq_false (Nat.not_le.mpr h), require_false]

theorem exec_adpcmOptic_of_lt {len : BitVec 32} (h : len.toNat < 4) (s : State) :
    exec (.adpcmOptic len) s = .refused .lengthBelowMinimum := by
  simp only [exec, execAdpcmOptic]
  rw [decide_eq_false (Nat.not_le.mpr h), require_false]

/-! ### The value of a code (U5, R133) -/

theorem codeRefusal_of_neg {v : BitVec 32} (hv : v.toInt < 0) {ty : CodeType} (hty : ty = .ref ∨ ty = .rept) :
    codeRefusal (codeOperand ty v) = some .negativeValue := by
  obtain rfl | rfl := hty <;> exact if_pos hv

theorem exec_dubPack_of_codeRefusal {ty : CodeType} {v : BitVec 32} {r : Refusal}
    (h : codeRefusal (codeOperand ty v) = some r) (s : State) : exec (.dubPack ty v) s = .refused r := by
  simp only [exec, execDubPack, packCode, h]

theorem exec_dubCodeLen_of_codeRefusal {ty : CodeType} {v : BitVec 32} {r : Refusal}
    (h : codeRefusal (codeOperand ty v) = some r) (s : State) : exec (.dubCodeLen ty v) s = .refused r := by
  simp only [exec, execDubCodeLen, h]

/-- Settles O24: the refusals above, operand by operand. -/
theorem operandsOutOfRangeAreRefused : Obligations.OperandsOutOfRangeAreRefused := by
  intro s len x
  refine ⟨fun b e hb => ⟨exec_adpcmEval_of_index_gt hb x len s, exec_adpcmClimb_of_index_gt hb x e len s⟩,
    fun hl => ⟨fun i e => ⟨exec_adpcmEval_of_short hl x i, exec_adpcmClimb_of_short hl x i e⟩,
      exec_adpcmBody_of_short hl, exec_adpcmScan_of_short hl, exec_adpcmOptic_of_short hl,
      exec_adpcmEncode_of_short hl⟩,
    fun h => exec_adpcmScan_of_lt h s, fun h => exec_adpcmOptic_of_lt h s,
    fun v chunk h => exec_bbAppendVar_of_gt v h s, fun v hv ty hty => ?_⟩
  have hrefusal := codeRefusal_of_neg hv hty
  exact ⟨exec_dubPack_of_codeRefusal hrefusal s, exec_dubCodeLen_of_codeRefusal hrefusal s⟩

end Sys2Proof.Machine
end

section
/-! The DUB codes (42_dub_block.md sections 1 and 2): what `DUB.PACK` adds (R151), what `DUB.CODELEN` measures (R152), and
the code that `DUB.CHOOSE` takes (R153). -/
namespace Sys2Proof.Machine

/-! ### The bits of a code (R79 to R81) -/

theorem toInt_natAbs_lt (v : BitVec 32) : v.toInt.natAbs < 2 ^ 32 := by
  have hlow := v.le_toInt
  have hhigh := v.toInt_lt
  omega

theorem codeBits_delta {v : Int} (hv : v.natAbs < 2 ^ 32) :
    codeBits ⟨.delta, v⟩ = [false, decide (v < 0)] ++ varField 3 v.natAbs :=
  congrArg ([false, decide (v < 0)] ++ ·) (varBits_eq_varField (by decide) hv)

theorem codeBits_ref {v : Int} (hv : v.natAbs < 2 ^ 32) : codeBits ⟨.ref, v⟩ = [true] ++ varField 3 v.natAbs :=
  congrArg ([true] ++ ·) (varBits_eq_varField (by decide) hv)

theorem codeBits_rept {v : Int} (hv : v.natAbs < 2 ^ 32) : codeBits ⟨.rept, v⟩ = varField 3 v.natAbs :=
  varBits_eq_varField (by decide) hv

/-- A DELTA of any value, and a REF or a REPEAT that is not negative, are codes (U2, U5). -/
theorem codeRefusal_eq_none {ty : CodeType} {v : BitVec 32}
    (h : ty = .delta ∨ (ty = .ref ∨ ty = .rept) ∧ 0 ≤ v.toInt) : codeRefusal (codeOperand ty v) = none := by
  obtain rfl | ⟨rfl | rfl, hv⟩ := h
  · rfl
  · exact if_neg (Int.not_lt.mpr hv)
  · exact if_neg (Int.not_lt.mpr hv)

/-! ### Packing (R151) -/

theorem exec_dubPack_of_code {ty : CodeType} {v : BitVec 32} (h : codeRefusal (codeOperand ty v) = none) (s : State) :
    exec (.dubPack ty v) s = extendAccumulator (codeBits (codeOperand ty v)) s := by
  simp only [exec, execDubPack, packCode, h]

/-- Settles O33: the bits of each type are those of `codeBits`, which the accumulator is extended by. -/
theorem packAddsTheBitsOfTheCode : Obligations.PackAddsTheBitsOfTheCode := by
  intro s ty v bits
  refine ⟨fun hty => ?_, fun hty => exec_dubPack_of_codeRefusal (by rw [hty]; rfl) s⟩
  have hv := toInt_natAbs_lt v
  have hbits : codeBits (codeOperand ty v) = bits := by
    cases ty with
    | delta => exact codeBits_delta hv
    | ref => exact codeBits_ref hv
    | rept => exact codeBits_rept hv
    | invalid => rfl
  rw [exec_dubPack_of_code (codeRefusal_eq_none hty), hbits]
  exact ⟨extendAccumulator_of_grants, extendAccumulator_of_gt⟩

/-! ### Measuring (R152) -/

theorem exec_dubCodeLen_of_grants {ty : CodeType} {v : BitVec 32} {n : Nat} {s : State}
    (hcode : codeRefusal (codeOperand ty v) = none) (hlen : codeLen (codeOperand ty v) = n)
    (hg : s.Grants (bitAsks s.cfg n)) :
    exec (.dubCodeLen ty v) s = .next { s with exhaust := s.exhaust.drop (bitAsks s.cfg n), result := .bits n } := by
  simp only [exec, execDubCodeLen, hcode, hlen]
  exact measured_of_grants hg

/-- Settles O34: the measured length of each type in closed form. -/
theorem codeLengthClosedForm : Obligations.CodeLengthClosedForm := by
  intro s v gives
  have hv := toInt_natAbs_lt v
  exact ⟨exec_dubCodeLen_of_grants (codeRefusal_eq_none (.inl rfl)) (codeLen_delta hv),
    fun h0 => ⟨exec_dubCodeLen_of_grants (codeRefusal_eq_none (.inr ⟨.inl rfl, h0⟩)) (codeLen_ref hv),
      exec_dubCodeLen_of_grants (codeRefusal_eq_none (.inr ⟨.inr rfl, h0⟩)) (codeLen_rept hv)⟩,
    exec_dubCodeLen_of_codeRefusal rfl s⟩

/-! ### The matcher (R153) -/

section
variable {dict : List Tile} {last tile : Tile} (hlast : dict.getLast? = some last)
include hlast

theorem exists_reverse_eq_cons : ∃ earlier, dict.reverse = last :: earlier :=
  List.head?_eq_some_iff.mp (List.head?_reverse.trans hlast)

/-- Without a match the difference to the last tile is chosen, and it alone is measured. -/
theorem choose_of_not_mem (hmem : tile ∉ dict) :
    choose dict tile = ⟨.delta, (tile.toNat : Int) - last.toNat⟩ ∧
    chooseBits dict tile = codeLen ⟨.delta, (tile.toNat : Int) - last.toNat⟩ := by
  obtain ⟨earlier, hrev⟩ := exists_reverse_eq_cons hlast
  have hnone : matchDistance tile (last :: earlier) = none := by
    rwa [← hrev, matchDistance_none, List.mem_reverse]
  simp only [choose, chooseBits, hrev, hnone, Nat.add_zero, and_self]

/-- At a match the REF is measured too, and chosen when it is no longer. -/
theorem choose_of_match {i : Nat} (hmatch : matchDistance tile dict.reverse = some i) :
    (choose dict tile = if codeLen ⟨.ref, i⟩ ≤ codeLen ⟨.delta, (tile.toNat : Int) - last.toNat⟩ then ⟨.ref, i⟩
      else ⟨.delta, (tile.toNat : Int) - last.toNat⟩) ∧
    chooseBits dict tile = codeLen ⟨.delta, (tile.toNat : Int) - last.toNat⟩ + codeLen ⟨.ref, i⟩ := by
  obtain ⟨earlier, hrev⟩ := exists_reverse_eq_cons hlast
  rw [hrev] at hmatch
  simp only [choose, chooseBits, hrev, hmatch, and_self]

end

/-- The distance of the most recent match, counted from the end of the dictionary. -/
theorem matchDistance_reverse {dict : List Tile} {tile : Tile} {i : Nat} (hi : i < dict.length)
    (hat : dict[dict.length - 1 - i]? = some tile) (hbefore : ∀ j < i, dict[dict.length - 1 - j]? ≠ some tile) :
    matchDistance tile dict.reverse = some i := by
  refine matchDistance_some.mpr ⟨by rwa [List.getElem?_reverse hi], fun j hj => ?_⟩
  rw [List.getElem?_reverse (hj.trans hi)]
  exact hbefore j hj

theorem groupCount_tileDifference_le (tile last : Tile) : groupCount ((tile.toNat : Int) - last.toNat).natAbs ≤ 6 := by
  have htile := tile.isLt
  have hlast := last.isLt
  exact (groupCount_le_iff (by decide)).mpr (by omega)

theorem codeLen_tileDifference (tile last : Tile) : codeLen ⟨.delta, (tile.toNat : Int) - last.toNat⟩ =
    2 + 4 * groupCount ((tile.toNat : Int) - last.toNat).natAbs := by
  have htile := tile.isLt
  have hlast := last.isLt
  exact codeLen_delta (by omega)

theorem exec_dubChoose_of_grants {s : State} (tile : Tile) (hg : s.Grants (bitAsks s.cfg (chooseBits s.blk.dict tile))) :
    exec (.dubChoose tile) s = .next { s with
      exhaust := s.exhaust.drop (bitAsks s.cfg (chooseBits s.blk.dict tile))
      result := .dubCode (choose s.blk.dict tile) } := measured_of_grants hg

/-- Settles O36: a REF of any distance is compared by its length, which is that of R152 up to 32 groups, more than a
DELTA of two tiles ever has. -/
theorem chooseFollowsTheMatcher : Obligations.ChooseFollowsTheMatcher := by
  refine fun s tile => ⟨_, exec_dubChoose_of_grants tile, fun hnil => ?_, fun last hlast hmem => ?_,
    fun last i hlast hi hat hbefore => ?_⟩
  · rw [hnil]
    exact ⟨rfl, rfl⟩
  · rw [← codeLen_tileDifference]
    exact choose_of_not_mem hlast hmem
  · obtain ⟨hchoose, hbits⟩ := choose_of_match hlast (matchDistance_reverse hi hat hbefore)
    have hdelta := groupCount_tileDifference_le tile last
    rw [codeLen_tileDifference, codeLen_ref_nat] at hchoose hbits
    refine ⟨hchoose.trans (if_congr (by omega) rfl rfl), fun h64 => ?_⟩
    have href : groupCount i ≤ 2 := (groupCount_le_iff (by decide)).mpr (by omega)
    omega

end Sys2Proof.Machine
end

section
/-! The DUB block operations (42_dub_block.md section 3): the beginning of a block (R155), one tile (R156 to R159), the end
(R160), and the whole block (R161). -/
namespace Sys2Proof.Machine

/-- Settles O37: the model's fresh block is the one written out. -/
theorem blockBeginStartsAFreshBlock : Obligations.BlockBeginStartsAFreshBlock := fun _ => rfl

/-! ### How a run ends -/

theorem endBlock_of_ok {before b : Block} {asks n : Nat} {r : Block → Result} {s : State}
    (hn : b.appendsSince before + asks = n) (hg : s.Grants n) :
    endBlock before (.ok b) asks r s = .next { s with blk := b, exhaust := s.exhaust.drop n, result := r b } := by
  subst hn
  exact endBlock_of_grants hg

/-- A run without a result is refused, or takes the condition where the oracle refuses an append before it. -/
theorem endBlock_of_error {before : Block} {stop : Refusal × Block} {asks n : Nat} {r : Block → Result} {s : State}
    (hn : stop.2.appendsSince before + asks = n) :
    (s.Grants n → endBlock before (.error stop) asks r s = .refused stop.1) ∧
    (¬ s.Grants n → endBlock before (.error stop) asks r s = .next s.exhausted) := by
  subst hn
  exact ⟨fun hg => endBlock_of_grants hg, fun hg => endBlock_of_refuses hg⟩

/-! ### Emissions -/

theorem flatMap_wordBits_length (ws : List Word) : (ws.flatMap wordBits).length = 16 * ws.length := by
  simp [Nat.mul_comm]

/-- The number of words that so many bits make, given how many are left. -/
theorem length_of_flatMap_wordBits {ws : List Word} {left bits : List Bool} (h : ws.flatMap wordBits ++ left = bits)
    (hleft : left.length ≤ 15) : ws.length = bits.length / 16 := by
  have hlen := congrArg List.length h
  rw [List.length_append, flatMap_wordBits_length] at hlen
  omega

theorem Block.flush_acc_length (b : Block) (bits : List Bool) :
    ({ b with acc := b.acc ++ bits } : Block).flush.acc.length = (b.acc.length + bits.length) % 16 := by
  rw [Block.flush_acc, Block.flushRest_length, List.length_append]

section
variable {cfg : Config.Params} {b : Block} {c : Code}

theorem Block.emitAll_cons_of_le (h : b.acc.length + (codeBits c).length ≤ cfg.accBits) (cs : List Code) :
    b.emitAll cfg (c :: cs) = ({ b with acc := b.acc ++ codeBits c } : Block).flush.emitAll cfg cs := by
  simp only [Block.emitAll, Block.emit_of_le h]

theorem Block.emitAll_cons_of_gt (h : cfg.accBits < b.acc.length + (codeBits c).length) (cs : List Code) :
    b.emitAll cfg (c :: cs) = .error (.accumulatorFull, b) := by
  simp only [Block.emitAll, Block.emit_of_gt h]

theorem Block.emitAsks_cons_of_le (h : b.acc.length + (codeBits c).length ≤ cfg.accBits) (cs : List Code) :
    b.emitAsks cfg (c :: cs) = bitAsks cfg (codeBits c).length +
      ({ b with acc := b.acc ++ codeBits c } : Block).flush.emitAsks cfg cs := by
  simp only [Block.emitAsks, Block.emit_of_le h, Block.appendAsks_of_le h]

/-- Emitted codes move words to the payload; with the bits left they are the bits held and then those of the codes. -/
theorem Block.emitAll_words {cs : List Code} {b' : Block} (h : b.emitAll cfg cs = .ok b') :
    ∃ ws, b' = { b with acc := b'.acc, payload := b.payload ++ ws } ∧
      ws.flatMap wordBits ++ b'.acc = b.acc ++ cs.flatMap codeBits := by
  obtain ⟨hframe, ws, hws⟩ := Block.emitAll_frame h
  have hstream := Block.emitAll_stream h
  rw [Block.stream, Block.stream, ← hws, List.flatMap_append, List.append_assoc, List.append_assoc,
    List.append_cancel_left_eq] at hstream
  rw [← hws] at hframe
  exact ⟨ws, hframe, hstream⟩

/-- Once a code is emitted, less than a word is left (R157). -/
theorem Block.emitAll_acc_of_ne_nil {cs : List Code} {b' : Block} (h : b.emitAll cfg cs = .ok b') (hne : cs ≠ []) :
    b'.acc.length ≤ 15 := by
  obtain ⟨c, cs, rfl⟩ := List.exists_cons_of_ne_nil hne
  by_cases hroom : b.acc.length + (codeBits c).length ≤ cfg.accBits
  · rw [Block.emitAll_cons_of_le hroom] at h
    exact Block.emitAll_acc h (by rw [Block.flush_acc_length]; omega)
  · rw [Block.emitAll_cons_of_gt (Nat.lt_of_not_le hroom)] at h
    cases h

end

/-! ### The cases of a tile (R158) -/

/-- The block after a tile whose codes moved `ws` to the payload and left `left` in the accumulator. -/
def Block.afterTile (b : Block) (tile : Tile) (ws : List Word) (left : List Bool) : Block :=
  { acc := left
    payload := b.payload ++ ws
    dict := b.dict ++ [tile]
    prevCode := choose b.dict tile
    repeating := sameCode (choose b.dict tile) b.prevCode
    repeatCount := repeatCountAfterTile b.repeating (sameCode (choose b.dict tile) b.prevCode) b.repeatCount }

section
variable {cfg : Config.Params} {b : Block}

theorem sameCode_eq_decide (c d : Code) : sameCode c d = decide (c = d) := rfl

theorem sameCode_of_ne {c d : Code} (h : c ≠ d) : sameCode c d = false :=
  Bool.eq_false_iff.mpr fun hs => h (sameCode_iff.mp hs)

theorem tileEmits_of_run_counted {code : Code} (hrep : b.repeating = true) (hsame : code = b.prevCode) :
    tileEmits cfg b code = [] := by
  rw [tileEmits, hrep, sameCode_iff.mpr hsame]

theorem tileEmits_of_run_ended {code : Code} (hrep : b.repeating = true) (hne : code ≠ b.prevCode) :
    tileEmits cfg b code = [⟨.rept, b.repeatCount⟩, code] := by
  rw [tileEmits, hrep, sameCode_of_ne hne]

theorem tileEmits_of_run_started {code : Code} (hrep : b.repeating = false) (hsame : code = b.prevCode)
    (hemit : cfg.dubRunStartEmit = false) : tileEmits cfg b code = [] := by
  rw [tileEmits, hrep, sameCode_iff.mpr hsame, hemit]
  rfl

theorem tileEmits_of_no_run {code : Code} (hrep : b.repeating = false)
    (hemit : code ≠ b.prevCode ∨ cfg.dubRunStartEmit = true) : tileEmits cfg b code = [code] := by
  by_cases hsame : code = b.prevCode
  · rw [tileEmits, hrep, sameCode_iff.mpr hsame, hemit.resolve_left (not_not.mpr hsame)]
    rfl
  · rw [tileEmits, hrep, sameCode_of_ne hsame]

variable {tile : Tile} {ws : List Word} {left : List Bool}

theorem Block.afterTile_of_run_counted (hrep : b.repeating = true) (hsame : choose b.dict tile = b.prevCode) :
    b.afterTile tile ws left = { b with
      acc := left, payload := b.payload ++ ws, repeatCount := b.repeatCount + 1, dict := b.dict ++ [tile] } := by
  rw [Block.afterTile, sameCode_iff.mpr hsame, hsame, hrep]
  rfl

theorem Block.afterTile_of_ne (hne : choose b.dict tile ≠ b.prevCode) :
    b.afterTile tile ws left = { b with
      acc := left, payload := b.payload ++ ws, prevCode := choose b.dict tile, repeating := false
      dict := b.dict ++ [tile] } := by
  rw [Block.afterTile, sameCode_of_ne hne]
  rfl

theorem Block.afterTile_of_no_run (hrep : b.repeating = false) :
    b.afterTile tile ws left = { b with
      acc := left
      payload := b.payload ++ ws
      prevCode := choose b.dict tile
      repeating := decide (choose b.dict tile = b.prevCode)
      repeatCount := if choose b.dict tile = b.prevCode then 0 else b.repeatCount
      dict := b.dict ++ [tile] } := by
  rw [Block.afterTile, hrep, sameCode_eq_decide, repeatCountAfterTile]
  simp

end

/-! ### One tile (R156 to R159) -/

section
variable {s : State} {tile : Tile} {cs : List Code} (hroom : s.blk.dict.length < 64)
  (hcs : tileEmits s.cfg s.blk (choose s.blk.dict tile) = cs)
include hroom hcs

/-- A tile whose codes are emitted asks for its dictionary entry, its words, and the bits measured and packed. -/
theorem exec_dubTile_of_emitAll {ws : List Word} {left : List Bool}
    (hemit : s.blk.emitAll s.cfg cs = .ok { s.blk with acc := left, payload := s.blk.payload ++ ws })
    (hg : s.Grants (1 + ws.length + bitAsks s.cfg (chooseBits s.blk.dict tile + (cs.flatMap codeBits).length))) :
    exec (.dubTile tile) s = .next { s with
      blk := s.blk.afterTile tile ws left
      exhaust := s.exhaust.drop
        (1 + ws.length + bitAsks s.cfg (chooseBits s.blk.dict tile + (cs.flatMap codeBits).length))
      result := .none } := by
  subst hcs
  have hrun : s.blk.tile s.cfg tile = .ok (s.blk.afterTile tile ws left) := Block.tile_ok.mpr ⟨hroom, _, hemit, rfl⟩
  have hsince : (s.blk.afterTile tile ws left).appendsSince s.blk = 1 + ws.length := by
    simp [Block.appendsSince, Block.afterTile]
  simp only [exec, execDubTile]
  rw [hrun]
  refine endBlock_of_ok ?_ hg
  rw [hsince, Block.tileAsks_of_lt hroom, Block.emitAsks_of_ok hemit, bitAsks_add]

/-- A tile that emits codes: what it moves to the payload and what it leaves. -/
theorem exec_dubTile_of_emits {b : Block} {bits : List Bool} (hemit : s.blk.emitAll s.cfg cs = .ok b) (hne : cs ≠ [])
    (hbits : cs.flatMap codeBits = bits)
    (hg : s.Grants (1 + (s.blk.acc.length + bits.length) / 16 +
      bitAsks s.cfg (chooseBits s.blk.dict tile + bits.length))) :
    ∃ (ws : List Word) (left : List Bool), ws.flatMap wordBits ++ left = s.blk.acc ++ bits ∧ left.length ≤ 15 ∧
      exec (.dubTile tile) s = .next { s with
        blk := s.blk.afterTile tile ws left
        exhaust := s.exhaust.drop (1 + ws.length + bitAsks s.cfg (chooseBits s.blk.dict tile + bits.length))
        result := .none } := by
  obtain ⟨ws, hframe, hstream⟩ := Block.emitAll_words hemit
  have hleft := Block.emitAll_acc_of_ne_nil hemit hne
  have hwords := length_of_flatMap_wordBits hstream hleft
  rw [hframe] at hemit
  rw [List.length_append, hbits] at hwords
  rw [← hwords, ← hbits] at hg
  rw [← hbits]
  exact ⟨ws, b.acc, hstream, hleft, exec_dubTile_of_emitAll hroom hcs hemit hg⟩

/-- A tile one of whose codes has no room has no result, unless the oracle refuses an append before it. -/
theorem exec_dubTile_of_full {stop : Refusal × Block} {n : Nat} (hfull : s.blk.emitAll s.cfg cs = .error stop)
    (hn : n = stop.2.payload.length - s.blk.payload.length +
      (bitAsks s.cfg (chooseBits s.blk.dict tile) + s.blk.emitAsks s.cfg cs)) :
    (s.Grants n → exec (.dubTile tile) s = .refused .accumulatorFull) ∧
    (¬ s.Grants n → exec (.dubTile tile) s = .next s.exhausted) := by
  subst hcs
  have hrun : s.blk.tile s.cfg tile = .error stop := by
    rw [Block.tile_of_lt hroom]
    simp only [Block.addTile, hfull]
  have hdict : stop.2.dict = s.blk.dict := by
    have hgrows := (Block.emitAll_grows (cfg := s.cfg) (b := s.blk)
      (cs := tileEmits s.cfg s.blk (choose s.blk.dict tile))).1
    rwa [hfull] at hgrows
  simp only [exec, execDubTile]
  rw [hrun, ← Block.emitAll_error hfull]
  refine endBlock_of_error ?_
  rw [hn, Block.tileAsks_of_lt hroom, Block.appendsSince, hdict, Nat.sub_self, Nat.zero_add]

end

theorem exec_dubTile_of_dictionary_full {s : State} (h : 64 ≤ s.blk.dict.length) (tile : Tile) :
    exec (.dubTile tile) s = .refused .dictionaryFull := by
  simp only [exec, execDubTile]
  rw [Block.tile_of_ge h]
  exact (endBlock_of_error (n := 0) (by simp [Block.appendsSince, Block.tileAsks_of_ge h])).1 (State.grants_zero s)

/-- A tile that emits nothing leaves the payload and the accumulator. -/
theorem exec_dubTile_of_silent {s : State} {tile : Tile} (hroom : s.blk.dict.length < 64)
    (hcs : tileEmits s.cfg s.blk (choose s.blk.dict tile) = [])
    (hg : s.Grants (1 + bitAsks s.cfg (chooseBits s.blk.dict tile))) : exec (.dubTile tile) s = .next { s with
      blk := s.blk.afterTile tile [] s.blk.acc
      exhaust := s.exhaust.drop (1 + bitAsks s.cfg (chooseBits s.blk.dict tile))
      result := .none } :=
  exec_dubTile_of_emitAll hroom hcs (by rw [List.append_nil]; rfl) hg

/-- Settles O38: in both cases nothing is emitted, and the registers are those of the case. -/
theorem tileExtendsOrStartsARun : Obligations.TileExtendsOrStartsARun := by
  refine fun s tile => ⟨fun h => exec_dubTile_of_dictionary_full h tile, fun hroom hsame hg =>
    ⟨fun hrep => ?_, fun hrep hemit => ?_⟩⟩
  · rw [exec_dubTile_of_silent hroom (tileEmits_of_run_counted hrep hsame) hg,
      Block.afterTile_of_run_counted hrep hsame, List.append_nil]
  · rw [exec_dubTile_of_silent hroom (tileEmits_of_run_started hrep hsame hemit) hg, Block.afterTile_of_no_run hrep,
      List.append_nil, hsame, decide_eq_true rfl, if_pos rfl]

/-- A first code without room is refused there, unless the oracle refuses a bit measured or packed before it. -/
theorem exec_dubTile_of_first_full {s : State} {tile : Tile} {c : Code} {cs : List Code} {n : Nat}
    (hroom : s.blk.dict.length < 64) (hcs : tileEmits s.cfg s.blk (choose s.blk.dict tile) = c :: cs)
    (hfull : s.cfg.accBits < s.blk.acc.length + (codeBits c).length)
    (hn : n = bitAsks s.cfg (chooseBits s.blk.dict tile) + s.roomAsks (codeBits c).length) :
    (s.Grants n → exec (.dubTile tile) s = .refused .accumulatorFull) ∧
    (¬ s.Grants n → exec (.dubTile tile) s = .next s.exhausted) := by
  refine exec_dubTile_of_full hroom hcs (Block.emitAll_cons_of_gt hfull cs) ?_
  rw [hn, Nat.sub_self, Nat.zero_add, Block.emitAsks_of_gt hfull, State.roomAsks_length]

/-- A second code without room: the words of the first and its bits are asked for before. -/
theorem exec_dubTile_of_second_full {s : State} {tile : Tile} {c d : Code} {n : Nat}
    (hroom : s.blk.dict.length < 64) (hcs : tileEmits s.cfg s.blk (choose s.blk.dict tile) = [c, d])
    (hacc : s.blk.acc.length + (codeBits c).length ≤ s.cfg.accBits)
    (hfull : s.cfg.accBits < (s.blk.acc.length + (codeBits c).length) % 16 + (codeBits d).length)
    (hn : n = (s.blk.acc.length + (codeBits c).length) / 16 +
      bitAsks s.cfg (chooseBits s.blk.dict tile + (codeBits c).length +
        min (codeBits d).length (s.cfg.accBits - (s.blk.acc.length + (codeBits c).length) % 16 + 1))) :
    (s.Grants n → exec (.dubTile tile) s = .refused .accumulatorFull) ∧
    (¬ s.Grants n → exec (.dubTile tile) s = .next s.exhausted) := by
  rw [← Block.flush_acc_length] at hfull hn
  refine exec_dubTile_of_full hroom hcs
    ((Block.emitAll_cons_of_le hacc [d]).trans (Block.emitAll_cons_of_gt hfull [])) ?_
  rw [hn, Block.emitAsks_cons_of_le hacc, Block.emitAsks_of_gt hfull, Block.appendAsks, bitAsks_add, bitAsks_add,
    Nat.add_assoc (bitAsks _ _)]
  simp

/-- Settles O39: the codes of each case, all emitted or up to the one that has no room. -/
theorem tileEmitsItsCode : Obligations.TileEmitsItsCode := by
  rintro s tile _ _ rfl rfl hroom
  refine ⟨fun hrep hemit hacc hg => ?_, ?_, fun hrep hemit hfull n hn =>
      exec_dubTile_of_first_full hroom (tileEmits_of_no_run hrep hemit) hfull hn, ?_⟩
  · obtain ⟨ws, left, hstream, hleft, hexec⟩ := exec_dubTile_of_emits hroom (tileEmits_of_no_run hrep hemit)
      (Block.emitAll_cons_of_le hacc []) (List.cons_ne_nil _ _) (List.flatMap_singleton _ _) hg
    rw [Block.afterTile_of_no_run hrep] at hexec
    exact ⟨ws, left, hstream, hleft, hexec⟩
  · rintro hrep hne _ rfl hacc hacc' hg
    rw [← Block.flush_acc_length] at hacc'
    rw [Nat.add_assoc s.blk.acc.length, Nat.add_assoc (chooseBits _ _), ← List.length_append] at hg
    obtain ⟨ws, left, hstream, hleft, hexec⟩ := exec_dubTile_of_emits hroom (tileEmits_of_run_ended hrep hne)
      ((Block.emitAll_cons_of_le hacc _).trans (Block.emitAll_cons_of_le hacc' [])) (List.cons_ne_nil _ _)
      (by simp) hg
    rw [Block.afterTile_of_ne hne] at hexec
    rw [← List.append_assoc] at hstream
    rw [List.length_append, ← Nat.add_assoc (chooseBits _ _)] at hexec
    exact ⟨ws, left, hstream, hleft, hexec⟩
  · rintro hrep hne _ rfl
    exact ⟨fun hfull n hn => exec_dubTile_of_first_full hroom (tileEmits_of_run_ended hrep hne) hfull hn,
      fun hacc hfull n hn => exec_dubTile_of_second_full hroom (tileEmits_of_run_ended hrep hne) hacc hfull hn⟩

/-! ### The end of a block (R160) -/

/-- The bits that the end of a block emits: the REPEAT of an open run. -/
theorem flatMap_codeBits_endOfRun (b : Block) :
    (if b.repeating then [(⟨.rept, b.repeatCount⟩ : Code)] else []).flatMap codeBits =
      if b.repeating then codeBits ⟨.rept, b.repeatCount⟩ else [] := by
  split
  · exact List.flatMap_singleton _ _
  · rfl

/-- The end of a block has a result where its REPEAT has room: the words that the emission and the last flush make. -/
theorem Block.finish_of_le {cfg : Config.Params} {b : Block} {run : List Bool}
    (hrun : run = if b.repeating then codeBits ⟨.rept, b.repeatCount⟩ else [])
    (hroom : b.acc.length + run.length ≤ cfg.accBits) : ∃ (ws : List Word) (pad : Nat),
      ws.flatMap wordBits = b.acc ++ run ++ List.replicate pad false ∧ pad ≤ 15 ∧
      b.finish cfg = .ok { b with acc := [], payload := b.payload ++ ws, repeating := false } := by
  obtain ⟨b1, hemit⟩ : ∃ b1, b.emitAll cfg (if b.repeating then [⟨.rept, b.repeatCount⟩] else []) = .ok b1 := by
    by_cases hrep : b.repeating = true
    · rw [if_pos hrep] at hrun ⊢
      exact ⟨_, Block.emitAll_cons_of_le (hrun ▸ hroom) []⟩
    · rw [if_neg hrep]
      exact ⟨b, rfl⟩
  obtain ⟨ws, hframe, hstream⟩ := Block.emitAll_words hemit
  rw [flatMap_codeBits_endOfRun, ← hrun] at hstream
  refine ⟨ws ++ b1.flushFinalWords, (16 - b1.acc.length % 16) % 16, ?_, by omega,
    Block.finish_ok.mpr ⟨b1, hemit, ?_⟩⟩
  · rw [List.flatMap_append, Block.flushFinal_bits, ← List.append_assoc, hstream]
  · rw [← List.append_assoc, Block.flushFinal, hframe]
    rfl

/-- Settles O40: with room the run of the end has a result; without it the REPEAT is the first code that has none. -/
theorem blockEndEmitsTheRunAndPads : Obligations.BlockEndEmitsTheRunAndPads := by
  intro s run hrun
  refine ⟨fun hroom hg => ?_, fun hrep hfull => ?_⟩
  · obtain ⟨ws, pad, hbits, hpad, hfinish⟩ := Block.finish_of_le hrun hroom
    have hwords : ws.length = (s.blk.acc.length + run.length + 15) / 16 := by
      have hlen := congrArg List.length hbits
      rw [flatMap_wordBits_length, List.length_append, List.length_append, List.length_replicate] at hlen
      omega
    have hasks : s.blk.finishAsks s.cfg = bitAsks s.cfg run.length := by
      rw [Block.finishAsks_of_ok hfinish, hrun, apply_ite List.length]
      rfl
    rw [← hwords] at hg
    refine ⟨ws, pad, hbits, hpad, ?_⟩
    simp only [exec, execDubBlockEnd]
    rw [hfinish, hasks]
    exact endBlock_of_ok (by simp [Block.appendsSince]) hg
  · rw [if_pos hrep] at hrun
    rw [hrun] at hfull ⊢
    have hfinish : s.blk.finish s.cfg = .error (.accumulatorFull, s.blk) := by
      simp only [Block.finish, hrep, if_true, Block.emitAll_cons_of_gt hfull]
    have hasks : s.blk.finishAsks s.cfg = s.roomAsks (codeBits ⟨.rept, s.blk.repeatCount⟩).length := by
      rw [Block.finishAsks, if_pos hrep, Block.emitAsks_of_gt hfull, State.roomAsks_length]
    simp only [exec, execDubBlockEnd]
    rw [hfinish, hasks]
    exact endBlock_of_error (by simp [Block.appendsSince])

/-! ### The whole block (R161) -/

/-- The state after a block operation that left the block `b`, took `n` answers of the oracle and returned `r`. -/
def State.ranBlock (s : State) (b : Block) (n : Nat) (r : Result) : State :=
  { s with blk := b, exhaust := s.exhaust.drop n, result := r }

@[simp] theorem State.ranBlock_blk (s : State) (b : Block) (n : Nat) (r : Result) : (s.ranBlock b n r).blk = b := rfl
@[simp] theorem State.ranBlock_cfg (s : State) (b : Block) (n : Nat) (r : Result) : (s.ranBlock b n r).cfg = s.cfg := rfl

theorem State.ranBlock_ranBlock (s : State) (b b' : Block) (n n' : Nat) (r r' : Result) :
    (s.ranBlock b n r).ranBlock b' n' r' = s.ranBlock b' (n + n') r' := by
  simp [State.ranBlock]

theorem State.Quiet.ranBlock {s : State} (h : s.Quiet) (b : Block) (n : Nat) (r : Result) : (s.ranBlock b n r).Quiet :=
  h.drop n rfl

/-- The answers taken up to a block and from it on, for lists and for accumulators, are those taken in one. -/
theorem Block.appendsSince_add {a b c : Block} (hab : a.dict <+: b.dict ∧ a.payload <+: b.payload)
    (hbc : b.dict <+: c.dict ∧ b.payload <+: c.payload) (m n : Nat) :
    b.appendsSince a + m + (c.appendsSince b + n) = c.appendsSince a + (m + n) := by
  have hdict := hab.1.length_le
  have hdict' := hbc.1.length_le
  have hpayload := hab.2.length_le
  have hpayload' := hbc.2.length_le
  unfold Block.appendsSince
  omega

theorem Block.tile_grows_of_ok {cfg : Config.Params} {b b' : Block} {tile : Tile} (h : b.tile cfg tile = .ok b') :
    b.dict <+: b'.dict ∧ b.payload <+: b'.payload := by
  have hgrows := Block.tile_grows (cfg := cfg) (b := b) (tile := tile)
  rwa [h] at hgrows

theorem Block.addTiles_grows_of_ok {cfg : Config.Params} {b b' : Block} {ts : List Tile}
    (h : b.addTiles cfg ts = .ok b') : b.dict <+: b'.dict ∧ b.payload <+: b'.payload := by
  have hgrows := Block.addTiles_grows (cfg := cfg) (b := b) (ts := ts)
  rwa [h] at hgrows

theorem Block.finish_grows_of_ok {cfg : Config.Params} {b b' : Block} (h : b.finish cfg = .ok b') :
    b.dict <+: b'.dict ∧ b.payload <+: b'.payload := by
  obtain ⟨hdict, hpayload⟩ := Block.finish_grows (cfg := cfg) (b := b)
  rw [h, BlockRun.reached_ok] at hdict hpayload
  exact ⟨by rw [hdict], hpayload⟩

section
variable {s : State} (hq : s.Quiet)
include hq

theorem exec_dubTile_of_ok {tile : Tile} {b : Block} (h : s.blk.tile s.cfg tile = .ok b) : exec (.dubTile tile) s =
    .next (s.ranBlock b (b.appendsSince s.blk + s.blk.tileAsks s.cfg tile) .none) := by
  simp only [exec, execDubTile]
  rw [h]
  exact endBlock_of_ok rfl (State.grants_of_quiet hq _)

theorem exec_dubTile_of_error {tile : Tile} {stop : Refusal × Block} (h : s.blk.tile s.cfg tile = .error stop) :
    exec (.dubTile tile) s = .refused stop.1 := by
  simp only [exec, execDubTile]
  rw [h]
  exact (endBlock_of_error rfl).1 (State.grants_of_quiet hq _)

theorem exec_dubBlockEnd_of_ok {b : Block} (h : s.blk.finish s.cfg = .ok b) : exec .dubBlockEnd s =
    .next (s.ranBlock b (b.appendsSince s.blk + s.blk.finishAsks s.cfg) (.payload b.payload)) := by
  simp only [exec, execDubBlockEnd]
  rw [h]
  exact endBlock_of_ok rfl (State.grants_of_quiet hq _)

theorem exec_dubBlockEnd_of_error {stop : Refusal × Block} (h : s.blk.finish s.cfg = .error stop) :
    exec .dubBlockEnd s = .refused stop.1 := by
  simp only [exec, execDubBlockEnd]
  rw [h]
  exact (endBlock_of_error rfl).1 (State.grants_of_quiet hq _)

end

/-- Tiles issued one by one build the block of one run, whatever is issued after them. -/
theorem runAll_tiles_of_ok {ts : List Tile} {s : State} {b : Block} (hq : s.Quiet)
    (h : s.blk.addTiles s.cfg ts = .ok b) : ∃ r, ∀ is, runAll (ts.map .dubTile ++ is) s =
      runAll is (s.ranBlock b (b.appendsSince s.blk + s.blk.addTilesAsks s.cfg ts) r) := by
  induction ts generalizing s with
  | nil =>
    cases h
    exact ⟨s.result, fun is => by simp [State.ranBlock, Block.appendsSince, Block.addTilesAsks]⟩
  | cons t ts ih =>
    cases ht : s.blk.tile s.cfg t with
    | error stop => simp [Block.addTiles, ht] at h
    | ok b1 =>
      simp only [Block.addTiles, ht] at h
      obtain ⟨r, hr⟩ := ih (hq.ranBlock b1 (b1.appendsSince s.blk + s.blk.tileAsks s.cfg t) .none) h
      refine ⟨r, fun is => (runAll_cons (exec_dubTile_of_ok hq ht)).trans ((hr is).trans ?_)⟩
      simp only [State.ranBlock_ranBlock, State.ranBlock_blk, State.ranBlock_cfg, Block.addTilesAsks, ht,
        Block.appendsSince_add (Block.tile_grows_of_ok ht) (Block.addTiles_grows_of_ok h)]

/-- Tiles that have no result in one run have none issued one by one. -/
theorem runAll_tiles_of_error {ts : List Tile} {s : State} {stop : Refusal × Block} (hq : s.Quiet)
    (h : s.blk.addTiles s.cfg ts = .error stop) (is : List Instr) :
    runAll (ts.map .dubTile ++ is) s = .refused stop.1 := by
  induction ts generalizing s with
  | nil => cases h
  | cons t ts ih =>
    cases ht : s.blk.tile s.cfg t with
    | error stop' =>
      simp only [Block.addTiles, ht, Except.error.injEq] at h
      rw [← h, List.map_cons, List.cons_append, runAll, exec_dubTile_of_error hq ht]
    | ok b1 =>
      simp only [Block.addTiles, ht] at h
      exact (runAll_cons (exec_dubTile_of_ok hq ht)).trans (ih (hq.ranBlock _ _ _) h)

theorem exec_dubBlock_of_ok {s : State} {ts : List Tile} {b : Block} (hcount : 1 ≤ ts.length ∧ ts.length ≤ 64)
    (hq : s.Quiet) (h : runBlock s.cfg ts = .ok b) : exec (.dubBlock ts) s =
      .next (s.ranBlock b (b.appendsSince Block.fresh + runBlockAsks s.cfg ts) (.payload b.payload)) := by
  rw [Block.appendsSince_fresh, runBlock_dict h]
  exact exec_dubBlock_of_grants hcount.1 hcount.2 h (State.grants_of_quiet hq _)

theorem exec_dubBlock_of_error {s : State} {ts : List Tile} {stop : Refusal × Block}
    (hcount : 1 ≤ ts.length ∧ ts.length ≤ 64) (hq : s.Quiet) (h : runBlock s.cfg ts = .error stop) :
    exec (.dubBlock ts) s = .refused stop.1 := by
  rw [exec_dubBlock_of_quiet hcount hq, h]

theorem exec_dubBlock_of_count {ts : List Tile} (h : ts.length = 0 ∨ 64 < ts.length) (s : State) :
    exec (.dubBlock ts) s = .refused .tileCountOutOfRange := by
  have hcount : (decide (1 ≤ ts.length) && decide (ts.length ≤ 64)) = false := by simp; omega
  simp only [exec, execDubBlock]
  rw [hcount, require_false]

/-- Settles O41: begun, the tiles and the end issued one by one reach the block of the run, or stop where it stops. -/
theorem blockIsBeginTilesEnd : Obligations.BlockIsBeginTilesEnd := by
  refine fun s ts hq => ⟨fun h1 h64 => ?_, fun h => exec_dubBlock_of_count h s⟩
  have hbegin : exec .dubBlockBegin s = .next (s.ranBlock Block.fresh 0 .none) := rfl
  have hquiet := hq.ranBlock Block.fresh 0 .none
  rw [List.cons_append, runAll_cons hbegin]
  cases hadd : Block.fresh.addTiles s.cfg ts with
  | error stop =>
    have hrun : runBlock s.cfg ts = .error stop := by rw [runBlock, hadd]
    rw [exec_dubBlock_of_error ⟨h1, h64⟩ hq hrun]
    exact (runAll_tiles_of_error hquiet hadd _).symm
  | ok b1 =>
    obtain ⟨r, hr⟩ := runAll_tiles_of_ok hquiet hadd
    rw [hr, State.ranBlock_ranBlock, runAll]
    cases hfinish : b1.finish s.cfg with
    | error stop =>
      have hrun : runBlock s.cfg ts = .error stop := by rw [runBlock, hadd]; exact hfinish
      rw [exec_dubBlock_of_error ⟨h1, h64⟩ hq hrun, exec_dubBlockEnd_of_error (hq.ranBlock _ _ _) hfinish]
    | ok b =>
      have hasks := Block.appendsSince_add (Block.addTiles_grows_of_ok hadd) (Block.finish_grows_of_ok hfinish)
        (Block.fresh.addTilesAsks s.cfg ts) (b1.finishAsks s.cfg)
      rw [← runBlockAsks_of_ok hadd] at hasks
      rw [exec_dubBlock_of_ok ⟨h1, h64⟩ hq (runBlock_ok.mpr ⟨b1, hadd, hfinish⟩),
        exec_dubBlockEnd_of_ok (hq.ranBlock _ _ _) hfinish, State.ranBlock_ranBlock, ← hasks, Nat.zero_add]
      rfl

end Sys2Proof.Machine
end

section
/-! The DUB asset operations (43_dub_asset.md): the store (R182), the index (R184, R185), the blocks of a frame (R181),
and how `DUB.ENCODE` refuses, commits and leads from its index to the payloads (R187 to R191). -/
namespace Sys2Proof.Machine

/-! ### The store (R182) -/

theorem Asset.dedup_of_new {a : Asset} {p : List Word} (h : ∀ e ∈ a.store, e.1 ≠ p) : a.dedup p = { a with
    store := a.store ++ [(p, a.blockData.length)]
    blockData := a.blockData ++ p
    offsets := a.offsets ++ [a.blockData.length] } := by
  rw [Asset.dedup, storeLookup_none.mpr h]

theorem Asset.offsetOf_of_new {a : Asset} {p : List Word} (h : ∀ e ∈ a.store, e.1 ≠ p) :
    a.offsetOf p = a.blockData.length := by
  rw [Asset.offsetOf, storeLookup_none.mpr h, Option.getD_none]

theorem Asset.dedup_of_stored {a : Asset} {p : List Word} {o : Nat} (hdistinct : (a.store.map (·.1)).Nodup)
    (h : (p, o) ∈ a.store) : a.dedup p = { a with offsets := a.offsets ++ [o] } := by
  rw [Asset.dedup, storeLookup_of_mem hdistinct h]

theorem Asset.offsetOf_of_stored {a : Asset} {p : List Word} {o : Nat} (hdistinct : (a.store.map (·.1)).Nodup)
    (h : (p, o) ∈ a.store) : a.offsetOf p = o := by
  rw [Asset.offsetOf, storeLookup_of_mem hdistinct h, Option.getD_some]

/-- Settles O43: the lookup finds nothing for a new payload, and the one entry of a stored one. -/
theorem dedupStoresEachPayloadOnce : Obligations.DedupStoresEachPayloadOnce := by
  refine fun s p hq => ⟨s.exhaust.drop (s.asset.dedupAppends p), fun hnew => ?_, fun hdistinct o ho => ?_⟩
  · rw [exec_dubDedup_of_quiet hq, Asset.dedup_of_new hnew, Asset.offsetOf_of_new hnew]
  · rw [exec_dubDedup_of_quiet hq, Asset.dedup_of_stored hdistinct ho, Asset.offsetOf_of_stored hdistinct ho]

/-! ### The index (R184, R185) -/

theorem exec_dubIndexSel (s : State) : exec .dubIndexSel s = .next { s with
    asset := s.asset.selectIndex
    result := .index s.asset.selectIndex.isIndex16 s.asset.selectIndex.indexSize s.asset.selectIndex.packed } := rfl

theorem packedIndex_of_offset {wide : Bool} {i o : Nat} {os : List Nat} (h : os[i]? = some o) :
    (packedIndex wide os)[i]? = some (indexWords wide os.length + o - nextWord wide i) := by
  rw [packedIndex_getElem?, h, Option.map_some]

/-- The packed value of a block is the exact difference of R184: the next word is within the index region. -/
theorem packed_sub_exact {wide : Bool} {i o : Nat} {os : List Nat} (h : os[i]? = some o) :
    ((indexWords wide os.length + o - nextWord wide i : Nat) : Int) =
      ((indexWords wide os.length + o : Nat) : Int) - (nextWord wide i : Nat) := by
  have hi : i < os.length := (List.getElem?_eq_some_iff.mp h).1
  have hle := nextWord_le_indexWords (wide := wide) hi
  omega

/-- Settles O44: no subtraction of the probe or of the form taken goes below zero. -/
theorem indexSelectionFollowsTheProbe : Obligations.IndexSelectionFollowsTheProbe := by
  refine fun s => ⟨_, _, _, exec_dubIndexSel s, ?_, rfl, packedIndex_length _ _, fun i o ho =>
    ⟨_, packedIndex_of_offset ho, ?_⟩⟩
  · refine (needsIndex16_iff s.asset.offsets).trans <|
      exists_congr fun i => exists_congr fun o => and_congr_right fun ho => ?_
    have hexact := packed_sub_exact (wide := false) ho
    simp only [indexWords, nextWord, Bool.false_eq_true, if_false] at hexact ⊢
    omega
  · refine (packed_sub_exact ho).trans ?_
    rw [Nat.cast_add]
    congr 1
    cases needsIndex16 s.asset.offsets <;> simp [nextWord]

/-! ### The blocks of a frame (R181) -/

/-- The numbers below `n * m` are those of `m` runs of `n`, one after the other. -/
theorem range_mul_eq_flatMap (n m : Nat) :
    List.range (n * m) = (List.range m).flatMap fun a => (List.range n).map (n * a + ·) := by
  induction m with
  | zero => simp
  | succ m ih => rw [Nat.mul_succ, List.range_add, ih, List.range_succ, List.flatMap_append, List.flatMap_singleton]

/-- The blocks by frame, block row and block column: `i = (f * bh + by) * bw + bx`. -/
theorem assetBlocks_eq_flatMap (tiles : List Tile) (w h f : Nat) :
    assetBlocks tiles w h f = (List.range f).flatMap fun fr => (List.range (ceil8 h)).flatMap fun y8 =>
      (List.range (ceil8 w)).map fun x8 => blockTiles tiles w h fr y8 x8 := by
  simp only [assetBlocks, Nat.mul_assoc]
  rw [range_mul_eq_flatMap, range_mul_eq_flatMap]
  simp only [List.flatMap_assoc, List.flatMap_map, List.map_flatMap, List.map_map]
  refine List.flatMap_congr fun fr _ => List.flatMap_congr fun y8 hy => List.map_congr_left fun x8 hx => ?_
  have hx' : x8 < ceil8 w := List.mem_range.mp hx
  have hy' : y8 < ceil8 h := List.mem_range.mp hy
  have hrow : (ceil8 w * (ceil8 h * fr + y8) + x8) / ceil8 w = ceil8 h * fr + y8 := by
    rw [Nat.mul_add_div (by omega), Nat.div_eq_of_lt hx', Nat.add_zero]
  have hframe : (ceil8 h * fr + y8) / ceil8 h = fr := by
    rw [Nat.mul_add_div (by omega), Nat.div_eq_of_lt hy', Nat.add_zero]
  simp only [Function.comp_apply, hrow, hframe, Nat.mul_add_mod, Nat.mod_eq_of_lt hx', Nat.mod_eq_of_lt hy']

/-- Settles O45: block by block, the spans are the rows and columns of the frame in the block's eight. -/
theorem blocksCoverTheFrameInOrder : Obligations.BlocksCoverTheFrameInOrder := by
  intro tiles w h f
  rw [assetBlocks_eq_flatMap]
  simp only [blockTiles, blockSpan_eq_filter, tileAt, ceil8]

/-! ### The operands of `DUB.ENCODE` (R180, U3) -/

section
variable {s : State} {w h f : Nat}

theorem exec_dubEncode_of_wide (hwide : 2 ^ s.cfg.dimBits ≤ w ∨ 2 ^ s.cfg.dimBits ≤ h ∨ 2 ^ s.cfg.dimBits ≤ f) :
    exec (.dubEncode w h f) s = .refused .dimensionTooWide := by
  have hfits : (dimensionFits s w && dimensionFits s h && dimensionFits s f) = false := by
    simp only [dimensionFits, Bool.and_eq_false_iff, decide_eq_false_iff_not]
    omega
  simp only [exec, execDubEncode]
  rw [hfits, require_false]

variable (hw : w < 2 ^ s.cfg.dimBits) (hh : h < 2 ^ s.cfg.dimBits) (hf : f < 2 ^ s.cfg.dimBits)
include hw hh hf

theorem dimensionFits_all : (dimensionFits s w && dimensionFits s h && dimensionFits s f) = true := by
  simp [dimensionFits, hw, hh, hf]

theorem exec_dubEncode_of_length (hlen : s.tiles.length ≠ w * h * f) :
    exec (.dubEncode w h f) s = .refused .tilesLengthMismatch := by
  simp only [exec, execDubEncode]
  rw [dimensionFits_all hw hh hf, require_true, beq_false_of_ne hlen, require_false]

/-- The end of `DUB.ENCODE` whose loop has left the asset `a` after `n` appends. -/
theorem exec_dubEncode_of_encodeBlocks (hlen : s.tiles.length = w * h * f) {a : Asset} {n : Nat}
    (hloop : encodeBlocks s.cfg (assetBlocks s.tiles w h f) Asset.empty 0 = .ok (a, n)) : exec (.dubEncode w h f) s =
      .next (withAppends .dubEncode n s fun t => commitAsset a.selectIndex (w * h * f) t) := by
  simp only [exec, execDubEncode]
  rw [dimensionFits_all hw hh hf, require_true, beq_iff_eq.mpr hlen, require_true, hloop]

end

/-- Settles O48: the two checks, the dimensions first. -/
theorem assetEncodeRefusesOtherOperands : Obligations.AssetEncodeRefusesOtherOperands :=
  fun _ _ _ _ => ⟨exec_dubEncode_of_wide, exec_dubEncode_of_length⟩

/-! ### The commit (R187, R188, R189) -/

/-- The state in which `DUB.ENCODE` has committed the asset `a` and left the answers `xs` of the oracle. -/
def State.committed (s : State) (a : Asset) (tileCount : Nat) (xs : List Bool) : State :=
  { s with
    blk := Block.fresh
    asset := Asset.empty
    exhaust := xs
    out16 := s.out16 ++ (a.indexRegion ++ a.blockData)
    stat := reportRegisters a tileCount
    result := .out16 (a.indexRegion ++ a.blockData) }

theorem commitAsset_of_grants {s : State} {a : Asset} (hlt : a.indexSize + a.blockData.length < 65536)
    (hg : s.Grants (a.indexRegion ++ a.blockData).length) (tileCount : Nat) : commitAsset a tileCount s =
      s.committed a tileCount (s.exhaust.drop (a.indexRegion ++ a.blockData).length) := by
  rw [commitAsset, overflows_eq_false_iff.mpr hlt, if_neg Bool.false_ne_true]
  exact withAppends_of_grants hg

/-! ### The empty asset (R190) -/

theorem assetBlocks_of_empty (tiles : List Tile) {w h f : Nat} (hzero : w = 0 ∨ h = 0 ∨ f = 0) :
    assetBlocks tiles w h f = [] := by
  rw [← List.length_eq_zero_iff, assetBlocks_length]
  rcases hzero with rfl | rfl | rfl <;> simp [ceil8]

theorem Asset.staged_empty : Asset.empty.selectIndex.indexRegion ++ Asset.empty.selectIndex.blockData = [] := rfl

theorem reportRegisters_empty : reportRegisters Asset.empty.selectIndex 0 = Status.initial := rfl

/-- Settles O49: there is no block, so the loop leaves the empty asset and no append asks the oracle. -/
theorem emptyAssetGivesNoOutput : Obligations.EmptyAssetGivesNoOutput := by
  intro s w h f hw hh hf htiles hzero
  have hcount : w * h * f = 0 := by simpa [or_assoc] using hzero
  have hloop : encodeBlocks s.cfg (assetBlocks s.tiles w h f) Asset.empty 0 = .ok (Asset.empty, 0) := by
    rw [assetBlocks_of_empty s.tiles hzero, encodeBlocks]
  refine ⟨Block.fresh, Asset.empty, ?_⟩
  rw [exec_dubEncode_of_encodeBlocks hw hh hf (by rw [htiles, hcount]; rfl) hloop,
    withAppends_of_grants (State.grants_zero s), hcount, commitAsset_of_grants (by decide) (State.grants_zero _)]
  simp only [State.committed, Asset.staged_empty, reportRegisters_empty, Status.initial, List.append_nil,
    List.length_nil, List.drop_zero]

/-! ### The operation and its finer ones (R186 to R189) -/

section
variable {s : State} {w h f : Nat} {a : Asset} {n : Nat} (hq : s.Quiet)
  (hw : w < 2 ^ s.cfg.dimBits) (hh : h < 2 ^ s.cfg.dimBits) (hf : f < 2 ^ s.cfg.dimBits)
  (hlen : s.tiles.length = w * h * f)
  (hloop : encodeBlocks s.cfg (assetBlocks s.tiles w h f) Asset.empty 0 = .ok (a, n))
include hq hw hh hf hlen hloop

theorem exec_dubEncode_of_lt (hlt : a.selectIndex.indexSize + a.selectIndex.blockData.length < 65536) :
    ∃ xs, exec (.dubEncode w h f) s = .next (s.committed a.selectIndex (w * h * f) xs) := by
  rw [exec_dubEncode_of_quiet hq hw hh hf hlen hloop, overflows_eq_false_iff.mpr hlt]
  exact ⟨_, rfl⟩

theorem exec_dubEncode_of_ge (hge : 65536 ≤ a.selectIndex.indexSize + a.selectIndex.blockData.length) :
    ∃ xs, exec (.dubEncode w h f) s = .next (raiseCondition .dubEncode .tooLarge { s with exhaust := xs }) := by
  rw [exec_dubEncode_of_quiet hq hw hh hf hlen hloop, if_pos (overflows_iff.mpr hge)]
  exact ⟨_, rfl⟩

end

/-- R204: a condition of `DUB.ENCODE` leaves the output as it was. -/
theorem exec_dubEncode_condition_out16 {s t : State} {w h f : Nat} {c : Condition}
    (h : exec (.dubEncode w h f) s = .next t) (hc : t.result = .condition c) : t.out16 = s.out16 := by
  obtain ⟨a, ⟨xs, rfl⟩ | ⟨-, xs, rfl⟩ | ⟨-, xs, rfl⟩⟩ := exec_dubEncode_effect t h
  · rfl
  · rfl
  · cases hc

/-- Settles O46: the finer operations build the asset of the loop, which is committed or is too large. -/
theorem assetEncodeIsItsFinerOperations : Obligations.AssetEncodeIsItsFinerOperations := by
  refine ⟨fun s t w h f c => exec_dubEncode_condition_out16, fun s w h f hq hw hh hf hlen => ?_⟩
  have hsizes : ∀ ts ∈ assetBlocks s.tiles w h f, 1 ≤ ts.length ∧ ts.length ≤ 64 := fun _ => assetBlocks_sizes
  have hquiet : ({ s with asset := Asset.empty } : State).Quiet := hq
  refine ⟨fun hacc => assetByOperations_isSome hacc hquiet hsizes, fun t ht => ?_⟩
  obtain ⟨a, n, hloop, hasset⟩ := assetByOperations_eq hquiet hsizes 0 ht
  rw [hasset]
  have hregion := a.selectIndex_selected.indexRegion_length
  have hword := a.selectIndex.indexRegion_word
  rcases Nat.lt_or_ge (a.selectIndex.indexSize + a.selectIndex.blockData.length) 65536 with hlt | hge
  · obtain ⟨xs, hexec⟩ := exec_dubEncode_of_lt hq hw hh hf hlen hloop hlt
    refine ⟨Block.fresh, Asset.empty, xs, a.selectIndex.indexRegion, hregion, fun k _ => hword k, fun _ => ?_,
      fun hge => by omega⟩
    rw [hexec, State.committed, reportRegisters, statRatio_eq]
  · obtain ⟨xs, hexec⟩ := exec_dubEncode_of_ge hq hw hh hf hlen hloop hge
    exact ⟨Block.fresh, Asset.empty, xs, a.selectIndex.indexRegion, hregion, fun k _ => hword k,
      fun hlt => by omega, fun _ => hexec⟩

theorem indexWords_le (wide : Bool) (n : Nat) : indexWords wide n ≤ n := by
  unfold indexWords
  split <;> omega

/-- The words counted fit their register when the limit is kept. -/
theorem reportRegisters_statWords {a : Asset} (hsel : a.Selected) (hlt : a.indexSize + a.blockData.length < 65536)
    (tileCount : Nat) :
    (reportRegisters a tileCount).statWords.toNat = (a.indexRegion ++ a.blockData).length := by
  rw [List.length_append, hsel.indexRegion_length]
  exact Nat.mod_eq_of_lt hlt

/-- Settles O47: a block adds at most 104 words of payload and one of index. -/
theorem assetEncodeCompletesBelowTheLimit : Obligations.AssetEncodeCompletesBelowTheLimit := by
  intro s w h f hq hacc hw hh hf hlen hlimit
  obtain ⟨a, n, hloop, hdata, hoffsets⟩ := encodeBlocks_completes hacc
    (bs := assetBlocks s.tiles w h f) (fun _ => assetBlocks_sizes) Asset.empty 0
  have hcount : 105 * (assetBlocks s.tiles w h f).length < 65536 := by rw [assetBlocks_length]; exact hlimit
  have hindex : a.selectIndex.indexSize ≤ a.offsets.length := indexWords_le _ _
  have hlt : a.selectIndex.indexSize + a.selectIndex.blockData.length < 65536 := by
    simp only [Asset.empty, List.length_nil] at hdata hoffsets
    rw [Asset.selectIndex_blockData]
    omega
  obtain ⟨xs, hexec⟩ := exec_dubEncode_of_lt hq hw hh hf hlen hloop hlt
  exact ⟨_, _, xs, _, _, hexec, rfl, rfl, reportRegisters_statWords a.selectIndex_selected hlt _⟩

/-! ### From the index to the payloads (R191) -/

/-- An entry of the index region reads its packed value, as far as the entry's width goes. -/
theorem Asset.indexEntry_indexRegion (a : Asset) {i : Nat} (hi : i < a.packed.length) (rest : List Word) :
    indexEntry a.isIndex16 (a.indexRegion ++ rest) i = a.packed.getD i 0 % if a.isIndex16 then 65536 else 256 := by
  cases hwide : a.isIndex16 with
  | true =>
    have hword : i < a.indexRegion.length := by simpa [Asset.indexRegion, hwide] using hi
    rw [indexEntry, if_pos rfl, List.getD_append _ _ _ _ hword, a.indexRegion_word, if_pos hwide, if_pos rfl]
  | false =>
    have hregion : a.indexRegion = wordsOfBytes (a.packed.map (BitVec.ofNat 8)) := by simp [Asset.indexRegion, hwide]
    have hword : i / 2 < (wordsOfBytes (a.packed.map (BitVec.ofNat 8))).length := by
      rw [wordsOfBytes_length, List.length_map]
      omega
    simp only [indexEntry, Bool.false_eq_true, if_false, hregion]
    rw [List.getD_append _ _ _ _ hword, wordsOfBytes_byte _ _ (by simpa using hi)]
    simp [hi]

/-- The packed values of the form taken fit its entries (R185, R187). -/
theorem Asset.Selected.packed_lt {a : Asset} (hsel : a.Selected) {i o : Nat} (ho : a.offsets[i]? = some o)
    (hlt : a.indexSize + o < 65536) :
    a.indexSize + o - nextWord a.isIndex16 i < if a.isIndex16 then 65536 else 256 := by
  cases hwide : a.isIndex16 with
  | true => rw [if_pos rfl]; omega
  | false =>
    have hprobe : ¬ needsIndex16 a.offsets = true := by rw [← hsel.wide, hwide]; exact Bool.false_ne_true
    rw [needsIndex16_iff] at hprobe
    rw [hsel.size, hwide, if_neg Bool.false_ne_true]
    exact Nat.lt_of_not_le fun hge => hprobe ⟨i, o, ho, hge⟩

/-- The entry of a block leads from the word after its slot to its offset behind the index region. -/
theorem Asset.Selected.nextWord_add_indexEntry {a : Asset} (hsel : a.Selected) {i o : Nat}
    (ho : a.offsets[i]? = some o) (hlt : a.indexSize + o < 65536) (rest : List Word) :
    nextWord a.isIndex16 i + indexEntry a.isIndex16 (a.indexRegion ++ rest) i = a.indexSize + o := by
  have hi : i < a.offsets.length := (List.getElem?_eq_some_iff.mp ho).1
  have hnext := nextWord_le_indexWords (wide := a.isIndex16) hi
  rw [← hsel.size] at hnext
  have hpacked : a.packed.getD i 0 = a.indexSize + o - nextWord a.isIndex16 i := by
    rw [List.getD_eq_getElem?_getD, hsel.packed, packedIndex_of_offset ho, hsel.size, Option.getD_some]
  have hlength : i < a.packed.length := by rwa [hsel.packed, packedIndex_length]
  rw [a.indexEntry_indexRegion hlength, hpacked, Nat.mod_eq_of_lt (hsel.packed_lt ho hlt)]
  omega

/-- The end of `DUB.ENCODE` with output words: the loop's asset was committed below the limit. -/
theorem exec_dubEncode_of_out16 {s t : State} {w h f : Nat} {out : List Word}
    (hexec : exec (.dubEncode w h f) s = .next t) (hres : t.result = .out16 out) : ∃ a n xs,
      encodeBlocks s.cfg (assetBlocks s.tiles w h f) Asset.empty 0 = .ok (a, n) ∧
      a.selectIndex.indexSize + a.blockData.length < 65536 ∧
      out = a.selectIndex.indexRegion ++ a.blockData ∧ t = s.committed a.selectIndex (w * h * f) xs := by
  obtain ⟨-, -, ⟨xs, rfl⟩ | ⟨a, n, hloop, ⟨xs, rfl⟩ | ⟨-, xs, rfl⟩ | ⟨hlt, xs, rfl⟩⟩⟩ := exec_dubEncode t hexec
  · cases hres
  · cases hres
  · cases hres
  · exact ⟨a, n, xs, hloop, hlt, (Result.out16.inj hres).symm, rfl⟩

/-- Settles O50: the entry of a block leads to its offset, where the store's payload stands in the block data. -/
theorem indexLeadsToEveryPayload : Obligations.IndexLeadsToEveryPayload := by
  intro s t w h f out hexec hres
  obtain ⟨a, n, xs, hloop, hlt, rfl, rfl⟩ := exec_dubEncode_of_out16 hexec hres
  have hsel := a.selectIndex_selected
  refine ⟨(reportRegisters_statWords hsel hlt _).symm, rfl, fun i ts hts => ?_⟩
  obtain ⟨hinv, -, -, -, hblocks⟩ := encodeBlocks_ok hloop Asset.Inv.empty
  obtain ⟨b, o, hrun, ho, hstored⟩ := hblocks i ts hts
  obtain ⟨hend, hpayload⟩ := hinv.payload_at hstored
  have ho' : a.selectIndex.offsets[i]? = some o := by simpa [Asset.empty] using ho
  have hlead := hsel.nextWord_add_indexEntry ho' (by omega) a.blockData
  have hsize : (s.committed a.selectIndex (w * h * f) xs).stat.indexSize.toNat = a.selectIndex.indexSize :=
    Nat.mod_eq_of_lt (by omega)
  have hflag : (s.committed a.selectIndex (w * h * f) xs).stat.isIndex16 = a.selectIndex.isIndex16 := rfl
  refine ⟨b, hrun, ?_⟩
  rw [hflag, hsize, hlead, ← hsel.indexRegion_length, List.drop_length_add_append]
  exact ⟨Nat.le_add_right _ _, hpayload⟩

end Sys2Proof.Machine
end

section
/-! Precise conditions (R209): which condition an instruction can end by, and what it leaves when it does. -/
namespace Sys2Proof.Machine

/-! ### Each effect that returns a condition is the entry of that condition -/

theorem Result.isValue.ne_condition {r : Result} (h : r.isValue) (c : Condition) : r ≠ .condition c := by
  rintro rfl
  exact h

section
variable {s t : State} {c : Condition} (hc : t.result = .condition c)
include hc

theorem AdpcmEffect.exhausted_of_condition {i : Instr} (h : AdpcmEffect i s t) : ExhaustedAt s t := by
  refine h.resolve_right ?_
  rintro ⟨a, o, bytes, status, xs, r, -, -, -, hr, rfl⟩
  exact hr.ne_condition c hc

theorem BlockEffect.exhausted_of_condition (h : BlockEffect s t) : ExhaustedAt s t := by
  refine h.resolve_right ?_
  rintro ⟨b, xs, r, -, hr, rfl⟩
  exact hr.ne_condition c hc

theorem AssetEffect.exhausted_of_condition (h : AssetEffect s t) : ExhaustedAt s t := by
  refine h.resolve_right ?_
  rintro ⟨a, xs, r, -, hr, rfl⟩
  exact hr.ne_condition c hc

theorem IndexEffect.exhausted_of_condition (h : IndexEffect s t) : ExhaustedAt s t := by
  refine h.resolve_right ?_
  rintro ⟨ws, xs, rfl⟩
  cases hc

/-- The condition is one of the two that `DUB.ENCODE` can take (R201). -/
theorem EncodeEffect.condition {a : Asset} {n : Nat} (h : EncodeEffect a n s t) :
    (c = .resourceExhausted ∨ c = .tooLarge) ∧ EncodeCondition c s t := by
  obtain ⟨xs, rfl⟩ | ⟨-, xs, rfl⟩ | ⟨-, xs, rfl⟩ := h
  · cases hc
    exact ⟨.inl rfl, xs, rfl⟩
  · cases hc
    exact ⟨.inr rfl, xs, rfl⟩
  · cases hc

/-! ### Every instruction -/

/-- The system operations take no condition. -/
theorem unitOf_ne_sys_of_condition {i : Instr} (h : exec i s = .next t) : unitOf i ≠ .sys := by
  intro hu
  obtain rfl | rfl := unitOf_sys hu
  · obtain rfl := done_eq_next.mp h
    cases hc
  · obtain rfl := done_eq_next.mp h
    cases hc

theorem exec_exhausted_of_condition {i : Instr} (hd : unitOf i ≠ .encode) (h : exec i s = .next t) :
    ExhaustedAt s t := by
  obtain ⟨-, he⟩ | ⟨-, he⟩ | ⟨-, he⟩ | ⟨-, he⟩ := exec_finer h (unitOf_ne_sys_of_condition hc h) hd
  · exact he.exhausted_of_condition hc
  · exact he.exhausted_of_condition hc
  · exact he.exhausted_of_condition hc
  · exact he.exhausted_of_condition hc

end

/-- Settles O54: `DUB.ENCODE` enters one of its two conditions with its scoped state released, and any other instruction
the condition of a refused append with nothing discarded. -/
theorem conditionsArePrecise : Obligations.ConditionsArePrecise := by
  intro i s t c h hc
  by_cases hd : unitOf i = .encode
  · obtain ⟨w, v, f, rfl⟩ := unitOf_encode hd
    obtain ⟨a, he⟩ := exec_dubEncode_effect t h
    obtain ⟨hcond, xs, rfl⟩ := he.condition hc
    exact ⟨hcond.imp_right fun e => ⟨e, w, v, f, rfl⟩, s.opt, Block.fresh, Asset.empty, rfl, fun _ => rfl,
      fun hne => absurd rfl (hne w v f)⟩
  · obtain ⟨-, xs, rfl⟩ := exec_exhausted_of_condition hc hd h
    cases hc
    exact ⟨.inl rfl, s.opt, s.blk, s.asset, rfl, fun _ => rfl, fun _ => ⟨rfl, rfl⟩⟩

end Sys2Proof.Machine
end

section
/-! Refused appends (R203, R204): each operation that appends ends in `State.exhausted` when the oracle refuses one of
its appends. -/
namespace Sys2Proof.Machine

/-! ### The oracle's answers one after the other -/

/-- The answers granted to a first and to a second part of an operation are those granted to the whole. -/
theorem State.grants_add {s : State} {m n : Nat} (hm : s.Grants m)
    (hn : ({ s with exhaust := s.exhaust.drop m } : State).Grants n) : s.Grants (m + n) := by
  intro a ha
  rw [List.take_add] at ha
  exact (List.mem_append.mp ha).elim (hm a) (hn a)

/-- Granted answers do not change where the first refusal stands. -/
theorem State.afterRefusal_drop {s : State} {n : Nat} (h : s.Grants n) :
    ({ s with exhaust := s.exhaust.drop n } : State).afterRefusal = s.afterRefusal := by
  have hskip := List.dropWhile_append_of_pos (p := (! ·)) (l₁ := s.exhaust.take n) (l₂ := s.exhaust.drop n)
    fun a ha => by rw [h a ha]; rfl
  rw [List.take_append_drop] at hskip
  exact congrArg List.tail hskip.symm

/-! ### Bytes of `OUT8` and words of `OUT16` -/

section
variable {s : State}

theorem exec_adpcmPair_of_refuses (x0 x1 : Sample) (h : s.adpcm.half = false) (hg : ¬ s.Grants 1) :
    exec (.adpcmPair x0 x1) s = .next s.exhausted := by
  simp only [exec, execAdpcmPair]
  rw [h, Bool.not_false, require_true, Adpcm.pair_length h]
  exact congrArg Host.Outcome.next (withAppends_of_refuses hg)

theorem exec_adpcmBody_of_refuses {len : BitVec 32} (h : s.adpcm.half = false) (hl : len.toNat ≤ s.in8.length)
    (hg : ¬ s.Grants ((len.toNat / 2 + 1) / 2)) : exec (.adpcmBody len) s = .next s.exhausted := by
  simp only [exec, execAdpcmBody]
  rw [h, Bool.not_false, require_true, inputPresent_of_le hl, require_true, Adpcm.body_inputSamples_length _ hl h]
  exact congrArg Host.Outcome.next (withAppends_of_refuses hg)

theorem exec_adpcmHeader_of_refuses (hg : ¬ s.Grants 3) : exec .adpcmHeader s = .next s.exhausted :=
  congrArg Host.Outcome.next (withAppends_of_refuses (n := s.adpcm.codec.headerBytes.length) hg)

theorem exec_adpcmBodyByte_of_refuses (h l : Nybble) (hg : ¬ s.Grants 1) :
    exec (.adpcmBodyByte h l) s = .next s.exhausted := congrArg Host.Outcome.next (withAppends_of_refuses hg)

theorem exec_adpcmHeaderBytes_of_refuses (x : Sample) {b : BitVec 8} (hb : b.toNat ≤ 88) (hg : ¬ s.Grants 3) :
    exec (.adpcmHeaderBytes x b) s = .next s.exhausted := by
  simp only [exec, execAdpcmHeaderBytes]
  rw [indexOperand_of_le hb, orRefuse_ok]
  exact congrArg Host.Outcome.next (withAppends_of_refuses hg)

theorem exec_dubIndex8_of_refuses (h l : BitVec 8) (hg : ¬ s.Grants 1) :
    exec (.dubIndex8 h l) s = .next s.exhausted := congrArg Host.Outcome.next (withAppends_of_refuses hg)

theorem exec_dubIndex16_of_refuses (p : BitVec 16) (hg : ¬ s.Grants 1) :
    exec (.dubIndex16 p) s = .next s.exhausted := congrArg Host.Outcome.next (withAppends_of_refuses hg)

/-! ### Entries and words of the asset (R182) -/

theorem exec_dubDedup_of_refuses {p : List Word} (hg : ¬ s.Grants (s.asset.dedupAppends p)) :
    exec (.dubDedup p) s = .next s.exhausted := congrArg Host.Outcome.next (withAppends_of_refuses hg)

theorem Asset.dedupAppends_of_new {a : Asset} {p : List Word} (h : ∀ e ∈ a.store, e.1 ≠ p) :
    a.dedupAppends p = p.length + 2 := by
  rw [Asset.dedupAppends, storeLookup_none.mpr h]

/-- A stored payload is found, whichever of its entries the lookup takes, and only the index entry is appended. -/
theorem Asset.dedupAppends_of_stored {a : Asset} {p : List Word} {o : Nat} (h : (p, o) ∈ a.store) :
    a.dedupAppends p = 1 := by
  cases hlookup : storeLookup p a.store with
  | none => exact absurd rfl (storeLookup_none.mp hlookup _ h)
  | some o' => rw [Asset.dedupAppends, hlookup]

/-! ### Bits of the accumulators (R63) -/

theorem exec_bbAppend_of_refuses (v : BitVec 32) {n : BitVec 8} (hn : n.toNat ≤ 32)
    (hg : ¬ s.Grants (s.roomAsks n.toNat)) : exec (.bbAppend v n) s = .next s.exhausted := by
  rw [← bitsOf_length n.toNat v.toNat, State.roomAsks_length] at hg
  rw [exec_bbAppend_of_le v hn]
  exact extendAccumulator_of_refuses hg

theorem exec_bbAppendVar_of_refuses (v : BitVec 32) {chunk : BitVec 8} (h1 : 1 ≤ chunk.toNat) (h32 : chunk.toNat ≤ 32)
    (hg : ¬ s.Grants (s.roomAsks (varField chunk.toNat v.toNat).length)) :
    exec (.bbAppendVar v chunk) s = .next s.exhausted := by
  rw [exec_bbAppendVar_of_le v h1 h32]
  exact extendAccumulator_of_refuses hg

section
variable {ty : CodeType} {v : BitVec 32} (hcode : codeRefusal (codeOperand ty v) = none)
include hcode

theorem exec_dubPack_of_refuses (hg : ¬ s.Grants (s.roomAsks (codeBits (codeOperand ty v)).length)) :
    exec (.dubPack ty v) s = .next s.exhausted := by
  rw [exec_dubPack_of_code hcode]
  exact extendAccumulator_of_refuses hg

theorem exec_dubCodeLen_of_refuses (hg : ¬ s.Grants (bitAsks s.cfg (codeLen (codeOperand ty v)))) :
    exec (.dubCodeLen ty v) s = .next s.exhausted := by
  simp only [exec, execDubCodeLen, hcode]
  exact measured_of_refuses hg

end

theorem exec_dubChoose_of_refuses (tile : Tile) (hg : ¬ s.Grants (bitAsks s.cfg (chooseBits s.blk.dict tile))) :
    exec (.dubChoose tile) s = .next s.exhausted := measured_of_refuses hg

theorem exec_codeForm_of_refuses {neg : Bool} {m : Nat} {f : Instr × Nat × List Bool × Bool} (hf : f ∈ codeForms neg m)
    (hp : f.2.2.2 = true) (hg : ¬ s.Grants (s.roomAsks (f.2.2.1.length + 4 * f.2.1))) :
    exec f.1 s = .next s.exhausted := by
  have hm : m < 8 ^ f.2.1 := (minimalGroups_iff.mp (minimalGroups_of_codeForm hf hp)).1
  rw [← groupBits_length f.2.1 m, ← List.length_append, State.roomAsks_length] at hg
  rw [exec_codeForm s hf hm, hp, packForm, require_true]
  exact extendAccumulator_of_refuses hg

/-! ### Accumulators that do not ask (the list of R203) -/

section
variable (hlist : s.cfg.exhaustAccumulators = false)
include hlist

theorem bitAsks_of_list (n : Nat) : bitAsks s.cfg n = 0 := by
  rw [bitAsks, hlist, if_neg Bool.false_ne_true]

theorem extendAccumulator_isValue (bits : List Bool) : Ends (extendAccumulator bits s) (·.result.isValue) := by
  intro t ht
  have hasks : s.blk.appendAsks s.cfg bits = 0 := bitAsks_of_list hlist _
  rw [extendAccumulator, hasks, endRun_of_grants (State.grants_zero s)] at ht
  cases happend : s.blk.appendBits s.cfg bits with
  | ok b =>
    rw [happend] at ht
    cases ht
    exact trivial
  | error r =>
    rw [happend] at ht
    cases ht

theorem measured_isValue {n : Nat} {r : Result} (hr : r.isValue) : Ends (measured n r s) (·.result.isValue) := by
  intro t ht
  rw [measured_of_grants (by rw [bitAsks_of_list hlist]; exact State.grants_zero s)] at ht
  cases ht
  exact hr

/-- The operations that only put bits either extend the accumulator or measure. -/
theorem exec_isValue_of_growsOnlyBits {i : Instr} (hi : i.growsOnlyBits = true) :
    Ends (exec i s) (·.result.isValue) := by
  have hextend := extendAccumulator_isValue hlist
  cases i
  case bbAppend v n => exact .require (hextend _)
  case bbAppendVar v c => exact .require (.require (hextend _))
  case dubPack ty v =>
    simp only [exec, execDubPack, packCode]
    split
    · exact .refused _
    · exact hextend _
  case dubCodeLen ty v =>
    simp only [exec, execDubCodeLen]
    split
    · exact .refused _
    · exact measured_isValue hlist trivial
  case dubChoose tile => exact measured_isValue hlist trivial
  case dubDeltaG1 n m => exact .require (hextend _)
  case dubDeltaG2 n m => exact .require (hextend _)
  case dubDeltaG3 n m => exact .require (hextend _)
  case dubDeltaG4 n m => exact .require (hextend _)
  case dubDeltaG5 n m => exact .require (hextend _)
  case dubDeltaG6 n m => exact .require (hextend _)
  case dubRefG1 v => exact .require (hextend _)
  case dubRefG2 v => exact .require (hextend _)
  case dubRepeatG1 v => exact .require (hextend _)
  case dubRepeatG2 v => exact .require (hextend _)
  all_goals cases hi

end

/-! ### Tiles, ends of blocks and blocks (R158, R160, R161) -/

/-- A tile that ends with the default oracle is a run with a result. -/
theorem tile_of_exec_silent {tile : Tile} {u : State} (h : exec (.dubTile tile) s.silent = .next u) :
    s.blk.tile s.cfg tile = .ok u.blk := by
  cases hrun : s.blk.tile s.cfg tile with
  | error stop => cases (exec_dubTile_of_error s.quiet_silent hrun).symm.trans h
  | ok b =>
    cases (exec_dubTile_of_ok s.quiet_silent hrun).symm.trans h
    rfl

theorem finish_of_exec_silent {u : State} (h : exec .dubBlockEnd s.silent = .next u) :
    s.blk.finish s.cfg = .ok u.blk := by
  cases hrun : s.blk.finish s.cfg with
  | error stop => cases (exec_dubBlockEnd_of_error s.quiet_silent hrun).symm.trans h
  | ok b =>
    cases (exec_dubBlockEnd_of_ok s.quiet_silent hrun).symm.trans h
    rfl

/-- What a tile or the end of a block has appended with the default oracle is what it asks the oracle for. -/
theorem exec_dubTile_of_refuses {tile : Tile} {u : State} (h : exec (.dubTile tile) s.silent = .next u)
    (hg : ¬ s.Grants (u.blk.appendsSince s.blk + bitAsks s.cfg (s.bitsPut u (.dubTile tile)))) :
    exec (.dubTile tile) s = .next s.exhausted := by
  have hrun := tile_of_exec_silent h
  rw [State.bitsPut_tile, ← (Block.tileAsks_of_ok hrun).2] at hg
  simp only [exec, execDubTile]
  rw [hrun]
  exact endBlock_of_refuses hg

theorem exec_dubBlockEnd_of_refuses {u : State} (h : exec .dubBlockEnd s.silent = .next u)
    (hg : ¬ s.Grants (u.blk.appendsSince s.blk + bitAsks s.cfg (s.bitsPut u .dubBlockEnd))) :
    exec .dubBlockEnd s = .next s.exhausted := by
  have hrun := finish_of_exec_silent h
  rw [State.bitsPut_end, ← Block.finishAsks_of_ok hrun] at hg
  simp only [exec, execDubBlockEnd]
  rw [hrun]
  exact endBlock_of_refuses hg

theorem exec_dubBlock_of_refuses {ts : List Tile} (h1 : 1 ≤ ts.length) (h64 : ts.length ≤ 64)
    (hg : ¬ s.Grants ((runBlock s.cfg ts).reached.appendsSince Block.fresh + runBlockAsks s.cfg ts)) :
    exec (.dubBlock ts) s = .next s.exhausted := by
  simp only [exec, execDubBlock]
  rw [decide_eq_true h1, decide_eq_true h64, Bool.and_self, require_true]
  exact endBlock_of_refuses hg

/-! ### Assets (R188) -/

/-- The operations of the blocks `bs` issued one by one count the appends of the loop of `DUB.ENCODE` over them. -/
theorem encodeBlocks_of_assetByOperations {bs : List (List Tile)} (hsizes : ∀ ts ∈ bs, 1 ≤ ts.length ∧ ts.length ≤ 64)
    {t : State} (h : assetByOperations bs { s.silent with asset := Asset.empty } = some t) :
    ∃ a, encodeBlocks s.cfg bs Asset.empty 0 = .ok (a, s.assetAppends bs t.asset) ∧ t.asset = a.selectIndex := by
  obtain ⟨a, n, hloop, hasset⟩ :=
    assetByOperations_eq (s := { s.silent with asset := Asset.empty }) s.quiet_silent hsizes 0 h
  replace hloop : encodeBlocks s.cfg bs Asset.empty 0 = .ok (a, n) := hloop
  have hcount : n = s.assetAppends bs a := (encodeBlocks_appends hsizes hloop).trans (Nat.zero_add _)
  refine ⟨a, ?_, hasset⟩
  rw [hloop, hcount, hasset]
  rfl

theorem commitAsset_of_refuses {a : Asset} (hlt : a.indexSize + a.blockData.length < 65536)
    (hg : ¬ s.Grants (a.indexRegion ++ a.blockData).length) (tileCount : Nat) : commitAsset a tileCount s =
      { s.exhausted with blk := Block.fresh, asset := Asset.empty } := by
  rw [commitAsset, overflows_eq_false_iff.mpr hlt, if_neg Bool.false_ne_true]
  exact withAppends_of_refuses hg

variable {w h f : Nat} (hw : w < 2 ^ s.cfg.dimBits) (hh : h < 2 ^ s.cfg.dimBits) (hf : f < 2 ^ s.cfg.dimBits)
  (hlen : s.tiles.length = w * h * f)
include hw hh hf hlen

/-- A refusal in the block `ts`, whatever comes after it. -/
theorem exec_dubEncode_of_block_refuses {bs1 bs2 : List (List Tile)} {ts : List Tile} {js : List Instr} {t u : State}
    (hblocks : assetBlocks s.tiles w h f = bs1 ++ ts :: bs2)
    (ht : assetByOperations bs1 { s.silent with asset := Asset.empty } = some t)
    (hjs : js <+: ts.map .dubTile ++ [.dubBlockEnd]) (hu : runAll (.dubBlockBegin :: js) t = .next u)
    (hg : ¬ s.Grants (s.assetAppends bs1 t.asset + (u.blk.dict.length + u.blk.payload.length +
      bitAsks s.cfg (State.runBits (.dubBlockBegin :: js) t)))) :
    exec (.dubEncode w h f) s = .next { s.exhausted with blk := Block.fresh, asset := Asset.empty } := by
  have hsizes : ∀ us ∈ bs1, 1 ≤ us.length ∧ us.length ≤ 64 := fun us hus =>
    assetBlocks_sizes (hblocks ▸ List.mem_append_left _ hus)
  obtain ⟨hquiet, hcfg⟩ :=
    assetByOperations_frame (s := { s.silent with asset := Asset.empty }) s.quiet_silent hsizes ht
  replace hcfg : t.cfg = s.cfg := hcfg
  obtain ⟨a, hloop, -⟩ := encodeBlocks_of_assetByOperations hsizes ht
  have hblock := blockOperations_appends hquiet hjs hu
  rw [hcfg] at hblock
  have hwhole := encodeAppends_of_append (cs := bs2) (ts := ts) hloop
  rw [← hblocks] at hwhole
  exact exec_dubEncode_of_refuses hw hh hf hlen fun hgrants =>
    hg (hgrants.mono ((Nat.add_le_add_left hblock _).trans hwhole))

/-- A refusal after the blocks is one of the staged words, which an asset that is too large does not have. -/
theorem exec_dubEncode_of_asset_refuses {t : State}
    (ht : assetByOperations (assetBlocks s.tiles w h f) { s.silent with asset := Asset.empty } = some t)
    (hg : ¬ s.Grants (s.assetAppends (assetBlocks s.tiles w h f) t.asset +
      if t.asset.indexSize + t.asset.blockData.length < 65536 then t.asset.indexSize + t.asset.blockData.length
      else 0)) :
    exec (.dubEncode w h f) s = .next { s.exhausted with blk := Block.fresh, asset := Asset.empty } := by
  obtain ⟨a, hloop, hasset⟩ := encodeBlocks_of_assetByOperations (fun _ => assetBlocks_sizes) ht
  by_cases hblocks : s.Grants (s.assetAppends (assetBlocks s.tiles w h f) t.asset)
  · rw [exec_dubEncode_of_encodeBlocks hw hh hf hlen hloop, withAppends_of_grants hblocks, ← hasset]
    have hstaged :
        (t.asset.indexRegion ++ t.asset.blockData).length = t.asset.indexSize + t.asset.blockData.length := by
      rw [List.length_append, hasset, a.selectIndex_selected.indexRegion_length]
    split at hg
    case isTrue hlt =>
      rw [commitAsset_of_refuses hlt (by rw [hstaged]; exact fun hgrants => hg (State.grants_add hblocks hgrants)),
        State.exhausted, State.afterRefusal_drop hblocks, State.exhausted]
    case isFalse => exact absurd hblocks hg
  · exact exec_dubEncode_of_refuses hw hh hf hlen (by rw [hloop]; exact hblocks)

end

/-- Settles O53: operation by operation, the appends asked for are those counted. -/
theorem refusedAppendUndoesTheOperation : Obligations.RefusedAppendUndoesTheOperation := by
  intro s
  refine ⟨fun c => exec_adpcmPut_of_refuses c, exec_adpcmPair_of_refuses, fun _ => exec_adpcmBody_of_refuses,
    exec_adpcmHeader_of_refuses, fun len hl hg => ⟨s.opt, exec_adpcmEncode_of_refuses hl hg⟩,
    exec_adpcmBodyByte_of_refuses, fun x _ => exec_adpcmHeaderBytes_of_refuses x, fun hg => ?flush,
    fun hg => ?flushFinal, fun p hnew hg => ?dedupNew, fun p o hstored hg => ?dedupStored, exec_dubIndex8_of_refuses,
    exec_dubIndex16_of_refuses, fun v _ => exec_bbAppend_of_refuses v, fun v _ => exec_bbAppendVar_of_refuses v,
    fun ty v hty => ?code, exec_dubChoose_of_refuses, fun neg m f => exec_codeForm_of_refuses, fun hlist i t c hi ht => ?list,
    fun i u hi hu hg => ?tile, fun ts js u h1 h64 hjs hu hg => ?block,
    fun w h f hw hh hf hlen => ⟨fun bs1 bs2 ts js t u hblocks ht hjs hu hg => ?assetBlock, fun t ht hg => ?asset⟩⟩
  case flush =>
    rw [← Block.flushWords_length] at hg
    exact exec_bbFlush_of_refuses hg
  case flushFinal =>
    rw [← Block.flushFinalWords_length] at hg
    exact exec_bbFlushFinal_of_refuses hg
  case dedupNew =>
    rw [← Asset.dedupAppends_of_new hnew] at hg
    exact exec_dubDedup_of_refuses hg
  case dedupStored =>
    rw [← Asset.dedupAppends_of_stored hstored] at hg
    exact exec_dubDedup_of_refuses hg
  case code =>
    have hcode := codeRefusal_eq_none hty
    exact ⟨exec_dubPack_of_refuses hcode, exec_dubCodeLen_of_refuses hcode⟩
  case list => exact (exec_isValue_of_growsOnlyBits hlist hi t ht).ne_condition c
  case tile =>
    obtain rfl | ⟨tile, rfl⟩ := hi
    · exact exec_dubBlockEnd_of_refuses hu hg
    · exact exec_dubTile_of_refuses hu hg
  case block =>
    exact exec_dubBlock_of_refuses h1 h64 fun hgrants =>
      hg (hgrants.mono (blockOperations_appends s.quiet_silent hjs hu))
  case assetBlock => exact ⟨_, _, exec_dubEncode_of_block_refuses hw hh hf hlen hblocks ht hjs hu hg⟩
  case asset => exact ⟨_, _, exec_dubEncode_of_asset_refuses hw hh hf hlen ht hg⟩

end Sys2Proof.Machine
end

section
/-! Reset and hazards (70_reset_and_hazards.md): the system operations (R220, R213), the step (R223, R247), and what the two
top-level operations append and leave whatever the launch state (R222). -/
namespace Sys2Proof.Machine

/-! ### What `ADPCM.ENCODE` works out from `IN8` and the parameters (R222) -/

section
variable {s1 s2 : State} (hin : s1.in8 = s2.in8) (hcfg : s1.cfg = s2.cfg) (len : BitVec 32)
include hin

theorem inputSamples_congr : inputSamples s1 len = inputSamples s2 len := by
  rw [inputSamples, hin, inputSamples]

include hcfg

theorem State.optimised_congr : s1.optimised len = s2.optimised len := by
  rw [State.optimised, State.icPrefix, hcfg, inputSamples_congr hin len, State.optimised, State.icPrefix]

/-- The optimiser registers are read nowhere in finding the initial condition. -/
theorem State.encodeIc_fst_congr : (s1.encodeIc len).1 = (s2.encodeIc len).1 := by
  rcases Nat.lt_or_ge len.toNat 4 with h4 | h4
  · rw [State.encodeIc_of_lt h4, State.encodeIc_of_lt h4]
  · rw [State.encodeIc_of_le h4, State.encodeIc_of_le h4, State.optimised_congr hin hcfg len]

/-- A body starts from the initial condition and an empty latch, so only the bits held in the latch can differ. -/
theorem State.bodyFrom_congr (ic : Codec) : (s1.bodyFrom len ic).2 = (s2.bodyFrom len ic).2 ∧
    (s1.bodyFrom len ic).1.codec = (s2.bodyFrom len ic).1.codec := by
  rw [State.bodyFrom, hcfg, inputSamples_congr hin len, State.bodyFrom]
  exact Adpcm.body_congr _ _ _ _ (Adpcm.setIc_half ..) (Adpcm.setIc_half ..)
    ((Adpcm.setIc_codec ..).trans (Adpcm.setIc_codec ..).symm)

end

theorem State.bodyFrom_half (s : State) (len : BitVec 32) (ic : Codec) : (s.bodyFrom len ic).1.half = false :=
  (Adpcm.body_length _ _ _ (Adpcm.setIc_half ..)).2

/-- The one way `ADPCM.ENCODE` ends under an oracle that refuses nothing. -/
theorem exec_adpcmEncode_of_quiet {s t : State} {len : BitVec 32} (hq : s.Quiet)
    (hexec : exec (.adpcmEncode len) s = .next t) :
    t = ({ s with opt := (s.encodeIc len).2, stat := { s.stat with status := .ok } } : State).emitted
      (s.bodyFrom len (s.encodeIc len).1).1 (s.bytesFrom len (s.encodeIc len).1)
      (.out8 (s.bytesFrom len (s.encodeIc len).1)) := by
  rcases Nat.lt_or_ge s.in8.length len.toNat with hshort | hl
  · rw [exec_adpcmEncode_of_short hshort] at hexec
    cases hexec
  · rw [exec_adpcmEncode_of_grants hl rfl (State.grants_of_quiet hq _)] at hexec
    exact (Host.Outcome.next.inj hexec).symm

/-- Settles O27: the initial condition and the body from it are worked out from `IN8` and the parameters. -/
theorem encodeDoesNotDependOnTheLaunchState : Obligations.EncodeDoesNotDependOnTheLaunchState := by
  intro s1 s2 t1 t2 len hin hcfg hq1 hq2 hexec1 hexec2
  obtain rfl := exec_adpcmEncode_of_quiet hq1 hexec1
  obtain rfl := exec_adpcmEncode_of_quiet hq2 hexec2
  rw [State.encodeIc_fst_congr hin hcfg len]
  obtain ⟨hbytes, hcodec⟩ := State.bodyFrom_congr hin hcfg len (s2.encodeIc len).1
  have hstaged : s1.bytesFrom len (s2.encodeIc len).1 = s2.bytesFrom len (s2.encodeIc len).1 := by
    rw [State.bytesFrom, hbytes, State.bytesFrom]
  exact ⟨_, congrArg (s1.out8 ++ ·) hstaged, rfl, hcodec, s1.bodyFrom_half len _, s2.bodyFrom_half len _, rfl, rfl⟩

/-! ### What `DUB.ENCODE` works out from `TILES` and the parameters (R222) -/

/-- Under an oracle that refuses nothing `DUB.ENCODE` ends only where every block has a result. -/
theorem encodeBlocks_ok_of_exec {s t : State} {w h f : Nat} (hq : s.Quiet)
    (hexec : exec (.dubEncode w h f) s = .next t) :
    ∃ a n, encodeBlocks s.cfg (assetBlocks s.tiles w h f) Asset.empty 0 = .ok (a, n) := by
  obtain ⟨⟨hw, hh, hf⟩, hlen, -⟩ := exec_dubEncode t hexec
  cases hloop : encodeBlocks s.cfg (assetBlocks s.tiles w h f) Asset.empty 0 with
  | ok e => exact ⟨e.1, e.2, rfl⟩
  | error stop =>
    simp only [exec, execDubEncode] at hexec
    rw [dimensionFits_all hw hh hf, require_true, beq_iff_eq.mpr hlen, require_true, hloop] at hexec
    cases (stopAfterAppends_of_grants (State.grants_of_quiet hq _)).symm.trans hexec

/-- Settles O51: the two loops leave one asset, which both operations commit or find too large. -/
theorem assetEncodeDoesNotDependOnTheLaunchState : Obligations.AssetEncodeDoesNotDependOnTheLaunchState := by
  intro s1 s2 t1 t2 w h f htiles hcfg hq1 hq2 hexec1 hexec2
  obtain ⟨⟨hw1, hh1, hf1⟩, hlen1, -⟩ := exec_dubEncode t1 hexec1
  obtain ⟨⟨hw2, hh2, hf2⟩, hlen2, -⟩ := exec_dubEncode t2 hexec2
  obtain ⟨a, n, hloop2⟩ := encodeBlocks_ok_of_exec hq2 hexec2
  have hloop1 : encodeBlocks s1.cfg (assetBlocks s1.tiles w h f) Asset.empty 0 = .ok (a, n) := by
    rw [hcfg, htiles, hloop2]
  rcases Nat.lt_or_ge (a.selectIndex.indexSize + a.selectIndex.blockData.length) 65536 with hlt | hge
  · obtain ⟨xs1, hend1⟩ := exec_dubEncode_of_lt hq1 hw1 hh1 hf1 hlen1 hloop1 hlt
    obtain ⟨xs2, hend2⟩ := exec_dubEncode_of_lt hq2 hw2 hh2 hf2 hlen2 hloop2 hlt
    obtain rfl := Host.Outcome.next.inj (hend1.symm.trans hexec1)
    obtain rfl := Host.Outcome.next.inj (hend2.symm.trans hexec2)
    exact ⟨_, rfl, rfl, rfl, fun _ => rfl, rfl⟩
  · obtain ⟨xs1, hend1⟩ := exec_dubEncode_of_ge hq1 hw1 hh1 hf1 hlen1 hloop1 hge
    obtain ⟨xs2, hend2⟩ := exec_dubEncode_of_ge hq2 hw2 hh2 hf2 hlen2 hloop2 hge
    obtain rfl := Host.Outcome.next.inj (hend1.symm.trans hexec1)
    obtain rfl := Host.Outcome.next.inj (hend2.symm.trans hexec2)
    exact ⟨[], (List.append_nil _).symm, (List.append_nil _).symm, rfl, nofun, rfl⟩

/-! ### The system operations (R220, R213) -/

theorem exec_sysReset (s : State) : exec .sysReset s = .next { s with
    adpcm := State.reset.adpcm, opt := State.reset.opt, blk := Block.fresh, asset := Asset.empty, stat := Status.initial,
    result := .none } := rfl

theorem exec_sysStatus (s : State) : exec .sysStatus s = .next { s with result := .status s.stat } := rfl

/-- Settles O1: the reset values are those of R220. -/
theorem systemOperationsResetAndReadTheRegisters : Obligations.SystemOperationsResetAndReadTheRegisters :=
  fun s => ⟨⟨State.reset.opt, Asset.empty.packed, exec_sysReset s⟩, exec_sysStatus s⟩

/-! ### The step (R223, R247) -/

section
variable {s : State} {q : Issue} {rest : List Issue} (hbus : s.bus = q :: rest)
include hbus

theorem step_of_decode_ok {i : Instr} (hi : decode s.cfg q.packet = .ok i) :
    step s = exec i (({ s with bus := rest } : State).supplied q.supply) := by
  simp only [step, hbus, hi]

theorem step_of_decode_error {e : DecodeError} (he : decode s.cfg q.packet = .error e) :
    step s = .refused (.badEncoding e) := by
  simp only [step, hbus, he]

end

theorem step_of_bus_nil {s : State} (hbus : s.bus = []) : step s = .next s := by
  simp only [step, hbus]

/-- Settles O3: the three branches of a step. -/
theorem stepRunsTheDecodedOperation : Obligations.StepRunsTheDecodedOperation :=
  fun _ => ⟨fun _ _ _ hbus => step_of_decode_ok hbus, fun _ _ _ hbus => step_of_decode_error hbus, step_of_bus_nil⟩

end Sys2Proof.Machine
end

section
/-! The encodings (30_encoding.md): the decoder reads what the encoder writes, the encoder writes back what the decoder
reads, and the numbers that R86 does not list are refused. -/
namespace Sys2Proof

/-! ### Numbers of whole bytes -/

section
variable {n w : Nat} {k : BitVec w → List Byte → Except DecodeError (Instr × List Byte)}

/-- An operand that its bytes can hold is read back, and the reader goes on behind it. -/
theorem withNum_toNat (x : BitVec w) (hw : w ≤ 8 * n) (r : List Byte) :
    withNum n w (leBytes n x.toNat ++ r) k = k x r := by
  have hlt : x.toNat < 256 ^ n := calc
    x.toNat < 2 ^ w := x.isLt
    _ ≤ 2 ^ (8 * n) := Nat.pow_le_pow_right (by omega) hw
    _ = 256 ^ n := pow_mul 2 8 n
  rw [withNum_leBytes hlt, BitVec.ofNat_toNat, BitVec.setWidth_eq]

theorem withNum_toNat_nil (x : BitVec w) (hw : w ≤ 8 * n) : withNum n w (leBytes n x.toNat) k = k x [] := by
  simpa using withNum_toNat (k := k) x hw []

end

theorem toNat_ofNat_of_lt {n v : Nat} (h : v < 256 ^ n) : (BitVec.ofNat (8 * n) v).toNat = v := by
  rw [BitVec.toNat_ofNat, pow_mul]
  exact Nat.mod_eq_of_lt h

/-! ### The transaction of an instruction decodes to it -/

theorem decodeWhole_ok {cfg : Config.Params} {bytes : List Byte} {i : Instr} :
    decodeWhole cfg bytes = .ok i ↔ decodeCommand cfg bytes = .ok (i, []) := by
  unfold decodeWhole
  split <;> rename_i hcommand <;> simp [hcommand]

theorem decode_command {cfg : Config.Params} {bytes : List Byte} {i : Instr} (h : decodeCommand cfg bytes = .ok (i, [])) :
    decode cfg (.command bytes) = .ok i := decodeWhole_ok.mpr h

theorem withCode_encoded (ty : CodeType) (v : BitVec 32) (k : CodeType → BitVec 32 → Instr) :
    withCode (codeTypeByte ty :: leBytes 4 v.toNat) k = .ok (k ty v, []) := by
  have htype : codeTypeByte ty :: leBytes 4 v.toNat = leBytes 1 (codeTypeByte ty).toNat ++ leBytes 4 v.toNat := by
    simp [leBytes]
  rw [withCode, htype, withNum_toNat _ (by decide), withNum_toNat_nil v (by decide), codeTypeOf_codeTypeByte]

theorem withWords_encoded {ws : List Word} (h : ws.length < 256) (k : List Word → Instr) :
    withWords (leBytes 1 ws.length ++ leWords ws) k = .ok (k ws, []) := by
  have hcount : (BitVec.ofNat 8 ws.length).toNat = ws.length := toNat_ofNat_of_lt (n := 1) h
  have hwords : takeWords ws.length (leWords ws) = .ok (ws, []) := by simpa using takeWords_leWords ws []
  rw [withWords, withNum_leBytes h, hcount, hwords]

theorem withDims_encoded {cfg : Config.Params} {w h f : Nat} (hw : w < 2 ^ cfg.dimBits) (hh : h < 2 ^ cfg.dimBits)
    (hf : f < 2 ^ cfg.dimBits) :
    withDims cfg (leBytes (dimBytes cfg) w ++ leBytes (dimBytes cfg) h ++ leBytes (dimBytes cfg) f) =
      .ok (.dubEncode w h f, []) := by
  have hlast : takeDim cfg (leBytes (dimBytes cfg) f) = .ok (f, []) := by simpa using takeDim_leBytes hf []
  simp only [withDims, List.append_assoc, takeDim_leBytes hw, takeDim_leBytes hh, hlast]

/-- A field of `n` groups that is written is read as that number of groups and that value (R78). -/
theorem wholeField_groupBits {n v : Nat} (hn : 1 ≤ n) (hv : v < 8 ^ n) (k : Nat × Nat → Except DecodeError Instr) :
    wholeField (groupBits n v) k = k (n, v) := by
  rw [wholeField, readGroups_groupBits hn hv]

theorem toNat_lt_groups {n : Nat} (x : BitVec (3 * n)) : x.toNat < 8 ^ n := by
  have h := x.isLt
  rwa [pow_mul] at h

section
variable {n : Nat} (hn : 1 ≤ n) (x : BitVec (3 * n))
include hn

theorem decodeDubCode_delta (neg : Bool) :
    decodeDubCode (false :: neg :: groupBits n x.toNat) = deltaForm neg (n, x.toNat) :=
  wholeField_groupBits hn (toNat_lt_groups x) _

theorem decodeDubCode_ref : decodeDubCode (true :: groupBits n x.toNat) = refForm (n, x.toNat) :=
  wholeField_groupBits hn (toNat_lt_groups x) _

theorem wholeField_repeat : wholeField (groupBits n x.toNat) repeatForm = repeatForm (n, x.toNat) :=
  wholeField_groupBits hn (toNat_lt_groups x) _

end

/-- Settles O4: row by row, each operand is read back by the lemma on its reader. -/
theorem decodeOfEncodeIsTheInstruction : Obligations.DecodeOfEncodeIsTheInstruction := by
  intro cfg i hi
  cases i
  -- commands without operands
  case sysReset | sysStatus | adpcmHeader | bbReset | bbFlush | bbFlushFinal | bbGetCount | dubBlockBegin | dubBlockEnd
    | dubIndexSel => rfl
  -- commands whose operands are numbers
  case adpcmSetic | adpcmQuant | adpcmStep | adpcmPut | adpcmPair | adpcmBody | adpcmEval | adpcmScan | adpcmClimb
    | adpcmOptic | adpcmEncode | bbAppend | bbAppendVar | dubChoose | dubTile =>
    exact decode_command (by simp [decodeCommand, withNum_toNat, withNum_toNat_nil])
  -- commands with a code, a list of words, or dimensions
  case dubPack ty v => exact decode_command (withCode_encoded ty v _)
  case dubCodeLen ty v => exact decode_command (withCode_encoded ty v _)
  case dubBlock ts => exact decode_command (withWords_encoded (of_decide_eq_true hi) _)
  case dubDedup p => exact decode_command (withWords_encoded (of_decide_eq_true hi) _)
  case dubEncode w h f =>
    simp only [Instr.encodable, Bool.and_eq_true, decide_eq_true_eq] at hi
    obtain ⟨⟨hw, hh⟩, hf⟩ := hi
    exact decode_command (withDims_encoded hw hh hf)
  -- objects whose fields are joined into a word, and the header
  case codeTableWord a m => simp only [encode, decode, extract_high, extract_low]
  case adpcmBodyByte h l => simp only [encode, decode, extract_high, extract_low]
  case adpcmHeaderBytes s b => simp only [encode, decode, extract_join (m := 8) (n := 8) s]
  case dubIndex8 h l => simp only [encode, decode, extract_high, extract_low]
  case dubIndex16 p => rfl
  -- code forms
  case dubDeltaG1 neg m => exact (decodeDubCode_delta (n := 1) (by decide) m neg).trans (by simp [deltaForm])
  case dubDeltaG2 neg m => exact (decodeDubCode_delta (n := 2) (by decide) m neg).trans (by simp [deltaForm])
  case dubDeltaG3 neg m => exact (decodeDubCode_delta (n := 3) (by decide) m neg).trans (by simp [deltaForm])
  case dubDeltaG4 neg m => exact (decodeDubCode_delta (n := 4) (by decide) m neg).trans (by simp [deltaForm])
  case dubDeltaG5 neg m => exact (decodeDubCode_delta (n := 5) (by decide) m neg).trans (by simp [deltaForm])
  case dubDeltaG6 neg m => exact (decodeDubCode_delta (n := 6) (by decide) m neg).trans (by simp [deltaForm])
  case dubRefG1 v => exact (decodeDubCode_ref (n := 1) (by decide) v).trans (by simp [refForm])
  case dubRefG2 v => exact (decodeDubCode_ref (n := 2) (by decide) v).trans (by simp [refForm])
  case dubRepeatG1 v => exact (wholeField_repeat (n := 1) (by decide) v).trans (by simp [repeatForm])
  case dubRepeatG2 v => exact (wholeField_repeat (n := 2) (by decide) v).trans (by simp [repeatForm])
  -- the sixteen ADPCM codes
  all_goals rfl

/-! ### A command that decodes is the transaction of its instruction -/

/-- Whatever a reader of `r` answers, its instruction is encoded as `head` and the bytes it took off `r`. -/
def WritesBack (cfg : Config.Params) (head r : List Byte) (out : Except DecodeError (Instr × List Byte)) : Prop :=
  ∀ i r', out = .ok (i, r') →
    i.encodable cfg = true ∧ ∃ taken, r = taken ++ r' ∧ encode cfg i = .command (head ++ taken)

namespace WritesBack
variable {cfg : Config.Params} {head r : List Byte}

theorem error (e : DecodeError) : WritesBack cfg head r (.error e) := nofun

theorem ok {i : Instr} (hi : i.encodable cfg = true) (he : encode cfg i = .command head) :
    WritesBack cfg head r (.ok (i, r)) := by
  rintro _ _ ⟨⟩
  exact ⟨hi, [], rfl, by rw [List.append_nil, he]⟩

/-- A reader that goes on behind bytes it has taken off. -/
theorem cons {taken r' : List Byte} {out : Except DecodeError (Instr × List Byte)} (hr : r = taken ++ r')
    (h : WritesBack cfg (head ++ taken) r' out) : WritesBack cfg head r out := by
  intro i r'' hout
  obtain ⟨hi, rest, hr', he⟩ := h i r'' hout
  exact ⟨hi, taken ++ rest, by rw [hr, hr', List.append_assoc], by rw [he, List.append_assoc]⟩

theorem num {n w : Nat} {k : BitVec w → List Byte → Except DecodeError (Instr × List Byte)} (hw : w = 8 * n)
    (h : ∀ x r', WritesBack cfg (head ++ leBytes n x.toNat) r' (k x r')) :
    WritesBack cfg head r (withNum n w r k) := by
  subst hw
  intro i r'' hout
  obtain ⟨v, r', hv, hr, hk⟩ := withNum_ok hout
  have hrest := h (BitVec.ofNat (8 * n) v) r'
  rw [toNat_ofNat_of_lt hv] at hrest
  exact cons hr hrest i r'' hk

theorem code {k : CodeType → BitVec 32 → Instr}
    (h : ∀ ty v, (k ty v).encodable cfg = true ∧
      encode cfg (k ty v) = .command (head ++ codeTypeByte ty :: leBytes 4 v.toNat)) :
    WritesBack cfg head r (withCode r k) := by
  refine num rfl fun t _ => num rfl fun v _ => ?_
  split
  case h_1 => exact error _
  case h_2 ty hty =>
    obtain rfl := codeTypeOf_ok hty
    obtain ⟨hi, he⟩ := h ty v
    exact ok hi (by simp [he, leBytes])

theorem words {k : List Word → Instr}
    (h : ∀ ws, ws.length < 256 → (k ws).encodable cfg = true ∧
      encode cfg (k ws) = .command (head ++ (leBytes 1 ws.length ++ leWords ws))) :
    WritesBack cfg head r (withWords r k) := by
  refine num rfl fun n r' => ?_
  split
  case h_1 => exact error _
  case h_2 ws r'' htake =>
    obtain ⟨hlen, hr⟩ := takeWords_ok htake
    obtain ⟨hi, he⟩ := h ws (hlen ▸ n.isLt)
    exact cons hr (ok hi (by rw [he, hlen, List.append_assoc]))

theorem dims
    (h : ∀ w v f, (Instr.dubEncode w v f).encodable cfg = true → encode cfg (.dubEncode w v f) =
      .command (head ++ leBytes (dimBytes cfg) w ++ leBytes (dimBytes cfg) v ++ leBytes (dimBytes cfg) f)) :
    WritesBack cfg head r (withDims cfg r) := by
  unfold withDims
  split
  case h_1 => exact error _
  case h_2 w r1 hw =>
    split
    case h_1 => exact error _
    case h_2 v r2 hv =>
      split
      case h_1 => exact error _
      case h_2 f r3 hf =>
        obtain ⟨hwlt, hr⟩ := takeDim_ok hw
        obtain ⟨hvlt, hr1⟩ := takeDim_ok hv
        obtain ⟨hflt, hr2⟩ := takeDim_ok hf
        have hi : (Instr.dubEncode w v f).encodable cfg = true := by simp [Instr.encodable, hwlt, hvlt, hflt]
        exact cons hr (cons hr1 (cons hr2 (ok hi (h w v f hi))))

end WritesBack

theorem decodeCommand_writesBack (cfg : Config.Params) (op : Byte) (r : List Byte) :
    WritesBack cfg [op] r (decodeCommand cfg (op :: r)) := by
  have hop : op = BitVec.ofNat 8 op.toNat := by simp
  unfold decodeCommand
  dsimp only
  split
  case h_31 => exact .error _
  -- in the other arms the number is the one of the row
  all_goals
    rename_i hnumber
    rw [hop, hnumber]
  -- without operands
  case h_1 | h_2 | h_14 | h_15 | h_18 | h_19 | h_20 | h_24 | h_26 | h_29 => exact .ok rfl rfl
  -- with one number, two, three or four
  case h_4 | h_5 | h_6 | h_8 | h_10 | h_12 | h_13 | h_23 | h_25 => exact .num rfl fun _ _ => .ok rfl rfl
  case h_3 | h_7 | h_16 | h_17 => exact .num rfl fun _ _ => .num rfl fun _ _ => .ok rfl rfl
  case h_9 => exact .num rfl fun _ _ => .num rfl fun _ _ => .num rfl fun _ _ => .ok rfl rfl
  case h_11 =>
    exact .num rfl fun _ _ => .num rfl fun _ _ => .num rfl fun _ _ => .num rfl fun _ _ => .ok rfl rfl
  -- with a code, a list of words, or dimensions
  case h_21 | h_22 => exact .code fun _ _ => ⟨rfl, rfl⟩
  case h_27 | h_28 => exact .words fun _ hlt => ⟨decide_eq_true hlt, rfl⟩
  case h_30 => exact .dims fun _ _ _ _ => rfl

theorem encode_of_decode_command {cfg : Config.Params} {bytes : List Byte} {i : Instr}
    (h : decode cfg (.command bytes) = .ok i) : i.encodable cfg = true ∧ encode cfg i = .command bytes := by
  have hcommand := decodeWhole_ok.mp h
  cases bytes with
  | nil => cases hcommand
  | cons op r =>
    obtain ⟨hi, taken, hr, he⟩ := decodeCommand_writesBack cfg op r i [] hcommand
    rw [List.append_nil] at hr
    exact ⟨hi, by rw [he, hr, List.singleton_append]⟩

/-! ### An object that decodes is the transaction of its instruction -/

theorem encode_decodeNybble (cfg : Config.Params) (c : Nybble) :
    (decodeNybble c).encodable cfg = true ∧ encode cfg (decodeNybble c) = .adpcmNybble c := by
  have hc : BitVec.ofNat 4 c.toNat = c := by simp
  have hlt : c.toNat < 16 := c.isLt
  rw [← hc]
  generalize c.toNat = n at hlt
  interval_cases n <;> exact ⟨rfl, rfl⟩

theorem encode_of_decode_header {cfg : Config.Params} {bytes : List Byte} {i : Instr}
    (h : decode cfg (.adpcmHeader bytes) = .ok i) : i.encodable cfg = true ∧ encode cfg i = .adpcmHeader bytes := by
  match bytes with
  | [b0, b1, b2] =>
    cases h
    exact ⟨rfl, by rw [encode, extract_low (m := 8) (n := 8), extract_high (m := 8) (n := 8)]⟩
  | [] | [_] | [_, _] | _ :: _ :: _ :: _ :: _ => cases h

theorem wholeField_ok {bits : List Bool} {k : Nat × Nat → Except DecodeError Instr} {i : Instr}
    (h : wholeField bits k = .ok i) : ∃ n v, v < 8 ^ n ∧ groupBits n v = bits ∧ k (n, v) = .ok i := by
  unfold wholeField at h
  split at h
  case h_1 f hf =>
    obtain ⟨-, hv, hbits⟩ := readGroups_some hf
    exact ⟨f.1, f.2, hv, hbits, h⟩
  case h_2 => cases h

section
variable {cfg : Config.Params} {n v : Nat} {i : Instr} (hv : v < 8 ^ n)
include hv

/-- The operand of a form of `n` groups holds the value of the field whole. -/
theorem groupBits_toNat_ofNat : groupBits n (BitVec.ofNat (3 * n) v).toNat = groupBits n v := by
  rw [BitVec.toNat_ofNat, pow_mul]
  exact congrArg (groupBits n) (Nat.mod_eq_of_lt hv)

theorem encode_of_deltaForm {neg : Bool} (h : deltaForm neg (n, v) = .ok i) :
    i.encodable cfg = true ∧ encode cfg i = .dubCode (false :: neg :: groupBits n v) := by
  have hbits := groupBits_toNat_ofNat hv
  unfold deltaForm at h
  split at h
  case h_7 => cases h
  all_goals
    rename_i hgroups
    cases hgroups
    cases h
    exact ⟨rfl, congrArg (fun bits => Packet.dubCode (false :: neg :: bits)) hbits⟩

theorem encode_of_refForm (h : refForm (n, v) = .ok i) :
    i.encodable cfg = true ∧ encode cfg i = .dubCode (true :: groupBits n v) := by
  have hbits := groupBits_toNat_ofNat hv
  unfold refForm at h
  split at h
  case h_3 => cases h
  all_goals
    rename_i hgroups
    cases hgroups
    cases h
    exact ⟨rfl, congrArg (fun bits => Packet.dubCode (true :: bits)) hbits⟩

theorem encode_of_repeatForm (h : repeatForm (n, v) = .ok i) :
    i.encodable cfg = true ∧ encode cfg i = .dubRepeat (groupBits n v) := by
  have hbits := groupBits_toNat_ofNat hv
  unfold repeatForm at h
  split at h
  case h_3 => cases h
  all_goals
    rename_i hgroups
    cases hgroups
    cases h
    exact ⟨rfl, congrArg Packet.dubRepeat hbits⟩

end

theorem encode_of_decodeDubCode {cfg : Config.Params} {bits : List Bool} {i : Instr} (h : decodeDubCode bits = .ok i) :
    i.encodable cfg = true ∧ encode cfg i = .dubCode bits := by
  match bits with
  | false :: neg :: r =>
    obtain ⟨n, v, hv, rfl, hform⟩ := wholeField_ok h
    exact encode_of_deltaForm hv hform
  | true :: r =>
    obtain ⟨n, v, hv, rfl, hform⟩ := wholeField_ok h
    exact encode_of_refForm hv hform
  | [] | [false] => cases h

/-- Settles O5: frame by frame, what the decoder reads is written back bit for bit. -/
theorem encodeOfDecodeIsTheTransaction : Obligations.EncodeOfDecodeIsTheTransaction := by
  intro cfg p i h
  cases p with
  | command bytes => exact encode_of_decode_command h
  | adpcmNybble c => cases h; exact encode_decodeNybble cfg c
  | codeTableWord w => cases h; exact ⟨rfl, congrArg Packet.codeTableWord (extract_join (m := 24) (n := 8) w)⟩
  | adpcmBodyByte b => cases h; exact ⟨rfl, congrArg Packet.adpcmBodyByte (extract_join (m := 4) (n := 4) b)⟩
  | adpcmHeader bytes => exact encode_of_decode_header h
  | dubCode bits => exact encode_of_decodeDubCode h
  | dubRepeat bits =>
    obtain ⟨n, v, hv, rfl, hform⟩ := wholeField_ok h
    exact encode_of_repeatForm hv hform
  | dubIndexWord8 w => cases h; exact ⟨rfl, congrArg Packet.dubIndexWord8 (extract_join (m := 8) (n := 8) w)⟩
  | dubIndexWord16 w => cases h; exact ⟨rfl, rfl⟩

/-! ### Unassigned numbers and written words -/

theorem decodeCommand_of_unassigned {cfg : Config.Params} {op : Byte} (r : List Byte)
    (h : op.toNat ∉ [0x00, 0x01, 0x10, 0x11, 0x12, 0x13, 0x14, 0x15, 0x16, 0x17, 0x18, 0x19, 0x1A, 0x1B, 0x20, 0x21, 0x22,
      0x23, 0x24, 0x25, 0x30, 0x31, 0x32, 0x33, 0x34, 0x35, 0x36, 0x37, 0x38, 0x39]) :
    decodeCommand cfg (op :: r) = .error (.undefinedCommand op) := by
  unfold decodeCommand
  dsimp only
  split
  case h_31 => rfl
  all_goals
    rename_i hop
    exact absurd (by rw [hop]; decide) h

/-- Settles O6: no arm of the decoder has an unassigned number. -/
theorem unassignedCommandNumbersAreRefused : Obligations.UnassignedCommandNumbersAreRefused := by
  intro s op r u rest hop hbus
  refine Machine.step_of_decode_error hbus ?_
  simp only [decode, decodeWhole, decodeCommand_of_unassigned r hop]

/-- Settles O7: the decoder evaluates each word. -/
theorem theSpecsWrittenWordsDecode : Obligations.TheSpecsWrittenWordsDecode :=
  ⟨rfl, rfl, rfl, rfl, rfl, rfl, rfl, rfl⟩

end Sys2Proof
end

section
/-! The invariant of the state (R21 to R29, R162, R182, R189, R191, R201). What an instruction of each unit can do is said
once in the `exec_…` lemmas; here each of those effects is read for what it does to the block, the asset and the
registers. -/
namespace Sys2Proof.Machine

/-! ### The registers -/

theorem Status.Inv.withStatus {r : Status} (h : r.Inv) {c : Condition} (hc : c ≠ .notFound) :
    ({ r with status := c } : Status).Inv := ⟨hc, h.ratio⟩

/-- The registers hold the words of an asset below the limit of R187 whole, so the ratio is that of R189. -/
theorem reportRegisters_inv {a : Asset} (hlt : a.indexSize + a.blockData.length < 65536) (tileCount : Nat) :
    (reportRegisters a tileCount).Inv := by
  have hwords : (BitVec.ofNat 16 (a.indexSize + a.blockData.length)).toNat = a.indexSize + a.blockData.length :=
    Nat.mod_eq_of_lt hlt
  exact ⟨nofun, congrArg (statRatio tileCount) hwords.symm⟩

/-! ### What each effect keeps -/

section
variable {s t : State} (hs : s.Inv)
include hs

theorem ExhaustedAt.keepsInv (h : ExhaustedAt s t) : t.Inv := by
  obtain ⟨-, xs, rfl⟩ := h
  exact ⟨hs.blk, hs.asset, hs.stat.withStatus nofun⟩

/-- `ADPCM.ENCODE` leaves OK in `STATUS`, any other operation of the unit what was there (R112). -/
theorem AdpcmEffect.keepsInv {i : Instr} (h : AdpcmEffect i s t) : t.Inv := by
  obtain he | ⟨a, o, bytes, c, xs, r, -, hother, hencode, -, rfl⟩ := h
  · exact he.keepsInv hs
  · have hc : c ≠ .notFound := by
      cases hi : isAdpcmEncode i with
      | true => rw [hencode hi]; nofun
      | false => rw [hother hi]; exact hs.stat.status_ne
    exact ⟨hs.blk, hs.asset, hs.stat.withStatus hc⟩

theorem BlockEffect.keepsInv (h : BlockEffect s t) : t.Inv := by
  obtain he | ⟨b, xs, r, hb, -, rfl⟩ := h
  · exact he.keepsInv hs
  · exact ⟨hb hs.blk, hs.asset, hs.stat⟩

theorem AssetEffect.keepsInv (h : AssetEffect s t) : t.Inv := by
  obtain he | ⟨a, xs, r, ha, -, rfl⟩ := h
  · exact he.keepsInv hs
  · exact ⟨hs.blk, ha hs.asset, hs.stat⟩

theorem IndexEffect.keepsInv (h : IndexEffect s t) : t.Inv := by
  obtain he | ⟨ws, xs, rfl⟩ := h
  · exact he.keepsInv hs
  · exact ⟨hs.blk, hs.asset, hs.stat⟩

theorem EncodeCondition.keepsInv {c : Condition} (hc : c ≠ .notFound) (h : EncodeCondition c s t) : t.Inv := by
  obtain ⟨xs, rfl⟩ := h
  exact ⟨Block.Inv.fresh _, Asset.Inv.empty, hs.stat.withStatus hc⟩

theorem EncodeEffect.keepsInv {a : Asset} {n : Nat} (h : EncodeEffect a n s t) : t.Inv := by
  obtain he | ⟨-, he⟩ | ⟨hlt, xs, rfl⟩ := h
  · exact he.keepsInv hs (by decide)
  · exact he.keepsInv hs (by decide)
  · exact ⟨Block.Inv.fresh _, Asset.Inv.empty, reportRegisters_inv hlt n⟩

/-! ### Every instruction, every step -/

theorem exec_keepsInv {i : Instr} (h : exec i s = .next t) : t.Inv := by
  cases hk : unitOf i with
  | sys =>
    obtain rfl | rfl := unitOf_sys hk <;> obtain rfl := done_eq_next.mp h
    · exact ⟨Block.Inv.fresh _, Asset.Inv.empty, Status.Inv.initial⟩
    · exact ⟨hs.blk, hs.asset, hs.stat⟩
  | adpcm => exact (exec_adpcm hk t h).keepsInv hs
  | block => exact (exec_block hk t h).keepsInv hs
  | asset => exact (exec_asset hk t h).keepsInv hs
  | index => exact (exec_index hk t h).keepsInv hs
  | encode =>
    obtain ⟨_, _, _, rfl⟩ := unitOf_encode hk
    obtain ⟨a, he⟩ := exec_dubEncode_effect t h
    exact he.keepsInv hs

end

/-- Settles O59: taking the operation and its buffers off the bus touches nothing of the invariant, and every instruction
keeps it. -/
theorem stepKeepsTheInvariant : Obligations.StepKeepsTheInvariant := by
  intro s t hs hstep
  cases hbus : s.bus with
  | nil =>
    obtain rfl := Host.Outcome.next.inj ((step_of_bus_nil hbus).symm.trans hstep)
    exact hs
  | cons q rest =>
    cases hdec : decode s.cfg q.packet with
    | error e => cases (step_of_decode_error hbus hdec).symm.trans hstep
    | ok i =>
      have hissued : (({ s with bus := rest } : State).supplied q.supply).Inv := ⟨hs.blk, hs.asset, hs.stat⟩
      exact exec_keepsInv hissued ((step_of_decode_ok hbus hdec).symm.trans hstep)

end Sys2Proof.Machine
end
